-- ==== Sys2Proof/Word.lean ====
section
/-!
DEFINITION. The plain value types of HIP (spec/00_scope.md rules R8 to R10): a sample or payload byte, a bit symbol,
the command word, and the two integer helpers `ceil8` and evenness.
-/

namespace Sys2Proof

/-- A sample of the grid, or a byte of the payload: "an integer 0–255" (R6 `SAMPLE_MAX`, R37, R38). -/
abbrev Byte := BitVec 8

/-- A bit symbol is a 1-bit value, `'0'` is `false` and `'1'` is `true` (R10). -/
abbrev Bit := Bool

/-- The command word of format C8 (R90). -/
abbrev Word := BitVec 8

/-- `ceil8(n) = (n + 7) div 8` (R8). -/
def ceil8 (n : Nat) : Nat := (n + 7) / 8

/-- `even(v)` is `v mod 2 = 0` (R8). -/
def even (v : Byte) : Bool := v.toNat % 2 == 0

/-- `odd(v)` is `v mod 2 = 1` (R8). -/
def odd (v : Byte) : Bool := v.toNat % 2 == 1

end Sys2Proof
end

