-- ==== Sys2Proof/Config.lean ====
section
/-!
DEFINITION. What is fixed for one HIP (spec/00_scope.md rules R6 and R7), and the free values: constants WITHOUT a body,
so that nothing proved of the model can depend on the value one of them has.
-/

namespace Sys2Proof.Config

/-- `LEN_CHARS`: characters of the header's `payload_length` field (R6). -/
def lenChars : Nat := 64

/-- `OPT_CHARS`: characters of the header's `options` field (R6). -/
def optChars : Nat := 64

/-- `LEN_BITS`: bits of the length field (R6). -/
def lenBits : Nat := 512

/-- `OPT_BITS`: bits of the options field (R6). -/
def optBits : Nat := 512

/-- `HDR_BITS`: total header bits (R6). -/
def hdrBits : Nat := 1024

/-- `LEN_LIMIT`: the smallest payload bit length whose decimal form does not fit 64 characters (R6). -/
def lenLimit : Nat := 10 ^ 64

/-- BYTES2BITS refuses a payload of this many bytes or more: `8*PLEN` would not fit BLEN (R115). -/
def bytesLimit : Nat := 2 ^ 29

/-- The byte of the space character, 0x20 (R12). -/
def space : Byte := 0x20#8

/-- `digit(d)` is the byte `0x30 + d` (R12). -/
def digit (d : Nat) : Byte := BitVec.ofNat 8 (0x30 + d)

/-- FREE VALUE (log entry 1). The text behind `OPT_PLACEHOLDER`, which R7 leaves OPEN. -/
opaque optText : List Byte

/-- A string of 0 to 64 bytes whose last byte is not 0x20 (R7): `p` cut to 64 bytes and stripped of trailing spaces.
Every string R7 allows is its own image, so over all texts this ranges over exactly the strings R7 allows. -/
def asPlaceholder (p : List Byte) : List Byte :=
  ((p.take optChars).reverse.dropWhile (· == space)).reverse

/-- The parameter `OPT_PLACEHOLDER` (R7): some string of 0 to 64 bytes that does not end in a space. -/
def optPlaceholder : List Byte := asPlaceholder optText

/-- FREE VALUE (log entry 2). What a GMEM cell holds after the `n`-th reset, where that reset does not keep it (R263) and as
long as nothing has written it (R42, R262). -/
opaque resetGmem : Nat → Nat → Byte

/-- FREE VALUE (log entry 2). What a PBUF cell holds after the `n`-th reset, as long as nothing has written it (R42, R262). -/
opaque resetPbuf : Nat → Nat → Byte

/-- FREE VALUE (log entry 2). What a BBUF cell holds after the `n`-th reset, as long as nothing has written it (R42, R262). -/
opaque resetBbuf : Nat → Nat → Bit

/-- FREE VALUE (log entry 3). HDR after the `n`-th reset (R42, R262: unspecified, never assumed zero). -/
opaque resetHdr : Nat → BitVec 1024

/-- FREE VALUE (log entry 3). OPT after the `n`-th reset (R42, R262: unspecified, never assumed zero). -/
opaque resetOpt : Nat → BitVec 512

/-- FREE VALUE (log entry 4). What the `n`-th host read of a GMEM or PBUF cell during a walk returns (R71 (c)). -/
opaque scanByte : Nat → Byte

/-- FREE VALUE (log entry 4). What the `n`-th host read of a BBUF cell during a walk returns (R71 (c)). -/
opaque scanBit : Nat → Bit

end Sys2Proof.Config
end

