-- ==== Sys2Proof/Machine/State.lean ====
section
/-!
DEFINITION. The state of HIP as plain data: the nineteen registers and three memories of spec/10_state.md (rules R20 to
R39), what drives the block from outside (the host's pending actions, R98), the free-value counters, and reset (R42).
-/

namespace Sys2Proof.Machine

/-- STATUS[1:0], PHASE (R23). The code 3 is "never produced", so it has no constructor (DESIGN CHOICE, log entry 12). -/
inductive Phase where
  /-- Since reset no command has been launched. -/
  | idle
  /-- An ENCODE or DECODE is walking the grid. -/
  | scan
  /-- The last command has ended. -/
  | done
  deriving DecidableEq, Repr

/-- STATUS[2], MODE (R23): which walk is in progress while PHASE = SCAN. -/
inductive Mode where
  | enc
  | dec
  deriving DecidableEq, Repr

/-- The error kinds of R230. -/
inductive ErrKind where
  | insufficientCapacity
  | malformedBitstring
  | malformedHeader
  | payloadTooLarge
  | invalidGroupSize
  | badOperand
  | illegalCommand
  deriving DecidableEq, Repr

/-- The nineteen registers of R21. -/
inductive Reg where
  | cmd
  | status
  | err
  | bitr
  | height
  | width
  | channels
  | groupSize
  | stride
  | row
  | col
  | bitcnt
  | tiles
  | len
  | plen
  | blen
  | optlen
  | hdr
  | opt
  deriving DecidableEq, Repr

/-- One action of the host: the lines of R98 in its order, access to a GMEM cell by its 40-bit address (R60), and two
actions that are not script lines: `pause` (the host leaves one step to the sequencer) and `reset` (the reset event from
outside, R260). `cmd MNEMONIC` is `wr CMD` with the command's word. -/
inductive HostAction where
  /-- `wr REG, v`. Writing CMD launches a command (R22). -/
  | wr (r : Reg) (v : Nat)
  /-- `rd REG`. -/
  | rd (r : Reg)
  /-- `gw r, c, k, v`. -/
  | gw (r c k : Nat) (v : Byte)
  /-- `gr r, c, k`. -/
  | gr (r c k : Nat)
  /-- Host write of the GMEM cell at a 40-bit address (DEDUCED, log entry 9). -/
  | gmw (a : BitVec 40) (v : Byte)
  /-- Host read of the GMEM cell at a 40-bit address (DEDUCED, log entry 9). -/
  | gmr (a : BitVec 40)
  /-- `pw i, v`. -/
  | pw (i : BitVec 32) (v : Byte)
  /-- `pr i`. -/
  | pr (i : BitVec 32)
  /-- `bw i, b`. -/
  | bw (i : BitVec 32) (b : Bit)
  /-- `br i`. -/
  | br (i : BitVec 32)
  /-- `wait`: nothing until PHASE = DONE. -/
  | wait
  /-- The host does nothing for one step. -/
  | pause
  /-- The reset event. -/
  | reset
  deriving DecidableEq, Repr

/-- Why a step stops with a fault. No command of HIP raises one: its errors are codes in ERR (R232). -/
inductive Fault where
  /-- Raised by a tile step whose tile (or, for DECODE, whose anchor sample) does not lie in the grid, where R153 and R154
  define nothing (DESIGN CHOICE, log entry 7). Safe: no state that keeps the walk invariant (R179) reaches it. -/
  | tileOutsideGrid
  /-- Raised by a host `gw` or `gr`, outside a walk, whose indices name no sample: R11 defines `GRID[r][c][k]` only inside
  the grid (DESIGN CHOICE, log entry 8). Safe: the model stops where the spec says nothing. -/
  | gridIndexOutsideGrid
  deriving DecidableEq, Repr

/-- Why a step has no meaning. -/
inductive Refusal where
  /-- Raised by an arm of `exec` whose instruction has no meaning. Safe. No arm of this model does. -/
  | notModelled (mnemonic : String)
  deriving DecidableEq, Repr

/-- A memory: the cells something has written, addresses strictly rising. A cell that is not listed has not been written
since the last reset that made it unspecified, and holds an unspecified value (R262). -/
abbrev Memory (α : Type) := List (Nat × α)

/-- The state of HIP (R20), with the host's pending actions and the counters of the free values. -/
structure State where
  /-- CMD (R22). -/
  cmd : BitVec 8
  /-- STATUS[1:0] (R23). -/
  phase : Phase
  /-- STATUS[2] (R23). -/
  mode : Mode
  /-- ERR (R24). -/
  err : BitVec 8
  /-- BITR (R25). -/
  bitr : Bit
  /-- HEIGHT (R26). -/
  height : BitVec 16
  /-- WIDTH (R26). -/
  width : BitVec 16
  /-- CHANNELS (R26). -/
  channels : BitVec 8
  /-- GROUP_SIZE (R27). -/
  groupSize : BitVec 32
  /-- STRIDE (R28). -/
  stride : BitVec 16
  /-- ROW (R29). -/
  row : BitVec 16
  /-- COL (R29). -/
  col : BitVec 16
  /-- BITCNT (R30). -/
  bitcnt : BitVec 32
  /-- TILES (R31). -/
  tiles : BitVec 32
  /-- LEN (R32). -/
  len : BitVec 213
  /-- PLEN (R33). -/
  plen : BitVec 32
  /-- BLEN (R34). -/
  blen : BitVec 32
  /-- OPTLEN (R36). -/
  optlen : BitVec 7
  /-- HDR (R35): stream bit 0 is the most significant bit. -/
  hdr : BitVec 1024
  /-- OPT (R36): byte 0 is the most significant byte. -/
  opt : BitVec 512
  /-- GMEM (R37). -/
  gmem : Memory Byte
  /-- PBUF (R38). -/
  pbuf : Memory Byte
  /-- BBUF (R39). -/
  bbuf : Memory Bit
  /-- The model's own: how many resets have been, the first argument of the free values of log entries 2 and 3. -/
  epoch : Nat
  /-- The model's own: what resets during a walk have left of GMEM (R263, log entry 10), limits rising. A GMEM cell that
  nothing has written and that lies below the limit `n` of an entry `(n, e)`, and of no earlier one, still holds what it held
  after reset `e`. Every other such cell holds what it held after the last reset. -/
  kept : List (Nat × Nat)
  /-- The model's own: how many free values of log entry 4 have been drawn. -/
  draws : Nat
  /-- The model's own: what the host does next, first action first (R98, log entry 5). -/
  script : List HostAction
  /-- The model's own: the values host reads have returned, latest first (log entry 11). -/
  readLog : List Nat
  deriving DecidableEq, Repr

/-- The state after the `n`-th reset (R42), no cell of a memory kept, with the host's side as given. -/
def State.resetWith (n draws : Nat) (script : List HostAction) (readLog : List Nat) : State :=
  { cmd := 0x00#8, phase := .idle, mode := .enc, err := 0#8, bitr := false,
    height := 0#16, width := 0#16, channels := 0#8, groupSize := 1#32, stride := 1#16,
    row := 0#16, col := 0#16, bitcnt := 0#32, tiles := 0#32, len := 0#213, plen := 0#32, blen := 0#32, optlen := 0#7,
    hdr := Config.resetHdr n, opt := Config.resetOpt n,
    gmem := [], pbuf := [], bbuf := [],
    epoch := n, kept := [], draws := draws, script := script, readLog := readLog }

/-- The machine right after reset (R42), nothing yet asked of it. -/
def State.reset : State := State.resetWith 0 0 [] []

end Sys2Proof.Machine
end

