-- ==== Sys2Proof/Machine/Flags.lean ====
section
/-!
DEFINITION. The flag computations of HIP: the STATUS word (spec/10_state.md rule R23), the error codes
(spec/60_exceptions.md rule R230) and the flags a command that ends well leaves (R220).
-/

namespace Sys2Proof.Machine

/-- PHASE as R23 numbers it. -/
def Phase.code : Phase → BitVec 2
  | .idle => 0#2
  | .scan => 1#2
  | .done => 2#2

/-- MODE as R23 numbers it. -/
def Mode.code : Mode → BitVec 1
  | .enc => 0#1
  | .dec => 1#1

/-- STATUS (R23): PHASE in bits 1:0, MODE in bit 2, bits 7:3 read as 0. -/
def State.status (s : State) : BitVec 8 := 0#5 ++ (s.mode.code ++ s.phase.code : BitVec 3)

/-- `code(E)` (R230). -/
def ErrKind.code : ErrKind → BitVec 8
  | .insufficientCapacity => 1#8
  | .malformedBitstring => 2#8
  | .malformedHeader => 3#8
  | .payloadTooLarge => 4#8
  | .invalidGroupSize => 5#8
  | .badOperand => 6#8
  | .illegalCommand => 7#8

/-- How a command that completes in its launch ends: `ERR <- 0; PHASE <- DONE` (R220). -/
def succeed (s : State) : State := { s with err := 0#8, phase := .done }

/-- How a launch that starts a walk ends: `MODE <- m; ERR <- 0; PHASE <- SCAN` (R176, R201). -/
def enterScan (m : Mode) (s : State) : State := { s with mode := m, err := 0#8, phase := .scan }

end Sys2Proof.Machine
end

