-- ==== Sys2Proof/Machine/Ops.lean ====
section
/-!
DEFINITION. The named operations over memories and registers, and `raise`, HIP's one way of taking an exception
(spec/60_exceptions.md rule R232). There is no return from an exception: after an error HIP is in PHASE = DONE and the next
launch is the recovery (R241), so `launch` (Machine/Launch.lean) is the only operation that leaves that state.
-/

namespace Sys2Proof.Machine

/-- What has been written to a cell, if anything has. -/
def Memory.written? {α : Type} : Memory α → Nat → Option α
  | [], _ => none
  | (b, w) :: m, a => if a = b then some w else Memory.written? m a

/-- A read of one cell: what has been written there, else the unspecified value `unset a` (R262). -/
def Memory.read {α : Type} (unset : Nat → α) (m : Memory α) (a : Nat) : α := (m.written? a).getD (unset a)

/-- A write of one cell, in rising order of addresses. -/
def Memory.write {α : Type} : Memory α → Nat → α → Memory α
  | [], a, v => [(a, v)]
  | (b, w) :: m, a, v =>
    if a < b then (a, v) :: (b, w) :: m
    else if a = b then (a, v) :: m
    else (b, w) :: Memory.write m a v

/-- `MemWrite(space, a, n, v)`: consecutive cells in rising order (R11). -/
def Memory.writeRun {α : Type} : Memory α → Nat → List α → Memory α
  | m, _, [] => m
  | m, a, v :: vs => Memory.writeRun (m.write a v) (a + 1) vs

/-- `MemRead(space, a, n)`: `n` consecutive cells in rising order (R11). -/
def Memory.readRun {α : Type} (unset : Nat → α) (m : Memory α) (a n : Nat) : List α :=
  (List.range n).map fun i => m.read unset (a + i)

/-- The canonical form of a memory: addresses strictly rising. -/
def Memory.wf {α : Type} : Memory α → Bool
  | [] => true
  | [_] => true
  | (a, _) :: (b, w) :: m => decide (a < b) && Memory.wf ((b, w) :: m)

/-- Every written cell is a cell of a memory of `n` cells. -/
def Memory.below {α : Type} (n : Nat) (m : Memory α) : Bool := m.all fun c => decide (c.1 < n)

/-- The cells below `n`, as they are (R263). -/
def Memory.upTo {α : Type} (n : Nat) (m : Memory α) : Memory α := m.filter fun c => decide (c.1 < n)

/-- The reset whose value a cell holds that nothing has written: the one the first entry above it names, else the last, `e`. -/
def eraOf (e a : Nat) : List (Nat × Nat) → Nat
  | [] => e
  | (n, x) :: k => if a < n then x else eraOf e a k

/-- What is kept when the cells below `n` stay as they are at a reset that ends era `e`, and all others are unspecified anew. -/
def keepBelow (n e : Nat) : List (Nat × Nat) → List (Nat × Nat)
  | [] => [(n, e)]
  | (l, x) :: k => if l < n then (l, x) :: keepBelow n e k else [(n, x)]

/-- What a GMEM cell holds that nothing has written: unspecified (R262), and still the same after a reset that kept it. -/
def State.gmemUnset (s : State) (a : Nat) : Byte := Config.resetGmem (eraOf s.epoch a s.kept) a

/-- The GMEM cell at address `a` (R37). -/
def State.gmemAt (s : State) (a : Nat) : Byte := s.gmem.read s.gmemUnset a

/-- `PBUF[i]` (R38). -/
def State.pbufAt (s : State) (i : Nat) : Byte := s.pbuf.read (Config.resetPbuf s.epoch) i

/-- `BBUF[i]` (R39). -/
def State.bbufAt (s : State) (i : Nat) : Bit := s.bbuf.read (Config.resetBbuf s.epoch) i

/-- `HDR[i]`, stream order (R35). -/
def State.hdrAt (s : State) (i : Nat) : Bit := s.hdr.getMsbD i

/-- `PBUF[0..n)`. -/
def State.payload (s : State) (n : Nat) : List Byte := s.pbuf.readRun (Config.resetPbuf s.epoch) 0 n

/-- `BBUF[0..n)`. -/
def State.bitbuf (s : State) (n : Nat) : List Bit := s.bbuf.readRun (Config.resetBbuf s.epoch) 0 n

/-- One GMEM cell written. -/
def State.setGmem (s : State) (a : Nat) (v : Byte) : State := { s with gmem := s.gmem.write a v }

/-- `PBUF[i] <- v` for the bytes of `vs` from cell 0 on. -/
def State.setPayload (s : State) (vs : List Byte) : State := { s with pbuf := s.pbuf.writeRun 0 vs }

/-- `BBUF[i] <- b` for the bits of `bs` from position 0 on. -/
def State.setBitbuf (s : State) (bs : List Bit) : State := { s with bbuf := s.bbuf.writeRun 0 bs }

/-- `BBUF[i] <- b`. -/
def State.setBbuf (s : State) (i : Nat) (b : Bit) : State := { s with bbuf := s.bbuf.write i b }

/-- The header with stream bit `i` replaced. -/
def setHdrBit (h : BitVec 1024) (i : Nat) (b : Bit) : BitVec 1024 :=
  let m := BitVec.twoPow 1024 (1023 - i)
  if b then h ||| m else h &&& ~~~m

/-- `HDR[i] <- b`, stream order (R35). -/
def State.setHdr (s : State) (i : Nat) (b : Bit) : State := { s with hdr := setHdrBit s.hdr i b }

/-- `raise E` (R232): `ERR <- code(E)`; `PHASE <- DONE`; nothing is saved, no mode changes, control goes nowhere. -/
def raise (e : ErrKind) (s : State) : State := { s with err := e.code, phase := .done }

/-- The register numbers of R21. -/
def Reg.number : Reg → Nat
  | .cmd => 0x00
  | .status => 0x01
  | .err => 0x02
  | .bitr => 0x03
  | .height => 0x04
  | .width => 0x05
  | .channels => 0x06
  | .groupSize => 0x07
  | .stride => 0x08
  | .row => 0x09
  | .col => 0x0A
  | .bitcnt => 0x0B
  | .tiles => 0x0C
  | .len => 0x0D
  | .plen => 0x0E
  | .blen => 0x0F
  | .optlen => 0x10
  | .hdr => 0x11
  | .opt => 0x12

/-- The nineteen registers in the order of their numbers (R21). -/
def Reg.all : List Reg :=
  [.cmd, .status, .err, .bitr, .height, .width, .channels, .groupSize, .stride, .row, .col, .bitcnt, .tiles, .len, .plen,
    .blen, .optlen, .hdr, .opt]

/-- The register of a number, `x[i]` of R11. There are none above 0x12 (R60). -/
def Reg.ofNumber (n : Nat) : Option Reg := Reg.all[n]?

/-- The widths of R21. -/
def Reg.bits : Reg → Nat
  | .cmd => 8
  | .status => 8
  | .err => 8
  | .bitr => 1
  | .height => 16
  | .width => 16
  | .channels => 8
  | .groupSize => 32
  | .stride => 16
  | .row => 16
  | .col => 16
  | .bitcnt => 32
  | .tiles => 32
  | .len => 213
  | .plen => 32
  | .blen => 32
  | .optlen => 7
  | .hdr => 1024
  | .opt => 512

/-- The host-access column of R21: RO. -/
def Reg.readOnly : Reg → Bool
  | .cmd => false
  | .status => true
  | .err => true
  | .bitr => true
  | .height => false
  | .width => false
  | .channels => false
  | .groupSize => false
  | .stride => true
  | .row => false
  | .col => false
  | .bitcnt => true
  | .tiles => true
  | .len => false
  | .plen => false
  | .blen => false
  | .optlen => true
  | .hdr => false
  | .opt => true

/-- The value a read of a register returns, as an unsigned integer (R8, R41 (d)). HDR reads as the number its 1024 stream
bits spell, `int(HDR)` (R10, log entry 6). -/
def State.readReg (s : State) : Reg → Nat
  | .cmd => s.cmd.toNat
  | .status => s.status.toNat
  | .err => s.err.toNat
  | .bitr => s.bitr.toNat
  | .height => s.height.toNat
  | .width => s.width.toNat
  | .channels => s.channels.toNat
  | .groupSize => s.groupSize.toNat
  | .stride => s.stride.toNat
  | .row => s.row.toNat
  | .col => s.col.toNat
  | .bitcnt => s.bitcnt.toNat
  | .tiles => s.tiles.toNat
  | .len => s.len.toNat
  | .plen => s.plen.toNat
  | .blen => s.blen.toNat
  | .optlen => s.optlen.toNat
  | .hdr => s.hdr.toNat
  | .opt => s.opt.toNat

/-- A host write of `v` to a register other than CMD, outside a walk: the low bits are kept (R41 (c)) and a read-only
register ignores it (R41 (a)). CMD is written by a launch only, so here it is left alone. -/
def State.writeReg (s : State) (r : Reg) (v : Nat) : State :=
  match r with
  | .cmd => s
  | .status => s
  | .err => s
  | .bitr => s
  | .height => { s with height := BitVec.ofNat 16 v }
  | .width => { s with width := BitVec.ofNat 16 v }
  | .channels => { s with channels := BitVec.ofNat 8 v }
  | .groupSize => { s with groupSize := BitVec.ofNat 32 v }
  | .stride => s
  | .row => { s with row := BitVec.ofNat 16 v }
  | .col => { s with col := BitVec.ofNat 16 v }
  | .bitcnt => s
  | .tiles => s
  | .len => { s with len := BitVec.ofNat 213 v }
  | .plen => { s with plen := BitVec.ofNat 32 v }
  | .blen => { s with blen := BitVec.ofNat 32 v }
  | .optlen => s
  | .hdr => { s with hdr := BitVec.ofNat 1024 v }
  | .opt => s

end Sys2Proof.Machine
end

