-- ==== Sys2Proof/Machine/Operands.lean ====
section
/-!
DEFINITION. The operand forms of HIP: the group size and its root (spec/43_encoder_and_tile_walk.md rule R170), the tile
geometry (R171 to R173), the grid's address function (spec/20_memory.md rules R61, R62) and the cells of a tile
(spec/42_parity_group_mapper.md rule R152).
-/

namespace Sys2Proof.Machine

/-- The root found bit by bit: `k` more bits to try, `r` the bits found. -/
def isqrtBits (n : Nat) : Nat → Nat → Nat
  | 0, r => r
  | k + 1, r => if (r + 2 ^ k) * (r + 2 ^ k) ≤ n then isqrtBits n k (r + 2 ^ k) else isqrtBits n k r

/-- `isqrt(n)`: the largest integer `s` with `s*s <= n` (R8). -/
def isqrt (n : Nat) : Nat := isqrtBits n (Nat.log2 n / 2 + 1) 0

/-- `ValidGroupSize(g)`: `g >= 1` and `g` is a perfect square (R170). -/
abbrev ValidGroupSize (g : Nat) : Prop := 1 ≤ g ∧ isqrt g * isqrt g = g

/-- The capacity `T = (HEIGHT div s) * (WIDTH div s)` (R171). -/
def capacity (height width s : Nat) : Nat := (height / s) * (width / s)

/-- `TilePos(i) = ((i div TW) * s, (i mod TW) * s)` with `TW = WIDTH div s` (R172). -/
def tilePos (width s i : Nat) : Nat × Nat := ((i / (width / s)) * s, (i % (width / s)) * s)

/-- `NextTile(r, c)` (R173). -/
def nextTile (width s r c : Nat) : Nat × Nat := if c + 2 * s ≤ width then (r, c + s) else (r + s, 0)

/-- `A(r,c,k) = (r * WIDTH + c) * CHANNELS + k` (R62). -/
def gridAddr (width channels r c k : Nat) : Nat := (r * width + c) * channels + k

/-- The cells of `Tile(r0, c0, s)` as GMEM addresses (R152, R62), row by row, then column by column, then by channel. -/
def tileAddrs (width channels r0 c0 s : Nat) : List Nat :=
  (List.range s).flatMap fun dr => (List.range s).flatMap fun dc => (List.range channels).map fun k =>
    gridAddr width channels (r0 + dr) (c0 + dc) k

/-- `(r, c, k)` names a sample of the grid: `r < HEIGHT`, `c < WIDTH`, `k < CHANNELS` (R61). -/
abbrev State.InGrid (s : State) (r c k : Nat) : Prop :=
  r < s.height.toNat ∧ c < s.width.toNat ∧ k < s.channels.toNat

/-- The number of samples of the grid. They are the GMEM cells below it (R37, R62). -/
def State.gridSize (s : State) : Nat := s.height.toNat * s.width.toNat * s.channels.toNat

/-- `Tile(r0, c0, t)` lies in the grid: `r0 + t <= HEIGHT` and `c0 + t <= WIDTH` (R152). -/
abbrev State.TileInGrid (s : State) (r0 c0 t : Nat) : Prop :=
  r0 + t ≤ s.height.toNat ∧ c0 + t ≤ s.width.toNat

/-- The GMEM address of `GRID[r][c][k]` under the shape registers (R62). -/
def State.addr (s : State) (r c k : Nat) : Nat := gridAddr s.width.toNat s.channels.toNat r c k

/-- `GRID[r][c][k]` (R61). -/
def State.grid (s : State) (r c k : Nat) : Byte := s.gmemAt (s.addr r c k)

/-- The capacity of the grid at stride `t` (R171). -/
def State.capacityAt (s : State) (t : Nat) : Nat := capacity s.height.toNat s.width.toNat t

/-- `TilePos(i)` under WIDTH and STRIDE (R172). -/
def State.tilePos (s : State) (i : Nat) : Nat × Nat := Machine.tilePos s.width.toNat s.stride.toNat i

/-- `(ROW, COL) <- NextTile(ROW, COL)` (R173). -/
def State.advance (s : State) : State :=
  let p := nextTile s.width.toNat s.stride.toNat s.row.toNat s.col.toNat
  { s with row := BitVec.ofNat 16 p.1, col := BitVec.ofNat 16 p.2 }

/-- `BITCNT <- BITCNT + 1` (R178, R203). -/
def State.countBit (s : State) : State := { s with bitcnt := BitVec.ofNat 32 (s.bitcnt.toNat + 1) }

/-- `STRIDE <- s` (R176, R201, R157). -/
def State.setStride (s : State) (t : Nat) : State := { s with stride := BitVec.ofNat 16 t }

/-- `TILES <- T` (R176, R201). -/
def State.setTiles (s : State) (t : Nat) : State := { s with tiles := BitVec.ofNat 32 t }

/-- `Stream(BITCNT)` of the walk in progress: `HDR[i]` for `i < 1024`, else `BBUF[i - 1024]` (R175). -/
def State.stream (s : State) (i : Nat) : Bit := if i < Config.hdrBits then s.hdrAt i else s.bbufAt (i - Config.hdrBits)

end Sys2Proof.Machine
end

