-- ==== Sys2Proof/Machine/Codec.lean ====
section
/-!
DEFINITION. The Bit Codec (spec/40_bit_codec.md): its pure functions (rules R110 to R113) and the commands BYTES2BITS and
BITS2BYTES (rules R115, R116).
-/

namespace Sys2Proof.Machine

/-- The eight bits of a byte, most significant first (R64 (b)). -/
def byteBits (b : Byte) : List Bit :=
  [b.getMsbD 0, b.getMsbD 1, b.getMsbD 2, b.getMsbD 3, b.getMsbD 4, b.getMsbD 5, b.getMsbD 6, b.getMsbD 7]

/-- `BytesToBits(b)` (R110). -/
def bytesToBits (bs : List Byte) : List Bit := bs.flatMap byteBits

/-- `int(s)`: the unsigned integer a bitstring spells as a big-endian binary numeral (R10), and 0 for the empty one, the
value R112 takes there. -/
def bitsToNat (s : List Bit) : Nat := s.foldl (fun v b => 2 * v + b.toNat) 0

/-- The `n` bytes `B[j] = (v div 2^(8*(n-1-j))) mod 256` (R112, R113). -/
def natToBytes (n v : Nat) : List Byte := (List.range n).map fun j => BitVec.ofNat 8 (v / 2 ^ (8 * (n - 1 - j)))

/-- `BitsToBytesFix(s)` (R112). -/
def bitsToBytesFix (s : List Bit) : List Byte := natToBytes (ceil8 s.length) (bitsToNat s)

/-- The number of bits of `v`: 0 for 0, else the `k` with `2^(k-1) <= v < 2^k` (R113). -/
def bitWidth (v : Nat) : Nat := if v = 0 then 0 else Nat.log2 v + 1

/-- `BitsToBytesMin(s)` (R113), `none` where it fails with MalformedBitstring. -/
def bitsToBytesMin (s : List Bit) : Option (List Byte) :=
  if s.length = 0 then none else some (natToBytes (ceil8 (bitWidth (bitsToNat s))) (bitsToNat s))

/-- BYTES2BITS, launch (R115). -/
def bytes2bits (s : State) : State :=
  if Config.bytesLimit ≤ s.plen.toNat then raise .badOperand s
  else
    let t := s.setBitbuf (bytesToBits (s.payload s.plen.toNat))
    succeed { t with blen := BitVec.ofNat 32 (8 * s.plen.toNat) }

/-- `for j: PBUF[j] <- B[j]; PLEN <- n` (R116, R205). -/
def State.storePayload (s : State) (bs : List Byte) : State :=
  { s.setPayload bs with plen := BitVec.ofNat 32 bs.length }

/-- BITS2BYTES, launch (R116). -/
def bits2bytes (f : Bit) (s : State) : State :=
  let bits := s.bitbuf s.blen.toNat
  if f then succeed (s.storePayload (bitsToBytesFix bits))
  else
    match bitsToBytesMin bits with
    | none => raise .malformedBitstring s
    | some bs => succeed (s.storePayload bs)

/-- BYTES2BITS (R115). -/
def execBytes2bits (s : State) : Host.Outcome State Fault Refusal := .next (bytes2bits s)

/-- BITS2BYTES f (R116). -/
def execBits2bytes (f : Bit) (s : State) : Host.Outcome State Fault Refusal := .next (bits2bytes f s)

end Sys2Proof.Machine
end

