-- ==== Sys2Proof/Machine/Header.lean ====
section
/-!
DEFINITION. The Header Builder and Parser (spec/41_header.md): rules R130 to R136, and the commands HDR_BUILD and HDR_PARSE
(rules R137, R138).
-/

namespace Sys2Proof.Machine

/-- `DecStr64(L)`: 64 digits, most significant first, zeros on the left (R131). -/
def decStr64 (l : Nat) : List Byte := (List.range Config.lenChars).map fun j => Config.digit (l / 10 ^ (63 - j) % 10)

/-- `OptField(P)`: the bytes of `P`, then spaces up to 64 (R132). -/
def optField (p : List Byte) : List Byte := (List.range Config.optChars).map fun j => p.getD j Config.space

/-- `BuildHeader(L)` (R133), `none` where it fails with PayloadTooLarge. -/
def buildHeader (l : Nat) : Option (List Bit) :=
  if Config.lenLimit ≤ l then none else some (bytesToBits (decStr64 l) ++ bytesToBits (optField Config.optPlaceholder))

/-- `isdigit(b)`: `0x30 <= b <= 0x39` (R12). -/
def isDigit (b : Byte) : Bool := 0x30 ≤ b.toNat && b.toNat ≤ 0x39

/-- `val(b) = b - 0x30` (R12). -/
def digitVal (b : Byte) : Nat := b.toNat - 0x30

/-- The integer a string of digits spells, most significant first: `sum over j of val(D[j]) * 10^(n-1-j)` (R134). -/
def decValue (d : List Byte) : Nat := d.foldl (fun v b => 10 * v + digitVal b) 0

/-- `ParseLen(s)` (R134), `none` where it fails with MalformedHeader. -/
def parseLen (s : List Bit) : Option Nat :=
  let d := bitsToBytesFix s
  if d.all isDigit then some (decValue d) else none

/-- The number of bytes left after trailing spaces are stripped: the largest `m` with `m = 0` or `O[m-1] != 0x20` (R135). -/
def stripLen (o : List Byte) : Nat := (o.reverse.dropWhile (· == Config.space)).length

/-- `ParseOpt(s)` (R135): the raw bytes and the stripped length. It never fails. -/
def parseOpt (s : List Bit) : List Byte × Nat := (bitsToBytesFix s, stripLen (bitsToBytesFix s))

/-- `ParseHeader(h)` (R136): split at bit 512, the length first, then the options. -/
def parseHeader (h : List Bit) : Option (Nat × List Byte × Nat) :=
  match parseLen (h.take Config.lenBits) with
  | none => none
  | some l => some (l, parseOpt (h.drop Config.lenBits))

/-- A 1024-bit bitstring as the register holds it, `HDR[i]` stream bit `i` (R35). -/
def hdrOfBits (s : List Bit) : BitVec 1024 := BitVec.ofNat 1024 (bitsToNat s)

/-- `HDR[0..1024)` as a bitstring (R35). -/
def State.hdrBits (s : State) : List Bit := (List.range Config.hdrBits).map s.hdrAt

/-- `OPT <- O`: byte `j` into `OPT[511-8j : 504-8j]` (R36). -/
def optOfBytes (o : List Byte) : BitVec 512 := BitVec.ofNat 512 (o.foldl (fun v b => 256 * v + b.toNat) 0)

/-- Byte `j` of OPT, `OPT[511-8j : 504-8j]` (R36). -/
def State.optByte (s : State) (j : Nat) : Byte := s.opt.extractLsb' (504 - 8 * j) 8

/-- The options string, bytes 0 to OPTLEN-1 of OPT (R36). -/
def State.options (s : State) : List Byte := (List.range s.optlen.toNat).map s.optByte

/-- `LEN <- L; OPT <- O; OPTLEN <- m` (R138, R204). -/
def State.setParsed (s : State) (l : Nat) (o : List Byte) (m : Nat) : State :=
  { s with len := BitVec.ofNat 213 l, opt := optOfBytes o, optlen := BitVec.ofNat 7 m }

/-- HDR_BUILD, launch (R137). -/
def hdrBuild (s : State) : State :=
  match buildHeader s.len.toNat with
  | none => raise .payloadTooLarge s
  | some h => succeed { s with hdr := hdrOfBits h }

/-- HDR_PARSE, launch (R138). -/
def hdrParse (s : State) : State :=
  match parseHeader s.hdrBits with
  | none => raise .malformedHeader s
  | some (l, o, m) => succeed (s.setParsed l o m)

/-- HDR_BUILD (R137). -/
def execHdrBuild (s : State) : Host.Outcome State Fault Refusal := .next (hdrBuild s)

/-- HDR_PARSE (R138). -/
def execHdrParse (s : State) : Host.Outcome State Fault Refusal := .next (hdrParse s)

end Sys2Proof.Machine
end

