-- ==== Sys2Proof/Machine/Mapper.lean ====
section
/-!
DEFINITION. The Pixel Group Mapper (spec/42_parity_group_mapper.md): `SetParity` (rule R150), the two group operations
(R153, R154), and the commands PUT_BIT and GET_BIT (R157, R158).
-/

namespace Sys2Proof.Machine

/-- `SetParity(v, b)` (R150): by decrement, but 0 to 1 where the bit is 1. -/
def setParity (v : Byte) (b : Bit) : Byte :=
  if b then
    if even v then (if v = 0#8 then 1#8 else v - 1#8) else v
  else
    if odd v then v - 1#8 else v

/-- `SetParity` applied to each listed cell in turn. -/
def setParityAt (b : Bit) : List Nat → State → State
  | [], s => s
  | a :: as, s => setParityAt b as (s.setGmem a (setParity (s.gmemAt a) b))

/-- `EncodeBitIntoGroup(r0, c0, t, b)` (R153). It is defined where the tile lies in the grid, which its callers check. -/
def encodeBitIntoGroup (r0 c0 t : Nat) (b : Bit) (s : State) : State :=
  setParityAt b (tileAddrs s.width.toNat s.channels.toNat r0 c0 t) s

/-- `DecodeBitFromGroup(r0, c0, _)` (R154): the parity of channel 0 of the anchor pixel. The stride is not used. -/
def decodeBitFromGroup (r0 c0 : Nat) (s : State) : Bit := odd (s.grid r0 c0 0)

/-- PUT_BIT, launch (R157). -/
def putBit (f : Bit) (s : State) : State :=
  if s.channels = 0#8 then raise .badOperand s
  else if ¬ ValidGroupSize s.groupSize.toNat then raise .invalidGroupSize s
  else
    let t := isqrt s.groupSize.toNat
    if s.TileInGrid s.row.toNat s.col.toNat t then
      succeed (encodeBitIntoGroup s.row.toNat s.col.toNat t f (s.setStride t))
    else raise .badOperand (s.setStride t)

/-- GET_BIT, launch (R158). -/
def getBit (s : State) : State :=
  if s.InGrid s.row.toNat s.col.toNat 0 then
    succeed { s with bitr := decodeBitFromGroup s.row.toNat s.col.toNat s }
  else raise .badOperand s

/-- PUT_BIT f (R157). -/
def execPutBit (f : Bit) (s : State) : Host.Outcome State Fault Refusal := .next (putBit f s)

/-- GET_BIT (R158). -/
def execGetBit (s : State) : Host.Outcome State Fault Refusal := .next (getBit s)

end Sys2Proof.Machine
end

