-- ==== Sys2Proof/Machine/Decoder.lean ====
section
/-!
DEFINITION. The Decoder (spec/44_decoder.md): the DECODE launch (rule R201), its tile step (R203), the end of the header
pass (R204) and the end of the walk (R205).
-/

namespace Sys2Proof.Machine

/-- DECODE, launch, after the checks (R201). -/
def decodeStart (s : State) : State :=
  enterScan .dec { s with row := 0#16, col := 0#16, bitcnt := 0#32 }

/-- DECODE, launch (R201). -/
def decodeLaunch (s : State) : State :=
  if s.channels = 0#8 then raise .badOperand s
  else if ¬ ValidGroupSize s.groupSize.toNat then raise .invalidGroupSize s
  else
    let t := isqrt s.groupSize.toNat
    let cap := s.capacityAt t
    let s' := (s.setStride t).setTiles cap
    if cap < Config.hdrBits then raise .insufficientCapacity s' else decodeStart s'

/-- `HeaderComplete()` (R204). -/
def headerComplete (s : State) : State :=
  match parseHeader s.hdrBits with
  | none => raise .malformedHeader s
  | some (l, o, m) =>
    let t := s.setParsed l o m
    if t.tiles.toNat < Config.hdrBits + l then raise .insufficientCapacity t else t

/-- `Finalise()` (R205). -/
def finalise (s : State) : State :=
  let l := s.len.toNat
  let t := { s with blen := BitVec.ofNat 32 l }
  { t.storePayload (bitsToBytesFix (t.bitbuf l)) with phase := .done }

/-- `HDR[BITCNT] <- b` in the header pass, `BBUF[BITCNT - 1024] <- b` after it (R203). -/
def State.collect (s : State) (b : Bit) : State :=
  if s.bitcnt.toNat < Config.hdrBits then s.setHdr s.bitcnt.toNat b
  else s.setBbuf (s.bitcnt.toNat - Config.hdrBits) b

/-- The end of a DECODE tile step: finalise when the declared length is collected, else go to the next tile (R203). -/
def decodeNext (s : State) : State :=
  if Config.hdrBits ≤ s.bitcnt.toNat ∧ s.bitcnt.toNat = Config.hdrBits + s.len.toNat then finalise s else s.advance

/-- DECODE, tile step, on an anchor in the grid (R203). -/
def decodeTile (s : State) : State :=
  let b := decodeBitFromGroup s.row.toNat s.col.toNat s
  let t := (s.collect b).countBit
  if t.bitcnt.toNat = Config.hdrBits then
    let u := headerComplete t
    if u.phase = .done then u else decodeNext u
  else decodeNext t

/-- DECODE, tile step (R203). An anchor outside the grid has no meaning (R154). No walk reaches one (R179). -/
def decodeTileStep (s : State) : Host.Outcome State Fault Refusal :=
  if s.InGrid s.row.toNat s.col.toNat 0 then .next (decodeTile s) else .fault .tileOutsideGrid

/-- DECODE (R201): the launch. The tile steps follow one by one, as `step` takes them. -/
def execDecode (s : State) : Host.Outcome State Fault Refusal := .next (decodeLaunch s)

end Sys2Proof.Machine
end

