-- ==== Sys2Proof/Machine/Encoder.lean ====
section
/-!
DEFINITION. The Encoder (spec/43_encoder_and_tile_walk.md): the ENCODE launch (rule R176) and its tile step (R178).
-/

namespace Sys2Proof.Machine

/-- ENCODE, launch, after the checks: the full stream `header ++ bits` prepared and the walk started (R176). -/
def encodeStart (l : Nat) (h : List Bit) (s : State) : State :=
  let t := s.setBitbuf (bytesToBits (s.payload s.plen.toNat))
  enterScan .enc
    { t with len := BitVec.ofNat 213 l, blen := BitVec.ofNat 32 l, hdr := hdrOfBits h, row := 0#16, col := 0#16,
             bitcnt := 0#32 }

/-- ENCODE, launch (R176): the checks in its order, then the start of the walk. -/
def encodeLaunch (s : State) : State :=
  if s.channels = 0#8 then raise .badOperand s
  else if ¬ ValidGroupSize s.groupSize.toNat then raise .invalidGroupSize s
  else
    let t := isqrt s.groupSize.toNat
    let l := 8 * s.plen.toNat
    match buildHeader l with
    | none => raise .payloadTooLarge (s.setStride t)
    | some h =>
      let cap := s.capacityAt t
      let s' := (s.setStride t).setTiles cap
      if cap < Config.hdrBits + l then raise .insufficientCapacity s'
      else encodeStart l h s'

/-- ENCODE, tile step, on a tile in the grid (R178). -/
def encodeTile (s : State) : State :=
  let b := s.stream s.bitcnt.toNat
  let t := (encodeBitIntoGroup s.row.toNat s.col.toNat s.stride.toNat b s).countBit
  if t.bitcnt.toNat = Config.hdrBits + t.len.toNat then { t with phase := .done } else t.advance

/-- ENCODE, tile step (R178). A tile outside the grid has no meaning (R153). No walk reaches one (R179). -/
def encodeTileStep (s : State) : Host.Outcome State Fault Refusal :=
  if s.TileInGrid s.row.toNat s.col.toNat s.stride.toNat then .next (encodeTile s) else .fault .tileOutsideGrid

/-- ENCODE (R176): the launch. The tile steps follow one by one, as `step` takes them. -/
def execEncode (s : State) : Host.Outcome State Fault Refusal := .next (encodeLaunch s)

end Sys2Proof.Machine
end

