-- ==== Sys2Proof/Machine/System.lean ====
section
/-!
DEFINITION. The system commands (spec/45_system_commands.md): NOP (rule R221) and the illegal word (R222).
-/

namespace Sys2Proof.Machine

/-- NOP, launch (R221): `ERR <- 0; PHASE <- DONE`. -/
def execNop (s : State) : Host.Outcome State Fault Refusal := .next (succeed s)

/-- An illegal word, launch (R222): `raise IllegalCommand`. -/
def execIllegal (s : State) : Host.Outcome State Fault Refusal := .next (raise .illegalCommand s)

end Sys2Proof.Machine
end

