-- ==== Sys2Proof/Syntax.lean ====
section
/-!
DEFINITION. The nine commands of HIP, one constructor per row of spec/opcode_table.json (spec/30_encoding.md rule R92).
The only immediate is the flag `f` (R94). All other operands are fixed registers and memories (R93).
-/

namespace Sys2Proof

/-- The commands of R92. -/
inductive Instr where
  /-- NOP, word 0x00 (R221). -/
  | nop
  /-- ENCODE, word 0x01 (R176, R178). -/
  | encode
  /-- DECODE, word 0x02 (R201, R203). -/
  | decode
  /-- HDR_BUILD, word 0x03 (R137). -/
  | hdrBuild
  /-- HDR_PARSE, word 0x04 (R138). -/
  | hdrParse
  /-- PUT_BIT f, words 0x05 and 0x15: `f` is the bit to encode (R157). -/
  | putBit (f : Bit)
  /-- GET_BIT, word 0x06 (R158). -/
  | getBit
  /-- BYTES2BITS, word 0x07 (R115). -/
  | bytes2bits
  /-- BITS2BYTES f, words 0x08 (`MIN`, `f = 0`) and 0x18 (`FIX`, `f = 1`) (R116). -/
  | bits2bytes (f : Bit)
  deriving DecidableEq, Repr

/-- The mnemonic of spec/opcode_table.json. -/
def Instr.mnemonic : Instr → String
  | .nop => "NOP"
  | .encode => "ENCODE"
  | .decode => "DECODE"
  | .hdrBuild => "HDR_BUILD"
  | .hdrParse => "HDR_PARSE"
  | .putBit _ => "PUT_BIT"
  | .getBit => "GET_BIT"
  | .bytes2bits => "BYTES2BITS"
  | .bits2bytes _ => "BITS2BYTES"

/-- The opcode of R92, the field `op = w[3:0]`. -/
def Instr.opcode : Instr → BitVec 4
  | .nop => 0x0#4
  | .encode => 0x1#4
  | .decode => 0x2#4
  | .hdrBuild => 0x3#4
  | .hdrParse => 0x4#4
  | .putBit _ => 0x5#4
  | .getBit => 0x6#4
  | .bytes2bits => 0x7#4
  | .bits2bytes _ => 0x8#4

/-- The field `f = w[4]` (R91): the flag where the command has one, else 0. -/
def Instr.flag : Instr → Bit
  | .putBit f => f
  | .bits2bytes f => f
  | .nop => false
  | .encode => false
  | .decode => false
  | .hdrBuild => false
  | .hdrParse => false
  | .getBit => false
  | .bytes2bits => false

end Sys2Proof
end

