-- ==== Sys2Proof/Machine/Dispatch.lean ====
section
/-!
DEFINITION. The launch of each command, one arm per constructor of Instr (spec/30_encoding.md rule R92).
-/

namespace Sys2Proof.Machine

def exec (i : Instr) (s : State) : Host.Outcome State Fault Refusal :=
  match i with
  | .nop => Sys2Proof.Machine.execNop s
  | .encode => Sys2Proof.Machine.execEncode s
  | .decode => Sys2Proof.Machine.execDecode s
  | .hdrBuild => Sys2Proof.Machine.execHdrBuild s
  | .hdrParse => Sys2Proof.Machine.execHdrParse s
  | .putBit f => Sys2Proof.Machine.execPutBit f s
  | .getBit => Sys2Proof.Machine.execGetBit s
  | .bytes2bits => Sys2Proof.Machine.execBytes2bits s
  | .bits2bytes f => Sys2Proof.Machine.execBits2bytes f s

end Sys2Proof.Machine
end

