-- ==== Sys2Proof/WellFormed.lean ====
section
/-!
DEFINITION. What makes a command word legal: the three checks of spec/30_encoding.md rule R95 on the fields of format C8
(R91), and well-formed instructions, those whose fields pass the checks.
-/

namespace Sys2Proof

/-- The fields of format C8 (R91), as a word is cut: `rsv = w[7:5]`, `f = w[4]`, `op = w[3:0]`. -/
structure C8 where
  rsv : BitVec 3
  f   : Bit
  op  : BitVec 4
  deriving DecidableEq, Repr

/-- R91: the fields of a word. -/
def C8.ofWord (w : Word) : C8 :=
  { rsv := w.extractLsb' 5 3, f := w.getLsbD 4, op := w.extractLsb' 0 4 }

/-- R91: the word of the fields, `000fpppp` when `rsv` is 0. -/
def C8.toWord (c : C8) : Word := c.rsv ++ (BitVec.ofBool c.f ++ c.op : BitVec 5)

/-- R95 (a): the reserved bits are 0. -/
def C8.rsvOk (c : C8) : Bool := c.rsv == 0#3

/-- R95 (b): the opcode is one of the nine, not 0x9 to 0xF. -/
def C8.opOk (c : C8) : Bool := c.op.toNat ≤ 8

/-- R95 (c): the flag is 0 but for PUT_BIT (0x5) and BITS2BYTES (0x8). -/
def C8.flagOk (c : C8) : Bool := !c.f || c.op == 0x5#4 || c.op == 0x8#4

/-- A legal command word's fields (R95). -/
def C8.wellFormed (c : C8) : Bool := c.rsvOk && c.opOk && c.flagOk

/-- The fields a command is encoded with. -/
def Instr.fields (i : Instr) : C8 := { rsv := 0#3, f := i.flag, op := i.opcode }

/-- A well-formed instruction: its fields are legal. Every term of `Instr` is (its one operand is a bit). -/
def Instr.wellFormed (i : Instr) : Bool := i.fields.wellFormed

end Sys2Proof
end

