-- ==== Sys2Proof/Decode.lean ====
section
/-!
DEFINITION. Decoding of the command word, total on all 256 words and rejecting by name (spec/30_encoding.md rules R92, R95
and R96), the encoder written from the same table, and the host's view of the decoder.
-/

namespace Sys2Proof

/-- Why a word is illegal (R95), in the order R96 checks. -/
inductive Illegal where
  /-- R95 (a): `w[7:5] != 0`. -/
  | reservedBits
  /-- R95 (b): `w[3:0]` is 0x9 to 0xF. -/
  | reservedOpcode
  /-- R95 (c): `w[4] = 1` on a command that takes no flag. -/
  | flagNotTaken
  deriving DecidableEq, Repr

/-- R96, the last test: a command without a flag is rejected when `w[4] = 1`. -/
def plain (f : Bit) (i : Instr) : Except Illegal Instr :=
  if f then .error .flagNotTaken else .ok i

/-- R96, the look-up of `w[3:0]` in R92. -/
def decodeOp (f : Bit) (op : BitVec 4) : Except Illegal Instr :=
  match op.toNat with
  | 0x0 => plain f .nop
  | 0x1 => plain f .encode
  | 0x2 => plain f .decode
  | 0x3 => plain f .hdrBuild
  | 0x4 => plain f .hdrParse
  | 0x5 => .ok (.putBit f)
  | 0x6 => plain f .getBit
  | 0x7 => plain f .bytes2bits
  | 0x8 => .ok (.bits2bytes f)
  | _ => .error .reservedOpcode

/-- `decode(w)` (R96): reserved bits first, then the opcode, then the flag. No state affects it. -/
def decode (w : Word) : Except Illegal Instr :=
  let c := C8.ofWord w
  if c.rsv = 0#3 then decodeOp c.f c.op else .error .reservedBits

/-- The word of a command (R91, R92). -/
def encode (i : Instr) : Word := i.fields.toWord

/-- What the decoder reads from a table word of `nbits` bits (the bits above `nbits` are 0): a command is one 8-bit word
(R90), so a number with a bit above bit 7 is no command word. -/
def decodeTableWord (nbits w : Nat) : Option Instr :=
  let v := w % 2 ^ nbits
  if v < 2 ^ 8 then
    match decode (BitVec.ofNat 8 v) with
    | .ok i => some i
    | .error _ => none
  else none

end Sys2Proof
end

