-- ==== Sys2Proof/Machine/HostAccess.lean ====
section
/-!
DEFINITION. What the host does to HIP besides launching a command: its accesses to registers and memories outside a walk
and during one (spec/20_memory.md rule R71, spec/10_state.md rule R41), the reset event (spec/70_reset_and_hazards.md rules
R260 to R263), and the host-script syntax with its pseudo-commands (spec/30_encoding.md rules R98, R99).
-/

namespace Sys2Proof.Machine

/-- A value returned to the host. -/
def State.returns (s : State) (v : Nat) : State := { s with readLog := v :: s.readLog }

/-- What a reset during a walk leaves besides the reset values: the grid as it is at that tile-step boundary (R263), so in
`t` the cells below `s.gridSize` stay as in `s`. -/
def State.keepGrid (s t : State) : State :=
  { t with gmem := s.gmem.upTo s.gridSize, kept := keepBelow s.gridSize s.epoch s.kept }

/-- The reset event (R260, R262, R42): every register at its reset value, every memory cell unspecified anew, but for the
grid of a walk that it ends (R263; DEDUCED that R263 is meant as the exception to R262, log entry 10). The host's side (what
it does next, what it has read) is no part of HIP and stays (DESIGN CHOICE, log entry 10). -/
def State.resetEvent (s : State) : State :=
  let t := State.resetWith (s.epoch + 1) s.draws s.script s.readLog
  match s.phase with
  | .scan => s.keepGrid t
  | .idle => t
  | .done => t

/-- A host access while PHASE != SCAN. A write to CMD is a launch, not handled here. -/
def hostAccess (a : HostAction) (s : State) : Host.Outcome State Fault Refusal :=
  match a with
  | .wr r v => .next (s.writeReg r v)
  | .rd r => .next (s.returns (s.readReg r))
  | .gw r c k v => if s.InGrid r c k then .next (s.setGmem (s.addr r c k) v) else .fault .gridIndexOutsideGrid
  | .gr r c k => if s.InGrid r c k then .next (s.returns (s.grid r c k).toNat) else .fault .gridIndexOutsideGrid
  | .gmw a v => .next (s.setGmem a.toNat v)
  | .gmr a => .next (s.returns (s.gmemAt a.toNat).toNat)
  | .pw i v => .next { s with pbuf := s.pbuf.write i.toNat v }
  | .pr i => .next (s.returns (s.pbufAt i.toNat).toNat)
  | .bw i b => .next (s.setBbuf i.toNat b)
  | .br i => .next (s.returns (s.bbufAt i.toNat).toNat)
  | .wait => .next s
  | .pause => .next s
  | .reset => .next s.resetEvent

/-- A read of a byte cell during a walk returns an unspecified value (R71 (c), log entry 4). -/
def State.returnsAnyByte (s : State) : State :=
  { s.returns (Config.scanByte s.draws).toNat with draws := s.draws + 1 }

/-- A read of a BBUF cell during a walk returns an unspecified value (R71 (c)). -/
def State.returnsAnyBit (s : State) : State :=
  { s.returns (Config.scanBit s.draws).toNat with draws := s.draws + 1 }

/-- A host access while PHASE = SCAN (R71): (a) a write to any register, CMD included, or to any cell changes nothing,
(b) a register read returns the current value, (c) a cell read returns an unspecified value. -/
def hostAccessInScan (a : HostAction) (s : State) : State :=
  match a with
  | .wr _ _ => s
  | .rd r => s.returns (s.readReg r)
  | .gw _ _ _ _ => s
  | .gr _ _ _ => s.returnsAnyByte
  | .gmw _ _ => s
  | .gmr _ => s.returnsAnyByte
  | .pw _ _ => s
  | .pr _ => s.returnsAnyByte
  | .bw _ _ => s
  | .br _ => s.returnsAnyBit
  | .wait => s
  | .pause => s
  | .reset => s.resetEvent

/-- `cmd MNEMONIC [flag]`: the command's word written to CMD (R98). -/
def cmdLine (i : Instr) : HostAction := .wr .cmd (encode i).toNat

/-- `run MNEMONIC [flag]` (R99). -/
def runLines (i : Instr) : List HostAction := [cmdLine i, .wait]

/-- `shape h, w, c` (R99). -/
def shapeLines (h w c : Nat) : List HostAction := [.wr .height h, .wr .width w, .wr .channels c]

/-- `at r, c` (R99). -/
def atLines (r c : Nat) : List HostAction := [.wr .row r, .wr .col c]

/-- `gw r, c, k, v(r, c, k)` for every sample of an `h` by `w` by `c` grid. -/
def loadLines (h w c : Nat) (v : Nat → Nat → Nat → Byte) : List HostAction :=
  (List.range h).flatMap fun r => (List.range w).flatMap fun cl => (List.range c).map fun k => .gw r cl k (v r cl k)

/-- `fill v` on an `h` by `w` by `c` grid (R99). -/
def fillLines (h w c : Nat) (v : Byte) : List HostAction := loadLines h w c fun _ _ _ => v

/-- `payload b0 b1 ...` (R99). -/
def payloadLines (bs : List Byte) : List HostAction :=
  (List.range bs.length).map (fun i => .pw (BitVec.ofNat 32 i) (bs.getD i 0#8)) ++ [.wr .plen bs.length]

/-- `bits s` (R99). -/
def bitsLines (bs : List Bit) : List HostAction :=
  (List.range bs.length).map (fun i => .bw (BitVec.ofNat 32 i) (bs.getD i false)) ++ [.wr .blen bs.length]

end Sys2Proof.Machine
end

