-- ==== Sys2Proof/Machine/Launch.lean ====
section
/-!
DEFINITION. What one step of HIP is: a launch (spec/45_system_commands.md rule R220), a tile step of the walk in progress
(spec/00_scope.md rule R15), or another action of the host (R14, R71).
-/

namespace Sys2Proof.Machine

/-- A launch (R220): `CMD <- w`, then the launch of the command `w` decodes to, or of the illegal word (R222). -/
def launch (w : Word) (s : State) : Host.Outcome State Fault Refusal :=
  match decode w with
  | .ok i => exec i { s with cmd := w }
  | .error _ => execIllegal { s with cmd := w }

/-- One tile step of the sequencer: ENCODE's while MODE = ENC (R178), DECODE's while MODE = DEC (R203). -/
def tileStep (s : State) : Host.Outcome State Fault Refusal :=
  match s.mode with
  | .enc => encodeTileStep s
  | .dec => decodeTileStep s

/-- A step while PHASE = SCAN. A host that waits, pauses or has nothing to do leaves the step to the sequencer. Any other
action is a host access during a walk (R71). -/
def stepInScan (s : State) : Host.Outcome State Fault Refusal :=
  match s.script with
  | [] => tileStep s
  | .wait :: _ => tileStep s
  | .pause :: rest => tileStep { s with script := rest }
  | a :: rest => .next (hostAccessInScan a { s with script := rest })

/-- A step while PHASE != SCAN: the host's next action, and HIP "changes nothing except in response to a write to CMD"
(R71). `wait` ends when PHASE = DONE (R98), so before any launch it does not end. -/
def stepAtRest (s : State) : Host.Outcome State Fault Refusal :=
  match s.script with
  | [] => .next s
  | .wait :: rest => if s.phase = .done then .next { s with script := rest } else .next s
  | .wr .cmd v :: rest => launch (BitVec.ofNat 8 v) { s with script := rest }
  | a :: rest => hostAccess a { s with script := rest }

/-- One step: exactly one of the sequencer and the host moves (R14). -/
def stepOnce (s : State) : Host.Outcome State Fault Refusal :=
  match s.phase with
  | .scan => stepInScan s
  | .idle => stepAtRest s
  | .done => stepAtRest s

/-- The command word a table row of `nbits` bits stands for (R90: 8 bits). -/
def tableWord (nbits w : Nat) : Word := BitVec.ofNat 8 (w % 2 ^ nbits)

/-- The host about to write word `w` to CMD. During a walk that write would be ignored (R223), so the walk is ended. -/
def State.aboutToLaunch (s : State) (w : Word) : State :=
  { s with script := .wr .cmd w.toNat :: s.script, phase := if s.phase = .scan then .done else s.phase }

end Sys2Proof.Machine
end

