-- ==== Sys2Proof/Machine/Step.lean ====
section
/-!
DEFINITION. One step of HIP (`stepOnce`, Machine/Launch.lean), and how a command word is placed so that the next step runs
it: HIP fetches nothing (spec/20_memory.md rule R73), so the word becomes the host's next write to CMD.
-/

namespace Sys2Proof.Machine

/-- One step of the machine. -/
def step (s : State) : Host.Outcome State Fault Refusal := stepOnce s

/-- `s` with the host about to write the word to CMD, so that the very next step launches it (log entry 5). -/
def State.withFetchWord (s : State) (nbits w : Nat) : State := s.aboutToLaunch (tableWord nbits w)

end Sys2Proof.Machine
end

