-- ==== Sys2Proof/Safety.lean ====
section
/-!
DEFINITION. What counts as a safe run of HIP: runs of whole steps, the invariant every step keeps (the cursor invariant of
spec/43_encoder_and_tile_walk.md rule R179 strengthened until it is inductive, the ranges of spec/10_state.md, the memories'
canonical form), and the words of the claims about a walk (spec rules R180, R181, R200, R206).
-/

namespace Sys2Proof.Machine

/-- `n` steps, stopping at the first fault or refusal. -/
def run : Nat → State → Host.Outcome State Fault Refusal
  | 0, s => .next s
  | n + 1, s =>
    match step s with
    | .next t => run n t
    | .fault f => .fault f
    | .refused r => .refused r

/-- The memories are in canonical form and hold only cells that exist (R37, R38, R39). -/
structure State.MemoryOk (s : State) : Prop where
  gmemWf : s.gmem.wf = true
  gmemBelow : s.gmem.below (2 ^ 40) = true
  pbufWf : s.pbuf.wf = true
  pbufBelow : s.pbuf.below (2 ^ 32) = true
  bbufWf : s.bbuf.wf = true
  bbufBelow : s.bbuf.below (2 ^ 32) = true
  keptWf : Memory.wf s.kept = true

/-- The ranges 10_state.md gives registers that are wider than what they hold: STRIDE at least 1 (R28), OPTLEN at most 64
(R36), ERR a code of R230. -/
structure State.RangesOk (s : State) : Prop where
  strideGe : 1 ≤ s.stride.toNat
  optlenLe : s.optlen.toNat ≤ 64
  errLe : s.err.toNat ≤ 7

/-- What holds while PHASE = SCAN: the cursor invariant (R179), the grid the walk was launched on, no error so far (R24),
and the stream's end still ahead and inside the grid (R177, R204). -/
structure State.WalkOk (s : State) : Prop where
  channelsGe : 1 ≤ s.channels.toNat
  tilesEq : s.tiles.toNat = s.capacityAt s.stride.toNat
  headerFits : 1024 ≤ s.tiles.toNat
  inWalk : s.bitcnt.toNat < s.tiles.toNat
  cursor : (s.row.toNat, s.col.toNat) = s.tilePos s.bitcnt.toNat
  noError : s.err = 0#8
  encodeAhead : s.mode = .enc → s.bitcnt.toNat < 1024 + s.len.toNat ∧ 1024 + s.len.toNat ≤ s.tiles.toNat
  decodeAhead : s.mode = .dec → 1024 ≤ s.bitcnt.toNat →
    s.bitcnt.toNat < 1024 + s.len.toNat ∧ 1024 + s.len.toNat ≤ s.tiles.toNat

/-- What holds while PHASE = IDLE: no command has been launched since reset (R23), so what only commands write still has
its reset value (R42). -/
structure State.IdleOk (s : State) : Prop where
  cmdZero : s.cmd = 0#8
  errZero : s.err = 0#8
  modeEnc : s.mode = .enc
  bitcntZero : s.bitcnt = 0#32
  tilesZero : s.tiles = 0#32
  bitrZero : s.bitr = false
  strideOne : s.stride = 1#16
  optlenZero : s.optlen = 0#7
  optUnset : s.opt = Config.resetOpt s.epoch

/-- The invariant every step keeps. -/
structure State.Inv (s : State) : Prop where
  memory : s.MemoryOk
  ranges : s.RangesOk
  walk : s.phase = .scan → s.WalkOk
  idle : s.phase = .idle → s.IdleOk

/-- Address `a` is a sample of tile `i` of the walk at stride `t`, `Tile(TilePos(i), t)` (R152, R172). -/
def State.InTile (s : State) (t i a : Nat) : Prop :=
  a ∈ tileAddrs s.width.toNat s.channels.toNat (Machine.tilePos s.width.toNat t i).1 (Machine.tilePos s.width.toNat t i).2 t

/-- The bit the decoder reads from tile `i` of the walk at stride `t`, `G(i)` (R200). -/
def State.tileBit (s : State) (t i : Nat) : Bit :=
  decodeBitFromGroup (Machine.tilePos s.width.toNat t i).1 (Machine.tilePos s.width.toNat t i).2 s

/-- `G(a), ..., G(a + n - 1)` (R200, R206). -/
def State.tileBits (s : State) (t a n : Nat) : List Bit := (List.range n).map fun i => s.tileBit t (a + i)

/-- Header byte `j` as HDR holds it: stream bits `8j` to `8j+7`, most significant first (R130). -/
def State.hdrByte (s : State) (j : Nat) : Byte := s.hdr.extractLsb' (1016 - 8 * j) 8

/-- `int` of the `n` bits `f 0, ..., f (n-1)` of a stream: `sum over i of f(i) * 2^(n-1-i)` (R10). -/
def streamValue (n : Nat) (f : Nat → Bit) : Nat := ((List.range n).map fun i => (f i).toNat * 2 ^ (n - 1 - i)).sum

/-- The `n` header bytes from byte `a` on, read as a decimal numeral: `sum over j of val(D[j]) * 10^(n-1-j)` (R134). -/
def State.decimalAt (s : State) (a n : Nat) : Nat :=
  ((List.range n).map fun j => ((s.hdrByte (a + j)).toNat - 0x30) * 10 ^ (n - 1 - j)).sum

/-- The next step is the sequencer's: a walk is in progress and the host waits or has nothing to do (R14, R98). -/
def State.SequencerMoves (s : State) : Prop :=
  s.phase = .scan ∧ (s.script = [] ∨ ∃ rest, s.script = .wait :: rest)

/-- The conditions under which an ENCODE launched here succeeds (R182). -/
structure State.EncodeFits (s : State) : Prop where
  channelsGe : 1 ≤ s.channels.toNat
  groupSizeOk : ValidGroupSize s.groupSize.toNat
  fits : 1024 + 8 * s.plen.toNat ≤ s.capacityAt (isqrt s.groupSize.toNat)

/-- The conditions under which a DECODE launched here starts its walk (R201). -/
structure State.DecodeStarts (s : State) : Prop where
  channelsGe : 1 ≤ s.channels.toNat
  groupSizeOk : ValidGroupSize s.groupSize.toNat
  fits : 1024 ≤ s.capacityAt (isqrt s.groupSize.toNat)

/-- The full stream of an ENCODE launched here: `BuildHeader(8*PLEN) ++ BytesToBits(PBUF[0..PLEN))` (R175, R181). -/
def State.fullStream (s : State) : List Bit :=
  (buildHeader (8 * s.plen.toNat)).getD [] ++ bytesToBits (s.payload s.plen.toNat)

end Sys2Proof.Machine
end

