-- ==== Sys2Proof/Certificates/Slice0/Obligations.lean ====
section
/-!
DEFINITION. The statements for the provers, each a rule of spec/ said of this model. A clause of the form
`t = { s with f := t.f, ... }` is a frame: every field of the state that it does not name is unchanged.
-/

open Sys2Proof Sys2Proof.Machine

/-! ## Encoding -/

/-- R92: the opcode map. Each row selects the words `w` with `w & mask = match`, no word is in two rows, and a word in
no row is illegal. -/
def Obligations.OpcodeMapSelectsRows : Prop :=
  let rows : List (Word × Word × (Bit → Instr)) :=
    [(0xFF#8, 0x00#8, fun _ => .nop), (0xFF#8, 0x01#8, fun _ => .encode), (0xFF#8, 0x02#8, fun _ => .decode),
      (0xFF#8, 0x03#8, fun _ => .hdrBuild), (0xFF#8, 0x04#8, fun _ => .hdrParse), (0xEF#8, 0x05#8, fun f => .putBit f),
      (0xFF#8, 0x06#8, fun _ => .getBit), (0xFF#8, 0x07#8, fun _ => .bytes2bits), (0xEF#8, 0x08#8, fun f => .bits2bytes f)]
  (∀ r ∈ rows, ∀ w : Word, w &&& r.1 = r.2.1 → decode w = .ok (r.2.2 (w.getLsbD 4))) ∧
  (∀ w : Word, (∀ r ∈ rows, w &&& r.1 ≠ r.2.1) → ∃ e, decode w = .error e) ∧
  (∀ w : Word, (rows.filter fun r => w &&& r.1 == r.2.1).length ≤ 1)

/-- R95, R222: which words are illegal, how many, that launching one writes CMD, ERR and PHASE and nothing else, and
that no command but NOP is one that does nothing. -/
def Obligations.IllegalWordsRaiseIllegalCommand : Prop :=
  (∀ w : Word, (∃ e, decode w = .error e) ↔
    w.extractLsb' 5 3 ≠ 0#3 ∨ 9 ≤ (w.extractLsb' 0 4).toNat ∨
      (w.getLsbD 4 = true ∧ w.extractLsb' 0 4 ≠ 5#4 ∧ w.extractLsb' 0 4 ≠ 8#4)) ∧
  ((List.range 256).filter fun n => (decodeTableWord 8 n).isSome).length = 11 ∧
  ((List.range 256).filter fun n => (decodeTableWord 8 n).isNone).length = 245 ∧
  (∀ (s : State) (v : Nat) (rest : List HostAction) (e : Illegal), s.phase ≠ .scan → s.script = .wr .cmd v :: rest →
    decode (BitVec.ofNat 8 v) = .error e →
    step s = .next { s with script := rest, cmd := BitVec.ofNat 8 v, err := 7#8, phase := .done }) ∧
  (∀ i : Instr, i ≠ .nop → ∃ s : State, exec i s ≠ .next { s with err := 0#8, phase := .done })

/-- Decoding an encoded command gives the command back, and the word that decodes to a command is its encoding. -/
def Obligations.DecodeInvertsEncode : Prop :=
  (∀ i : Instr, i.wellFormed = true → decode (encode i) = .ok i) ∧
  (∀ (w : Word) (i : Instr), decode w = .ok i → encode i = w)

/-- A few words of R92, written out bit by bit as `000fpppp`. -/
def Obligations.WordsDecodeAsTabled : Prop :=
  decode 0b00000000#8 = .ok .nop ∧ decode 0b00000001#8 = .ok .encode ∧ decode 0b00000010#8 = .ok .decode ∧
  decode 0b00000011#8 = .ok .hdrBuild ∧ decode 0b00000100#8 = .ok .hdrParse ∧ decode 0b00000101#8 = .ok (.putBit false) ∧
  decode 0b00010101#8 = .ok (.putBit true) ∧ decode 0b00000110#8 = .ok .getBit ∧ decode 0b00000111#8 = .ok .bytes2bits ∧
  decode 0b00001000#8 = .ok (.bits2bytes false) ∧ decode 0b00011000#8 = .ok (.bits2bytes true)

/-! ## Launch, phases, errors -/

/-- R220: a write of a legal word to CMD at rest is one step, `CMD <- w` and then the launch of the command. It ends
in DONE or, for ENCODE and DECODE, in SCAN, and does the same from IDLE and from DONE. -/
def Obligations.CmdWriteLaunchesDecodedCommand : Prop :=
  (∀ (s : State) (v : Nat) (rest : List HostAction) (i : Instr), s.phase ≠ .scan → s.script = .wr .cmd v :: rest →
    decode (BitVec.ofNat 8 v) = .ok i →
    step s = exec i { s with script := rest, cmd := BitVec.ofNat 8 v }) ∧
  (∀ (s : State) (v : Nat) (rest : List HostAction) (e : Illegal), s.phase ≠ .scan → s.script = .wr .cmd v :: rest →
    decode (BitVec.ofNat 8 v) = .error e →
    step s = execIllegal { s with script := rest, cmd := BitVec.ofNat 8 v }) ∧
  (∀ (i : Instr) (s t : State), exec i s = .next t →
    t.phase = .done ∨ (t.phase = .scan ∧ t.err = 0#8 ∧ (i = .encode ∨ i = .decode))) ∧
  (∀ (i : Instr) (s : State), exec i { s with phase := .idle } = exec i { s with phase := .done })

/-- R174, R23: the phase machine. SCAN is entered by an ENCODE or DECODE launch only and left by a tile step or a
reset only. IDLE is entered by a reset only and left by a launch only. -/
def Obligations.PhaseMachineMoves : Prop :=
  ∀ s t : State, step s = .next t →
    (t.phase = .idle → s.phase = .idle ∨ ∃ rest, s.script = .reset :: rest) ∧
    (s.phase = .scan → t.phase = .done → t.bitcnt.toNat = (s.bitcnt.toNat + 1) % 2 ^ 32) ∧
    (s.phase ≠ .scan → t.phase = .scan → t.bitcnt = 0#32 ∧ ∃ v rest, s.script = .wr .cmd v :: rest ∧
      (decode (BitVec.ofNat 8 v) = .ok .encode ∨ decode (BitVec.ofNat 8 v) = .ok .decode)) ∧
    (s.phase = .done → t.phase ≠ .done → t.phase = .scan ∨ ∃ rest, s.script = .reset :: rest) ∧
    (s.phase = .idle → t.phase = .done → ∃ v rest, s.script = .wr .cmd v :: rest)

/-- R43, the spec's own summary of its command rules: what each command, at launch and in tile steps, leaves
unchanged. -/
def Obligations.CommandsWriteOnlyTheirState : Prop :=
  (∀ s t : State, exec .nop s = .next t → t = { s with err := t.err, phase := t.phase }) ∧
  (∀ s t : State, exec .encode s = .next t → t = { s with
      err := t.err, phase := t.phase, mode := t.mode, stride := t.stride, row := t.row, col := t.col,
      bitcnt := t.bitcnt, tiles := t.tiles, len := t.len, blen := t.blen, hdr := t.hdr, bbuf := t.bbuf }) ∧
  (∀ s t : State, exec .decode s = .next t → t = { s with
      err := t.err, phase := t.phase, mode := t.mode, stride := t.stride, row := t.row, col := t.col,
      bitcnt := t.bitcnt, tiles := t.tiles }) ∧
  (∀ s t : State, exec .hdrBuild s = .next t → t = { s with err := t.err, phase := t.phase, hdr := t.hdr }) ∧
  (∀ s t : State, exec .hdrParse s = .next t → t = { s with
      err := t.err, phase := t.phase, len := t.len, opt := t.opt, optlen := t.optlen }) ∧
  (∀ (f : Bit) (s t : State), exec (.putBit f) s = .next t → t = { s with
      err := t.err, phase := t.phase, stride := t.stride, gmem := t.gmem }) ∧
  (∀ s t : State, exec .getBit s = .next t → t = { s with err := t.err, phase := t.phase, bitr := t.bitr }) ∧
  (∀ s t : State, exec .bytes2bits s = .next t → t = { s with
      err := t.err, phase := t.phase, blen := t.blen, bbuf := t.bbuf }) ∧
  (∀ (f : Bit) (s t : State), exec (.bits2bytes f) s = .next t → t = { s with
      err := t.err, phase := t.phase, plen := t.plen, pbuf := t.pbuf }) ∧
  (∀ s t : State, s.SequencerMoves → s.mode = .enc → step s = .next t → t = { s with
      phase := t.phase, row := t.row, col := t.col, bitcnt := t.bitcnt, gmem := t.gmem }) ∧
  (∀ s t : State, s.SequencerMoves → s.mode = .dec → step s = .next t → t = { s with
      err := t.err, phase := t.phase, row := t.row, col := t.col, bitcnt := t.bitcnt, len := t.len, plen := t.plen,
      blen := t.blen, opt := t.opt, optlen := t.optlen, hdr := t.hdr, pbuf := t.pbuf, bbuf := t.bbuf })

/-- R231, which the spec derives from its command rules: which command can end with which code, both ways: no other
code, and each code of the table from some state. An illegal word ends with 7. -/
def Obligations.ErrorCodesPerCommand : Prop :=
  (∀ (i : Instr) (s t : State), exec i s = .next t → t.err.toNat ∈
    (match i with
      | .nop => [0]
      | .encode => [0, 1, 5, 6]
      | .decode => [0, 1, 5, 6]
      | .hdrBuild => [0, 4]
      | .hdrParse => [0, 3]
      | .putBit _ => [0, 5, 6]
      | .getBit => [0, 6]
      | .bytes2bits => [0, 6]
      | .bits2bytes true => [0]
      | .bits2bytes false => [0, 2])) ∧
  (∀ s t : State, s.SequencerMoves → step s = .next t →
    t.err = s.err ∨ (s.mode = .dec ∧ s.bitcnt.toNat = 1023 ∧ (t.err = 1#8 ∨ t.err = 3#8))) ∧
  (∀ e ∈ [1, 5, 6], ∃ s t : State, exec .encode s = .next t ∧ t.err.toNat = e) ∧
  (∀ e ∈ [1, 5, 6], ∃ s t : State, exec .decode s = .next t ∧ t.err.toNat = e) ∧
  (∀ e ∈ [1, 3], ∃ s t : State, s.SequencerMoves ∧ s.mode = .dec ∧ s.err = 0#8 ∧ step s = .next t ∧ t.err.toNat = e) ∧
  (∃ s t : State, exec .hdrBuild s = .next t ∧ t.err.toNat = 4) ∧
  (∃ s t : State, exec .hdrParse s = .next t ∧ t.err.toNat = 3) ∧
  (∀ f, ∀ e ∈ [5, 6], ∃ s t : State, exec (.putBit f) s = .next t ∧ t.err.toNat = e) ∧
  (∃ s t : State, exec .getBit s = .next t ∧ t.err.toNat = 6) ∧
  (∃ s t : State, exec .bytes2bits s = .next t ∧ t.err.toNat = 6) ∧
  (∃ s t : State, exec (.bits2bytes false) s = .next t ∧ t.err.toNat = 2) ∧
  (∀ (w : Word) (e : Illegal) (s : State), decode w = .error e → ∃ t, launch w s = .next t ∧ t.err.toNat = 7)

/-- R232: `raise E` sets ERR and PHASE and saves, changes and transfers nothing else, for each code of R230. An ENCODE
or PUT_BIT that ends with an error leaves the grid as it was. -/
def Obligations.RaiseWritesErrAndPhaseOnly : Prop :=
  (∀ s : State,
    raise .insufficientCapacity s = { s with err := 1#8, phase := .done } ∧
    raise .malformedBitstring s = { s with err := 2#8, phase := .done } ∧
    raise .malformedHeader s = { s with err := 3#8, phase := .done } ∧
    raise .payloadTooLarge s = { s with err := 4#8, phase := .done } ∧
    raise .invalidGroupSize s = { s with err := 5#8, phase := .done } ∧
    raise .badOperand s = { s with err := 6#8, phase := .done } ∧
    raise .illegalCommand s = { s with err := 7#8, phase := .done }) ∧
  (∀ s t : State, exec .encode s = .next t → t.err ≠ 0#8 → t.gmem = s.gmem) ∧
  (∀ (f : Bit) (s t : State), exec (.putBit f) s = .next t → t.err ≠ 0#8 → t.gmem = s.gmem)

/-- R23: STATUS holds PHASE in bits 1:0 (never 3) and MODE in bit 2, and its reserved bits read as 0. MODE changes at
an ENCODE or DECODE launch that enters SCAN only (or by reset), PHASE at a launch or the end of a walk only (or by
reset). -/
def Obligations.StatusHoldsPhaseAndMode : Prop :=
  (∀ s : State,
    (s.status.extractLsb' 0 2).toNat = (match s.phase with | .idle => 0 | .scan => 1 | .done => 2) ∧
    s.status.getLsbD 2 = decide (s.mode = .dec) ∧
    s.status.extractLsb' 3 5 = 0#5 ∧
    s.readReg .status = s.status.toNat) ∧
  State.reset.status = 0x00#8 ∧
  (∀ s t : State, step s = .next t → t.mode ≠ s.mode →
    (∃ rest, s.script = .reset :: rest) ∨
    (s.phase ≠ .scan ∧ t.phase = .scan ∧ ∃ v rest, s.script = .wr .cmd v :: rest ∧
      ((decode (BitVec.ofNat 8 v) = .ok .encode ∧ t.mode = .enc) ∨
        (decode (BitVec.ofNat 8 v) = .ok .decode ∧ t.mode = .dec)))) ∧
  (∀ s t : State, exec .encode s = .next t → t.phase = .scan → t.mode = .enc) ∧
  (∀ s t : State, exec .decode s = .next t → t.phase = .scan → t.mode = .dec) ∧
  (∀ (w : Word) (s t : State), launch w s = .next t → t.phase = .done ∨ t.phase = .scan) ∧
  (∀ s t : State, step s = .next t → t.phase ≠ s.phase →
    (∃ rest, s.script = .reset :: rest) ∨ (∃ v rest, s.phase ≠ .scan ∧ s.script = .wr .cmd v :: rest) ∨
    (s.phase = .scan ∧ t.phase = .done ∧ t.bitcnt.toNat = (s.bitcnt.toNat + 1) % 2 ^ 32))

/-! ## The commands that complete in their launch -/

/-- R221: NOP clears ERR, sets PHASE to DONE, and does nothing else. -/
def Obligations.NopClearsErrAndEnds : Prop :=
  ∀ s : State, exec .nop s = .next { s with err := 0#8, phase := .done }

/-- R115: BYTES2BITS. -/
def Obligations.Bytes2bitsSerialisesPayload : Prop :=
  ∀ s : State,
    (s.plen.toNat < 2 ^ 29 → ∃ t, exec .bytes2bits s = .next t ∧
      t.blen.toNat = 8 * s.plen.toNat ∧
      (∀ i, i < 8 * s.plen.toNat → t.bbufAt i = (s.pbufAt (i / 8)).getLsbD (7 - i % 8)) ∧
      (∀ i, 8 * s.plen.toNat ≤ i → t.bbufAt i = s.bbufAt i) ∧
      t = { s with bbuf := t.bbuf, blen := t.blen, err := 0#8, phase := .done }) ∧
    (2 ^ 29 ≤ s.plen.toNat → exec .bytes2bits s = .next { s with err := 6#8, phase := .done })

/-- R110: the bitstring of a byte sequence, by position. The last clause is R111, which the spec derives from R110. -/
def Obligations.BytesToBitsByPosition : Prop :=
  ∀ b : List Byte, (bytesToBits b).length = 8 * b.length ∧
    (∀ j m, j < b.length → m < 8 → (bytesToBits b)[8 * j + m]? = (b[j]?).map fun x => x.getLsbD (7 - m)) ∧
    (∀ i, i < 8 * b.length → (bytesToBits b)[i]? = (b[i / 8]?).map fun x => x.getLsbD (7 - i % 8))

/-- R116 with R112 and R113: BITS2BYTES. With `v = int(BBUF[0..BLEN))`, `FIX` stores `n = ceil8(BLEN)` bytes and `MIN`
`n = ceil8(k)`, `k` the number of bits of `v`. Byte `j` is `(v div 2^(8*(n-1-j))) mod 256`. -/
def Obligations.Bits2bytesDeserialises : Prop :=
  (∀ s : State, ∃ t, exec (.bits2bytes true) s = .next t ∧
    t.plen.toNat = (s.blen.toNat + 7) / 8 ∧
    (∀ j, j < (s.blen.toNat + 7) / 8 → (t.pbufAt j).toNat =
      streamValue s.blen.toNat s.bbufAt / 2 ^ (8 * ((s.blen.toNat + 7) / 8 - 1 - j)) % 256) ∧
    (∀ j, (s.blen.toNat + 7) / 8 ≤ j → t.pbufAt j = s.pbufAt j) ∧
    t = { s with pbuf := t.pbuf, plen := t.plen, err := 0#8, phase := .done }) ∧
  (∀ s : State, s.blen.toNat = 0 → exec (.bits2bytes false) s = .next { s with err := 2#8, phase := .done }) ∧
  (∀ (s : State) (k : Nat), 1 ≤ s.blen.toNat →
    (streamValue s.blen.toNat s.bbufAt = 0 ∧ k = 0 ∨
      1 ≤ k ∧ 2 ^ (k - 1) ≤ streamValue s.blen.toNat s.bbufAt ∧ streamValue s.blen.toNat s.bbufAt < 2 ^ k) →
    ∃ t, exec (.bits2bytes false) s = .next t ∧
      t.plen.toNat = (k + 7) / 8 ∧
      (∀ j, j < (k + 7) / 8 → (t.pbufAt j).toNat =
        streamValue s.blen.toNat s.bbufAt / 2 ^ (8 * ((k + 7) / 8 - 1 - j)) % 256) ∧
      (∀ j, (k + 7) / 8 ≤ j → t.pbufAt j = s.pbufAt j) ∧
      t = { s with pbuf := t.pbuf, plen := t.plen, err := 0#8, phase := .done })

/-- R137 with R130 to R133: HDR_BUILD. -/
def Obligations.HdrBuildWritesLengthAndOptions : Prop :=
  ∀ s : State,
    (s.len.toNat < 10 ^ 64 → ∃ t, exec .hdrBuild s = .next t ∧
      (∀ j, j < 64 → (t.hdrByte j).toNat = 0x30 + s.len.toNat / 10 ^ (63 - j) % 10) ∧
      (∀ j, j < 64 → t.hdrByte (64 + j) = Config.optPlaceholder.getD j 0x20#8) ∧
      t = { s with hdr := t.hdr, err := 0#8, phase := .done }) ∧
    (10 ^ 64 ≤ s.len.toNat → exec .hdrBuild s = .next { s with err := 4#8, phase := .done })

/-- R138 with R134 to R136: HDR_PARSE. The length field must be 64 ASCII digits. The options field is taken as it is,
its trailing spaces not counted. -/
def Obligations.HdrParseReadsLengthAndOptions : Prop :=
  ∀ s : State,
    ((∀ j, j < 64 → 0x30 ≤ (s.hdrByte j).toNat ∧ (s.hdrByte j).toNat ≤ 0x39) → ∃ t, exec .hdrParse s = .next t ∧
      t.len.toNat = s.decimalAt 0 64 ∧
      (∀ j, j < 64 → t.optByte j = s.hdrByte (64 + j)) ∧
      t.optlen.toNat ≤ 64 ∧
      (t.optlen.toNat = 0 ∨ s.hdrByte (64 + (t.optlen.toNat - 1)) ≠ 0x20#8) ∧
      (∀ j, t.optlen.toNat ≤ j → j < 64 → s.hdrByte (64 + j) = 0x20#8) ∧
      t = { s with len := t.len, opt := t.opt, optlen := t.optlen, err := 0#8, phase := .done }) ∧
    ((∃ j, j < 64 ∧ ¬ (0x30 ≤ (s.hdrByte j).toNat ∧ (s.hdrByte j).toNat ≤ 0x39)) →
      exec .hdrParse s = .next { s with err := 3#8, phase := .done })

/-- R139, which the spec derives from R131 to R136: what HDR_BUILD builds, HDR_PARSE reads back: the length, and the
options string `OPT_PLACEHOLDER`. -/
def Obligations.HeaderBuildParseRoundTrip : Prop :=
  (∀ l : Nat, l < 10 ^ 64 → ∃ h o m, buildHeader l = some h ∧ h.length = 1024 ∧ parseHeader h = some (l, o, m) ∧
    o.length = 64 ∧ o.take m = Config.optPlaceholder) ∧
  (∀ s : State, s.len.toNat < 10 ^ 64 → ∃ t u, exec .hdrBuild s = .next t ∧
    exec .hdrParse { t with len := 0#213 } = .next u ∧ u.len = s.len ∧ u.err = 0#8 ∧ u.options = Config.optPlaceholder)

/-- R150: `SetParity`, over the integers. -/
def Obligations.SetParityByDecrement : Prop :=
  ∀ (v : Byte) (b : Bit), (setParity v b).toNat =
    if b = true then (if v.toNat % 2 = 0 then (if v.toNat = 0 then 1 else v.toNat - 1) else v.toNat)
    else (if v.toNat % 2 = 1 then v.toNat - 1 else v.toNat)

/-- R151, which the spec derives from R150: parity, idempotence, distance at most 1, the cleared bit, and the table's
edge values. -/
def Obligations.SetParityProperties : Prop :=
  (∀ (v : Byte) (b : Bit), (setParity v b).toNat % 2 = b.toNat ∧
    setParity (setParity v b) b = setParity v b ∧
    (setParity v b).toNat ≤ v.toNat + 1 ∧ v.toNat ≤ (setParity v b).toNat + 1 ∧
    ((setParity v b).toNat > v.toNat → v = 0#8 ∧ setParity v b = 1#8) ∧
    ((setParity v false).toNat = v.toNat - v.toNat % 2)) ∧
  [0, 1, 2, 3, 128, 254, 255].map (fun n => (setParity (BitVec.ofNat 8 n) false).toNat) = [0, 0, 2, 2, 128, 254, 254] ∧
  [0, 1, 2, 3, 128, 254, 255].map (fun n => (setParity (BitVec.ofNat 8 n) true).toNat) = [1, 1, 1, 3, 127, 253, 255]

/-- R157: PUT_BIT, its three errors in their order and its effect, for every group size `q*q`. -/
def Obligations.PutBitSetsTileParity : Prop :=
  ∀ (f : Bit) (s : State),
    (s.channels.toNat = 0 → exec (.putBit f) s = .next { s with err := 6#8, phase := .done }) ∧
    (1 ≤ s.channels.toNat → (∀ q, 1 ≤ q → s.groupSize.toNat ≠ q * q) →
      exec (.putBit f) s = .next { s with err := 5#8, phase := .done }) ∧
    (∀ q, 1 ≤ s.channels.toNat → 1 ≤ q → s.groupSize.toNat = q * q →
      (s.height.toNat < s.row.toNat + q ∨ s.width.toNat < s.col.toNat + q) →
      exec (.putBit f) s = .next { s with stride := BitVec.ofNat 16 q, err := 6#8, phase := .done }) ∧
    (∀ q, 1 ≤ s.channels.toNat → 1 ≤ q → s.groupSize.toNat = q * q →
      s.row.toNat + q ≤ s.height.toNat → s.col.toNat + q ≤ s.width.toNat →
      ∃ t, exec (.putBit f) s = .next t ∧ t.stride.toNat = q ∧
        (∀ r c k, s.InGrid r c k → t.grid r c k =
          if s.row.toNat ≤ r ∧ r < s.row.toNat + q ∧ s.col.toNat ≤ c ∧ c < s.col.toNat + q
          then setParity (s.grid r c k) f else s.grid r c k) ∧
        (∀ a, a ∉ tileAddrs s.width.toNat s.channels.toNat s.row.toNat s.col.toNat q → t.gmemAt a = s.gmemAt a) ∧
        t = { s with gmem := t.gmem, stride := t.stride, err := 0#8, phase := .done })

/-- R158: GET_BIT. GROUP_SIZE plays no part, and only the anchor pixel need lie in the grid. -/
def Obligations.GetBitReadsAnchorParity : Prop :=
  ∀ s : State,
    ((s.channels.toNat = 0 ∨ s.height.toNat ≤ s.row.toNat ∨ s.width.toNat ≤ s.col.toNat) →
      exec .getBit s = .next { s with err := 6#8, phase := .done }) ∧
    (1 ≤ s.channels.toNat → s.row.toNat < s.height.toNat → s.col.toNat < s.width.toNat →
      ∃ t, exec .getBit s = .next t ∧
        t.bitr = decide ((s.gmemAt ((s.row.toNat * s.width.toNat + s.col.toNat) * s.channels.toNat)).toNat % 2 = 1) ∧
        t = { s with bitr := t.bitr, err := 0#8, phase := .done })

/-- R159, which the spec derives from R154 and R158: two GET_BIT with the same ROW, COL, shape and anchor sample give
the same BITR. -/
def Obligations.GetBitTwiceAgrees : Prop :=
  ∀ s u t v : State, s.InGrid s.row.toNat s.col.toNat 0 → exec .getBit s = .next t →
    u.row = t.row → u.col = t.col → u.height = t.height → u.width = t.width → u.channels = t.channels →
    u.grid u.row.toNat u.col.toNat 0 = t.grid t.row.toNat t.col.toNat 0 → exec .getBit u = .next v →
    v.bitr = t.bitr ∧ v.err = 0#8

/-- R155, which the spec derives from R151, R153 and R154: a bit written into a group is the bit read back from it,
whatever else of the grid changes in between. -/
def Obligations.GroupWriteThenRead : Prop :=
  ∀ (s u : State) (r c t : Nat) (b : Bit), s.TileInGrid r c t → 1 ≤ t → 1 ≤ s.channels.toNat →
    u.width = s.width → u.channels = s.channels →
    u.grid r c 0 = (encodeBitIntoGroup r c t b s).grid r c 0 →
    decodeBitFromGroup r c (encodeBitIntoGroup r c t b s) = b ∧ decodeBitFromGroup r c u = b

/-- R153: `EncodeBitIntoGroup` sample by sample, inside the tile and outside it. The last clause is the spec's
inference from R151 (b). -/
def Obligations.GroupWriteTouchesExactlyItsTile : Prop :=
  ∀ (s : State) (r0 c0 q : Nat) (b : Bit), s.TileInGrid r0 c0 q →
    (∀ r c k, s.InGrid r c k → (encodeBitIntoGroup r0 c0 q b s).grid r c k =
      if r0 ≤ r ∧ r < r0 + q ∧ c0 ≤ c ∧ c < c0 + q then setParity (s.grid r c k) b else s.grid r c k) ∧
    (∀ a, (∀ r c k, s.InGrid r c k → a ≠ s.addr r c k) → (encodeBitIntoGroup r0 c0 q b s).gmemAt a = s.gmemAt a) ∧
    (∀ r c k, s.InGrid r c k → r0 ≤ r → r < r0 + q → c0 ≤ c → c < c0 + q →
      odd ((encodeBitIntoGroup r0 c0 q b s).grid r c k) = b)

/-- R114, which the spec derives from R110, R112 and R113: the round-trip laws of the Bit Codec. -/
def Obligations.BitCodecRoundTrips : Prop :=
  (∀ b : List Byte, bitsToBytesFix (bytesToBits b) = b) ∧
  (∀ b : List Byte, bitsToBytesMin (bytesToBits b) = some b ↔ ∃ x xs, b = x :: xs ∧ x ≠ 0#8) ∧
  (∀ (z : Nat) (b : List Byte), 1 ≤ z → b.head? ≠ some 0#8 →
    bitsToBytesMin (bytesToBits (List.replicate z 0#8 ++ b)) = some b) ∧
  (bitsToBytesMin (bytesToBits []) = none) ∧
  (∀ s : List Bit, bytesToBits (bitsToBytesFix s) = List.replicate (8 * ceil8 s.length - s.length) false ++ s)

/-! ## ENCODE -/

/-- R176: the ENCODE launch, its errors in their order and the start of its walk, for every group size `q*q`. -/
def Obligations.EncodeLaunchChecksThenStarts : Prop :=
  ∀ s : State,
    (s.channels.toNat = 0 → exec .encode s = .next { s with err := 6#8, phase := .done }) ∧
    (1 ≤ s.channels.toNat → (∀ q, 1 ≤ q → s.groupSize.toNat ≠ q * q) →
      exec .encode s = .next { s with err := 5#8, phase := .done }) ∧
    8 * s.plen.toNat < 10 ^ 64 ∧
    (∀ q, 1 ≤ s.channels.toNat → 1 ≤ q → s.groupSize.toNat = q * q →
      s.height.toNat / q * (s.width.toNat / q) < 1024 + 8 * s.plen.toNat →
      exec .encode s = .next { s with
          stride := BitVec.ofNat 16 q, tiles := BitVec.ofNat 32 (s.height.toNat / q * (s.width.toNat / q)),
          err := 1#8, phase := .done }) ∧
    (∀ q, 1 ≤ s.channels.toNat → 1 ≤ q → s.groupSize.toNat = q * q →
      1024 + 8 * s.plen.toNat ≤ s.height.toNat / q * (s.width.toNat / q) →
      ∃ t, exec .encode s = .next t ∧ t.stride.toNat = q ∧
        t.tiles.toNat = s.height.toNat / q * (s.width.toNat / q) ∧
        t.len.toNat = 8 * s.plen.toNat ∧ t.blen.toNat = 8 * s.plen.toNat ∧
        (∀ i, i < 8 * s.plen.toNat → t.bbufAt i = (s.pbufAt (i / 8)).getLsbD (7 - i % 8)) ∧
        (∀ i, 8 * s.plen.toNat ≤ i → t.bbufAt i = s.bbufAt i) ∧
        (∀ j, j < 64 → (t.hdrByte j).toNat = 0x30 + 8 * s.plen.toNat / 10 ^ (63 - j) % 10) ∧
        (∀ j, j < 64 → t.hdrByte (64 + j) = Config.optPlaceholder.getD j 0x20#8) ∧
        t = { s with
            stride := t.stride, tiles := t.tiles, len := t.len, blen := t.blen, bbuf := t.bbuf, hdr := t.hdr,
            row := 0#16, col := 0#16, bitcnt := 0#32, mode := .enc, err := 0#8, phase := .scan })

/-- R178 with R173: the ENCODE tile step, and how many of them a walk takes. -/
def Obligations.EncodeTileStepWritesOneTile : Prop :=
  (∀ s : State, s.SequencerMoves → s.mode = .enc → s.TileInGrid s.row.toNat s.col.toNat s.stride.toNat →
    s.bitcnt.toNat + 1 < 2 ^ 32 →
    ∃ t, step s = .next t ∧
      t.bitcnt.toNat = s.bitcnt.toNat + 1 ∧
      (∀ a ∈ tileAddrs s.width.toNat s.channels.toNat s.row.toNat s.col.toNat s.stride.toNat, t.gmemAt a =
        setParity (s.gmemAt a)
          (if s.bitcnt.toNat < 1024 then s.hdrAt s.bitcnt.toNat else s.bbufAt (s.bitcnt.toNat - 1024))) ∧
      (∀ a, a ∉ tileAddrs s.width.toNat s.channels.toNat s.row.toNat s.col.toNat s.stride.toNat →
        t.gmemAt a = s.gmemAt a) ∧
      (s.bitcnt.toNat + 1 = 1024 + s.len.toNat → t.phase = .done ∧ t.row = s.row ∧ t.col = s.col) ∧
      (s.bitcnt.toNat + 1 ≠ 1024 + s.len.toNat → t.phase = .scan ∧
        (s.col.toNat + 2 * s.stride.toNat ≤ s.width.toNat → t.row = s.row ∧
          t.col.toNat = s.col.toNat + s.stride.toNat) ∧
        (s.width.toNat < s.col.toNat + 2 * s.stride.toNat → t.row.toNat = s.row.toNat + s.stride.toNat ∧
          t.col = 0#16)) ∧
      t = { s with gmem := t.gmem, bitcnt := t.bitcnt, row := t.row, col := t.col, phase := t.phase }) ∧
  (∀ s : State, s.Inv → s.SequencerMoves → s.mode = .enc →
    (∀ k, s.bitcnt.toNat + k < 1024 + s.len.toNat → ∃ u, run k s = .next u ∧ u.phase = .scan) ∧
    ∃ t, run (1024 + s.len.toNat - s.bitcnt.toNat) s = .next t ∧ t.phase = .done ∧ t.err = 0#8)

/-- R177: an ENCODE that fails leaves GMEM and its scratch state as they were, and once its walk is on it cannot fail.
-/
def Obligations.EncodeFailsBeforeAnySample : Prop :=
  (∀ s t : State, exec .encode s = .next t → t.gmem = s.gmem) ∧
  (∀ s t : State, exec .encode s = .next t → t.err ≠ 0#8 →
    (t = { s with err := t.err, phase := .done } ∧ (t.err = 5#8 ∨ t.err = 6#8)) ∨
    (t = { s with err := t.err, phase := .done, stride := t.stride } ∧ t.err = 4#8) ∨
    (t = { s with err := t.err, phase := .done, stride := t.stride, tiles := t.tiles } ∧ t.err = 1#8)) ∧
  (∀ s : State, s.Inv → s.SequencerMoves → s.mode = .enc → ∃ t, step s = .next t ∧ t.err = 0#8)

/-- R181, which the spec derives from R176, R178 and R179: ENCODE, big step. From a state at rest, `cmd ENCODE` then
`wait` ends in DONE, either with an error and the grid unchanged, or after exactly `N = 1024 + 8*PLEN` tile steps with
stream bit `i` in every sample of tile `i`. -/
def Obligations.EncodeHidesStreamInGrid : Prop :=
  ∀ (s : State) (rest : List HostAction), s.phase ≠ .scan → s.script = runLines .encode ++ rest →
    (¬ s.EncodeFits → ∃ t, run 2 s = .next t ∧ t.script = rest ∧ t.phase = .done ∧ t.err ≠ 0#8 ∧
      ∀ a, t.gmemAt a = s.gmemAt a) ∧
    (∀ q, s.EncodeFits → s.groupSize.toNat = q * q →
      (∀ k, k < 1024 + 8 * s.plen.toNat → ∃ u, run (k + 1) s = .next u ∧ u.phase = .scan ∧ u.bitcnt.toNat = k) ∧
      ∃ t, run (1024 + 8 * s.plen.toNat + 2) s = .next t ∧
        (∀ i, i < 1024 + 8 * s.plen.toNat → ∀ a, s.InTile q i a →
          t.gmemAt a = setParity (s.gmemAt a) (s.fullStream.getD i false)) ∧
        (∀ a, (∀ i, i < 1024 + 8 * s.plen.toNat → ¬ s.InTile q i a) → t.gmemAt a = s.gmemAt a) ∧
        t.stride.toNat = q ∧ t.tiles.toNat = s.height.toNat / q * (s.width.toNat / q) ∧
        t.len.toNat = 8 * s.plen.toNat ∧ t.blen.toNat = 8 * s.plen.toNat ∧
        (∀ i, i < 8 * s.plen.toNat → t.bbufAt i = (s.pbufAt (i / 8)).getLsbD (7 - i % 8)) ∧
        (∀ i, 8 * s.plen.toNat ≤ i → t.bbufAt i = s.bbufAt i) ∧
        (∀ i, i < 1024 → t.hdrAt i = s.fullStream.getD i false) ∧
        t.bitcnt.toNat = 1024 + 8 * s.plen.toNat ∧
        (t.row.toNat, t.col.toNat) = Machine.tilePos s.width.toNat q (1023 + 8 * s.plen.toNat) ∧
        t = { s with
            script := rest, cmd := 0x01#8, err := 0#8, phase := .done, mode := .enc, stride := t.stride,
            tiles := t.tiles, len := t.len, blen := t.blen, bbuf := t.bbuf, hdr := t.hdr, bitcnt := t.bitcnt,
            row := t.row, col := t.col, gmem := t.gmem })

/-- R180, which the spec derives from R153, R172 and R178: what a finished ENCODE leaves: the parity of its stream bit
in every sample of tiles 0 to N-1, every other sample as it was, and no sample changed by more than 1. -/
def Obligations.EncodeLeavesOtherSamples : Prop :=
  ∀ (s : State) (rest : List HostAction) (q : Nat), s.phase ≠ .scan → s.script = runLines .encode ++ rest →
    s.EncodeFits → s.groupSize.toNat = q * q →
    ∃ t, run (1024 + 8 * s.plen.toNat + 2) s = .next t ∧ t.err = 0#8 ∧ t.phase = .done ∧
      (∀ i, i < 1024 + 8 * s.plen.toNat → ∀ a, s.InTile q i a → odd (t.gmemAt a) = s.fullStream.getD i false) ∧
      (∀ i, 1024 + 8 * s.plen.toNat ≤ i → i < s.capacityAt q → ∀ a, s.InTile q i a → t.gmemAt a = s.gmemAt a) ∧
      (∀ a, (∀ i, i < s.capacityAt q → ¬ s.InTile q i a) → t.gmemAt a = s.gmemAt a) ∧
      (∀ a, (t.gmemAt a).toNat ≤ (s.gmemAt a).toNat + 1 ∧ (s.gmemAt a).toNat ≤ (t.gmemAt a).toNat + 1)

/-- R182, which the spec derives from R176: ENCODE's launch succeeds exactly when CHANNELS >= 1, the group size is
valid and `1024 + 8*PLEN <= T`. The largest payload for a grid is `(T - 1024) div 8` bytes. -/
def Obligations.EncodeSucceedsExactlyWhenItFits : Prop :=
  ∀ s t : State, exec .encode s = .next t →
    (t.err = 0#8 ↔ s.EncodeFits) ∧
    (1 ≤ s.channels.toNat → ValidGroupSize s.groupSize.toNat →
      (t.err = 0#8 ↔ 1024 ≤ s.capacityAt (isqrt s.groupSize.toNat) ∧
        s.plen.toNat ≤ (s.capacityAt (isqrt s.groupSize.toNat) - 1024) / 8))

/-! ## DECODE -/

/-- R201: the DECODE launch, its errors in their order and the start of its walk, for every group size `q*q`. -/
def Obligations.DecodeLaunchChecksThenStarts : Prop :=
  ∀ s : State,
    (s.channels.toNat = 0 → exec .decode s = .next { s with err := 6#8, phase := .done }) ∧
    (1 ≤ s.channels.toNat → (∀ q, 1 ≤ q → s.groupSize.toNat ≠ q * q) →
      exec .decode s = .next { s with err := 5#8, phase := .done }) ∧
    (∀ q, 1 ≤ s.channels.toNat → 1 ≤ q → s.groupSize.toNat = q * q →
      s.height.toNat / q * (s.width.toNat / q) < 1024 →
      exec .decode s = .next { s with
          stride := BitVec.ofNat 16 q, tiles := BitVec.ofNat 32 (s.height.toNat / q * (s.width.toNat / q)),
          err := 1#8, phase := .done }) ∧
    (∀ q, 1 ≤ s.channels.toNat → 1 ≤ q → s.groupSize.toNat = q * q →
      1024 ≤ s.height.toNat / q * (s.width.toNat / q) →
      ∃ t, exec .decode s = .next t ∧ t.stride.toNat = q ∧
        t.tiles.toNat = s.height.toNat / q * (s.width.toNat / q) ∧
        t = { s with
            stride := t.stride, tiles := t.tiles, row := 0#16, col := 0#16, bitcnt := 0#32, mode := .dec, err := 0#8,
            phase := .scan })

/-- R203 with R173: a DECODE tile step stores the bit of its tile (`u`), completes the header when that was bit 1023
(`v`), and then ends the walk or goes to the next tile. HeaderComplete and Finalise are R204 and R205. -/
def Obligations.DecodeTileStepCollectsOneBit : Prop :=
  ∀ s : State, s.SequencerMoves → s.mode = .dec → s.InGrid s.row.toNat s.col.toNat 0 → s.bitcnt.toNat + 1 < 2 ^ 32 →
    s.TileInGrid s.row.toNat s.col.toNat s.stride.toNat →
    ∃ u v t : State, step s = .next t ∧
      u.bitcnt.toNat = s.bitcnt.toNat + 1 ∧
      (s.bitcnt.toNat < 1024 → u.bbuf = s.bbuf ∧ ∀ j, j < 1024 → u.hdrAt j =
        if j = s.bitcnt.toNat then odd (s.grid s.row.toNat s.col.toNat 0) else s.hdrAt j) ∧
      (1024 ≤ s.bitcnt.toNat → u.hdr = s.hdr ∧ ∀ j, u.bbufAt j =
        if j = s.bitcnt.toNat - 1024 then odd (s.grid s.row.toNat s.col.toNat 0) else s.bbufAt j) ∧
      u = { s with hdr := u.hdr, bbuf := u.bbuf, bitcnt := u.bitcnt } ∧
      (s.bitcnt.toNat + 1 = 1024 → v = headerComplete u) ∧
      (s.bitcnt.toNat + 1 ≠ 1024 → v = u) ∧
      (v.phase = .done → t = v) ∧
      (v.phase ≠ .done → 1024 ≤ v.bitcnt.toNat → v.bitcnt.toNat = 1024 + v.len.toNat → t = finalise v) ∧
      (v.phase ≠ .done → ¬ (1024 ≤ v.bitcnt.toNat ∧ v.bitcnt.toNat = 1024 + v.len.toNat) →
        (s.col.toNat + 2 * s.stride.toNat ≤ s.width.toNat → t.row = s.row ∧
          t.col.toNat = s.col.toNat + s.stride.toNat) ∧
        (s.width.toNat < s.col.toNat + 2 * s.stride.toNat → t.row.toNat = s.row.toNat + s.stride.toNat ∧
          t.col = 0#16) ∧
        t = { v with row := t.row, col := t.col })

/-- R204 (and R205 for an empty payload): the DECODE tile step that collects stream bit 1023. The capacity comparison
is exact. Where it ends the walk the cursor stays, which in a walk that keeps the invariant is at `TilePos(1023)`. -/
def Obligations.DecodeHeaderCompletes : Prop :=
  ∀ (s : State) (b : Bit) (h : List Bit), s.SequencerMoves → s.mode = .dec → s.InGrid s.row.toNat s.col.toNat 0 →
    s.bitcnt.toNat = 1023 → b = odd (s.grid s.row.toNat s.col.toNat 0) →
    h = (List.range 1023).map s.hdrAt ++ [b] →
    (parseHeader h = none → ∃ t, step s = .next t ∧ t.hdrBits = h ∧
      t = { s with hdr := t.hdr, bitcnt := 1024#32, err := 3#8, phase := .done }) ∧
    (∀ l o m, parseHeader h = some (l, o, m) → s.tiles.toNat < 1024 + l → ∃ t, step s = .next t ∧ t.hdrBits = h ∧
      t.len.toNat = l ∧ (∀ j, j < 64 → t.optByte j = o.getD j 0#8) ∧ t.optlen.toNat = m ∧
      t = { s with
          hdr := t.hdr, bitcnt := 1024#32, len := t.len, opt := t.opt, optlen := t.optlen, err := 1#8, phase := .done }) ∧
    (∀ l o m, parseHeader h = some (l, o, m) → 1024 + l ≤ s.tiles.toNat → ∃ t, step s = .next t ∧ t.hdrBits = h ∧
      t.len.toNat = l ∧ (∀ j, j < 64 → t.optByte j = o.getD j 0#8) ∧ t.optlen.toNat = m ∧
      (l = 0 → t = { s with
          hdr := t.hdr, bitcnt := 1024#32, len := t.len, opt := t.opt, optlen := t.optlen, blen := 0#32, plen := 0#32,
          phase := .done }) ∧
      (l ≠ 0 →
        (s.col.toNat + 2 * s.stride.toNat ≤ s.width.toNat → t.row = s.row ∧
          t.col = BitVec.ofNat 16 (s.col.toNat + s.stride.toNat)) ∧
        (s.width.toNat < s.col.toNat + 2 * s.stride.toNat →
          t.row = BitVec.ofNat 16 (s.row.toNat + s.stride.toNat) ∧ t.col = 0#16) ∧
        t = { s with
          hdr := t.hdr, bitcnt := 1024#32, len := t.len, opt := t.opt, optlen := t.optlen, row := t.row,
          col := t.col })) ∧
    (s.Inv → (s.row.toNat, s.col.toNat) = s.tilePos 1023)

/-- R205: the DECODE tile step after which `BITCNT = 1024 + LEN`: `ceil8(LEN)` bytes, right-aligned. With LEN = 0 it
is the step that completes the header, and no cell of PBUF or BBUF is written. -/
def Obligations.DecodeFinalisesPayload : Prop :=
  (∀ s : State, s.SequencerMoves → s.mode = .dec → s.InGrid s.row.toNat s.col.toNat 0 → s.bitcnt.toNat + 1 < 2 ^ 32 →
    1024 ≤ s.bitcnt.toNat → s.bitcnt.toNat + 1 = 1024 + s.len.toNat →
    ∃ t, step s = .next t ∧
      t.bitcnt.toNat = s.bitcnt.toNat + 1 ∧
      (∀ j, t.bbufAt j =
        if j = s.bitcnt.toNat - 1024 then odd (s.grid s.row.toNat s.col.toNat 0) else s.bbufAt j) ∧
      t.blen.toNat = s.len.toNat ∧ t.plen.toNat = (s.len.toNat + 7) / 8 ∧
      (∀ j, j < (s.len.toNat + 7) / 8 → (t.pbufAt j).toNat =
        streamValue s.len.toNat t.bbufAt / 2 ^ (8 * ((s.len.toNat + 7) / 8 - 1 - j)) % 256) ∧
      (∀ j, (s.len.toNat + 7) / 8 ≤ j → t.pbufAt j = s.pbufAt j) ∧
      (s.Inv → (t.row.toNat, t.col.toNat) = s.tilePos (1023 + s.len.toNat)) ∧
      t = { s with
          bbuf := t.bbuf, bitcnt := t.bitcnt, blen := t.blen, plen := t.plen, pbuf := t.pbuf, phase := .done }) ∧
  (∀ (s : State) (o : List Byte) (m : Nat), s.SequencerMoves → s.mode = .dec → s.InGrid s.row.toNat s.col.toNat 0 →
    s.bitcnt.toNat = 1023 → 1024 ≤ s.tiles.toNat →
    parseHeader ((List.range 1023).map s.hdrAt ++ [odd (s.grid s.row.toNat s.col.toNat 0)]) = some (0, o, m) →
    ∃ t, step s = .next t ∧ t.phase = .done ∧ t.err = s.err ∧ t.blen = 0#32 ∧ t.plen = 0#32 ∧ t.pbuf = s.pbuf ∧
      t.bbuf = s.bbuf ∧ t.row = s.row ∧ t.col = s.col ∧ t.bitcnt = 1024#32 ∧
      (s.Inv → (t.row.toNat, t.col.toNat) = s.tilePos 1023))

/-- R206, which the spec derives from R201 and R203 to R205: DECODE, big step. From a state at rest, `cmd DECODE` then
`wait`, with `G(i)` the parity of tile `i`'s anchor. -/
def Obligations.DecodeRecoversStreamFromGrid : Prop :=
  ∀ (s : State) (rest : List HostAction), s.phase ≠ .scan → s.script = runLines .decode ++ rest →
    (s.channels.toNat = 0 →
      run 2 s = .next { s with script := rest, cmd := 0x02#8, err := 6#8, phase := .done }) ∧
    (1 ≤ s.channels.toNat → (∀ q, 1 ≤ q → s.groupSize.toNat ≠ q * q) →
      run 2 s = .next { s with script := rest, cmd := 0x02#8, err := 5#8, phase := .done }) ∧
    (∀ q, 1 ≤ s.channels.toNat → 1 ≤ q → s.groupSize.toNat = q * q → s.capacityAt q < 1024 →
      run 2 s = .next { s with
          script := rest, cmd := 0x02#8, err := 1#8, phase := .done, stride := BitVec.ofNat 16 q,
          tiles := BitVec.ofNat 32 (s.capacityAt q) }) ∧
    (∀ q, s.DecodeStarts → s.groupSize.toNat = q * q → parseHeader (s.tileBits q 0 1024) = none →
      ∃ t, run 1026 s = .next t ∧ t.stride.toNat = q ∧ t.tiles.toNat = s.capacityAt q ∧
        t.hdrBits = s.tileBits q 0 1024 ∧
        (t.row.toNat, t.col.toNat) = Machine.tilePos s.width.toNat q 1023 ∧
        t = { s with
            script := rest, cmd := 0x02#8, err := 3#8, phase := .done, mode := .dec, stride := t.stride,
            tiles := t.tiles, hdr := t.hdr, bitcnt := 1024#32, row := t.row, col := t.col }) ∧
    (∀ q l o m, s.DecodeStarts → s.groupSize.toNat = q * q → parseHeader (s.tileBits q 0 1024) = some (l, o, m) →
      s.capacityAt q < 1024 + l →
      ∃ t, run 1026 s = .next t ∧ t.stride.toNat = q ∧ t.tiles.toNat = s.capacityAt q ∧
        t.hdrBits = s.tileBits q 0 1024 ∧ t.len.toNat = l ∧ (∀ j, j < 64 → t.optByte j = o.getD j 0#8) ∧
        t.optlen.toNat = m ∧ (t.row.toNat, t.col.toNat) = Machine.tilePos s.width.toNat q 1023 ∧
        t = { s with
            script := rest, cmd := 0x02#8, err := 1#8, phase := .done, mode := .dec, stride := t.stride,
            tiles := t.tiles, hdr := t.hdr, len := t.len, opt := t.opt, optlen := t.optlen, bitcnt := 1024#32,
            row := t.row, col := t.col }) ∧
    (∀ q l o m, s.DecodeStarts → s.groupSize.toNat = q * q → parseHeader (s.tileBits q 0 1024) = some (l, o, m) →
      1024 + l ≤ s.capacityAt q →
      ∃ t, run (1024 + l + 2) s = .next t ∧ t.stride.toNat = q ∧ t.tiles.toNat = s.capacityAt q ∧
        t.hdrBits = s.tileBits q 0 1024 ∧ t.len.toNat = l ∧ (∀ j, j < 64 → t.optByte j = o.getD j 0#8) ∧
        t.optlen.toNat = m ∧ t.blen.toNat = l ∧ t.bitbuf l = s.tileBits q 1024 l ∧ t.plen.toNat = (l + 7) / 8 ∧
        t.payload ((l + 7) / 8) = bitsToBytesFix (s.tileBits q 1024 l) ∧
        (∀ j, (l + 7) / 8 ≤ j → t.pbufAt j = s.pbufAt j) ∧ (∀ j, l ≤ j → t.bbufAt j = s.bbufAt j) ∧
        t.bitcnt.toNat = 1024 + l ∧ (t.row.toNat, t.col.toNat) = Machine.tilePos s.width.toNat q (1023 + l) ∧
        t = { s with
            script := rest, cmd := 0x02#8, err := 0#8, phase := .done, mode := .dec, stride := t.stride,
            tiles := t.tiles, hdr := t.hdr, len := t.len, opt := t.opt, optlen := t.optlen, blen := t.blen,
            bbuf := t.bbuf, plen := t.plen, pbuf := t.pbuf, bitcnt := t.bitcnt, row := t.row, col := t.col })

/-- R207, which the spec derives from R114, R139, R155, R181 and R206: the round trip. What ENCODE hides, a DECODE of
a grid whose shape, group size and anchor samples are unchanged recovers, empty payloads and leading zero bytes
included. -/
def Obligations.DecodeRecoversEncodedPayload : Prop :=
  ∀ (s : State) (rest : List HostAction) (q : Nat), s.phase ≠ .scan → s.script = runLines .encode ++ rest →
    s.EncodeFits → s.groupSize.toNat = q * q →
    ∃ t, run (1024 + 8 * s.plen.toNat + 2) s = .next t ∧ t.err = 0#8 ∧ t.phase = .done ∧
      ∀ (u : State) (rest' : List HostAction), u.phase ≠ .scan → u.script = runLines .decode ++ rest' →
        u.height = t.height → u.width = t.width → u.channels = t.channels → u.groupSize = t.groupSize →
        (∀ i, i < 1024 + 8 * s.plen.toNat →
          u.grid (Machine.tilePos u.width.toNat q i).1 (Machine.tilePos u.width.toNat q i).2 0 =
            t.grid (Machine.tilePos u.width.toNat q i).1 (Machine.tilePos u.width.toNat q i).2 0) →
        ∃ v, run (1024 + 8 * s.plen.toNat + 2) u = .next v ∧ v.phase = .done ∧ v.err = 0#8 ∧ v.plen = s.plen ∧
          v.payload v.plen.toNat = s.payload s.plen.toNat ∧ v.len.toNat = 8 * s.plen.toNat ∧
          v.options = Config.optPlaceholder

/-- R156: DECODE reads channel 0 of a tile's top-left pixel and nothing else of the grid: a tile step on a grid that
agrees in the parity of that one sample does the same. -/
def Obligations.DecodeIgnoresRedundantSamples : Prop :=
  ∀ (s t : State) (g : Memory Byte), s.SequencerMoves → s.mode = .dec →
    odd (State.grid { s with gmem := g } s.row.toNat s.col.toNat 0) = odd (s.grid s.row.toNat s.col.toNat 0) →
    step s = .next t → t.gmem = s.gmem ∧ step { s with gmem := g } = .next { t with gmem := g }

/-! ## The invariant -/

/-- The invariant holds after reset. -/
def Obligations.InvariantHoldsAtReset : Prop := State.reset.Inv

/-- Every step keeps the invariant: canonical memories, the registers' ranges, the walk's cursor, and in IDLE the reset
values of CMD, ERR, MODE, BITR, STRIDE, BITCNT, TILES, OPTLEN and OPT, which only launches and tile steps write. -/
def Obligations.InvariantKeptByEveryStep : Prop := ∀ s t : State, s.Inv → step s = .next t → t.Inv

/-- R179, which the spec derives from R172, R173, R176, R178, R201 and R203: while PHASE = SCAN, `(ROW, COL) =
TilePos(BITCNT)` and `BITCNT < TILES`, after every step from a state with the invariant. -/
def Obligations.CursorFollowsBitCount : Prop :=
  ∀ s t : State, s.Inv → step s = .next t → t.phase = .scan →
    t.row.toNat = t.bitcnt.toNat / (t.width.toNat / t.stride.toNat) * t.stride.toNat ∧
    t.col.toNat = t.bitcnt.toNat % (t.width.toNat / t.stride.toNat) * t.stride.toNat ∧
    t.bitcnt.toNat < t.tiles.toNat

/-- From a state with the invariant a step stops only where the host itself names, at rest, a sample outside the grid
(R11), and no step is refused. In particular no walk faults. That such a host access faults is the model's choice (log
entry 8). -/
def Obligations.StepsStopOnlyOnUndefinedGridIndex : Prop :=
  ∀ s : State, s.Inv →
    (∃ t, step s = .next t) ∨
    (s.phase ≠ .scan ∧ step s = .fault .gridIndexOutsideGrid ∧ ∃ r c k rest, ¬ s.InGrid r c k ∧
      ((∃ v, s.script = .gw r c k v :: rest) ∨ s.script = .gr r c k :: rest))

/-- R63, which the spec derives from R172, R157, R158, R176 and R205: no command and no tile step of a walk writes a
GMEM cell outside the grid. -/
def Obligations.GmemWritesStayInGrid : Prop :=
  (∀ (i : Instr) (s t : State), exec i s = .next t →
    ∀ a, s.height.toNat * s.width.toNat * s.channels.toNat ≤ a → t.gmemAt a = s.gmemAt a) ∧
  (∀ s t : State, s.SequencerMoves → step s = .next t →
    ∀ a, s.height.toNat * s.width.toNat * s.channels.toNat ≤ a → t.gmemAt a = s.gmemAt a)

/-! ## The host and reset -/

/-- R41: read-only registers ignore a host write, a write keeps the low bits, a read has no effect on HIP. HDR is read
and written as the number its bits spell (log entry 6). -/
def Obligations.HostRegisterAccessAtRest : Prop :=
  ∀ (s : State) (r : Reg) (v : Nat) (rest : List HostAction), s.phase ≠ .scan →
    (s.script = .wr r v :: rest → r.readOnly = true → step s = .next { s with script := rest }) ∧
    (s.script = .wr r v :: rest → r.readOnly = false → r ≠ .cmd → ∃ t, step s = .next t ∧
      t.readReg r = v % 2 ^ r.bits ∧ (∀ r', r' ≠ r → t.readReg r' = s.readReg r') ∧
      t = { s with
          script := rest, height := t.height, width := t.width, channels := t.channels, groupSize := t.groupSize,
          row := t.row, col := t.col, len := t.len, plen := t.plen, blen := t.blen, hdr := t.hdr }) ∧
    (s.script = .rd r :: rest → step s = .next { s with script := rest, readLog := s.readReg r :: s.readLog }) ∧
    s.status.extractLsb' 3 5 = 0#5

/-- R223 with R71: at rest HIP does nothing of its own, and while PHASE = SCAN a host write to any register, CMD
included, or to any cell changes nothing, a register read returns the current value, and a cell read returns some
value and changes nothing of HIP. That the host's access takes a step of its own, and how its reads are recorded, is
the model's choice (log entries 4 and 5). -/
def Obligations.HostCannotDisturbWalk : Prop :=
  (∀ s : State, s.phase ≠ .scan → s.script = [] → step s = .next s) ∧
  (∀ (s : State) (rest : List HostAction), s.phase = .scan →
    (∀ r v, s.script = .wr r v :: rest → step s = .next { s with script := rest }) ∧
    (∀ r c k v, s.script = .gw r c k v :: rest → step s = .next { s with script := rest }) ∧
    (∀ a v, s.script = .gmw a v :: rest → step s = .next { s with script := rest }) ∧
    (∀ i v, s.script = .pw i v :: rest → step s = .next { s with script := rest }) ∧
    (∀ i b, s.script = .bw i b :: rest → step s = .next { s with script := rest }) ∧
    (∀ r, s.script = .rd r :: rest → step s = .next { s with script := rest, readLog := s.readReg r :: s.readLog }) ∧
    (∀ a, (s.script = a :: rest ∧ ((∃ r c k, a = .gr r c k) ∨ (∃ x, a = .gmr x) ∨ (∃ i, a = .pr i) ∨ ∃ i, a = .br i)) →
      ∃ v d, step s = .next { s with script := rest, readLog := v :: s.readLog, draws := d }))

/-- The host's accesses to the memories at rest: a write writes exactly its cell, every other cell of the memory as before,
and a read returns the cell's value (R66). That the host can also name a GMEM cell by its address (`gmw`, `gmr`) is DEDUCED
from R60 (log entry 9). -/
def Obligations.HostMemoryAccessAtRest : Prop :=
  ∀ (s : State) (rest : List HostAction), s.phase ≠ .scan →
    (∀ r c k v, s.script = .gw r c k v :: rest → s.InGrid r c k → ∃ t, step s = .next t ∧ t.grid r c k = v ∧
      (∀ r' c' k', s.InGrid r' c' k' → (r', c', k') ≠ (r, c, k) → t.grid r' c' k' = s.grid r' c' k') ∧
      (∀ a, a ≠ s.addr r c k → t.gmemAt a = s.gmemAt a) ∧
      t = { s with script := rest, gmem := t.gmem }) ∧
    (∀ r c k, s.script = .gr r c k :: rest → s.InGrid r c k →
      step s = .next { s with script := rest, readLog := (s.grid r c k).toNat :: s.readLog }) ∧
    (∀ x v, s.script = .gmw x v :: rest → ∃ t, step s = .next t ∧ t.gmemAt x.toNat = v ∧
      (∀ a, a ≠ x.toNat → t.gmemAt a = s.gmemAt a) ∧ t = { s with script := rest, gmem := t.gmem }) ∧
    (∀ x, s.script = .gmr x :: rest →
      step s = .next { s with script := rest, readLog := (s.gmemAt x.toNat).toNat :: s.readLog }) ∧
    (∀ i v, s.script = .pw i v :: rest → ∃ t, step s = .next t ∧ t.pbufAt i.toNat = v ∧
      (∀ j, j ≠ i.toNat → t.pbufAt j = s.pbufAt j) ∧ t = { s with script := rest, pbuf := t.pbuf }) ∧
    (∀ i, s.script = .pr i :: rest →
      step s = .next { s with script := rest, readLog := (s.pbufAt i.toNat).toNat :: s.readLog }) ∧
    (∀ i b, s.script = .bw i b :: rest → ∃ t, step s = .next t ∧ t.bbufAt i.toNat = b ∧
      (∀ j, j ≠ i.toNat → t.bbufAt j = s.bbufAt j) ∧ t = { s with script := rest, bbuf := t.bbuf }) ∧
    (∀ i, s.script = .br i :: rest →
      step s = .next { s with script := rest, readLog := (s.bbufAt i.toNat).toNat :: s.readLog })

/-- R260, R42: a reset in any phase sets every register to its reset value and launches nothing. What the host does
next is not part of HIP and stays (the model's choice, log entry 10). -/
def Obligations.ResetSetsRegisters : Prop :=
  ∀ (s : State) (rest : List HostAction), s.script = .reset :: rest → ∃ t, step s = .next t ∧
    t.cmd = 0x00#8 ∧ t.status = 0x00#8 ∧ t.phase = .idle ∧ t.mode = .enc ∧ t.err = 0#8 ∧ t.bitr = false ∧
    t.height = 0#16 ∧ t.width = 0#16 ∧ t.channels = 0#8 ∧ t.groupSize = 1#32 ∧ t.stride = 1#16 ∧ t.row = 0#16 ∧
    t.col = 0#16 ∧ t.bitcnt = 0#32 ∧ t.tiles = 0#32 ∧ t.len = 0#213 ∧ t.plen = 0#32 ∧ t.blen = 0#32 ∧ t.optlen = 0#7 ∧
    t.script = rest

/-- R24: ERR is not sticky, and who writes it. After any launch ERR holds that launch's own result, whatever ERR held
before. Otherwise only the DECODE tile step that completes the header writes it (and reset, to 0). -/
def Obligations.ErrIsNotSticky : Prop :=
  (∀ (i : Instr) (s : State) (e : BitVec 8), exec i { s with err := e } = exec i s) ∧
  (∀ (w : Word) (s : State) (e : BitVec 8), launch w { s with err := e } = launch w s) ∧
  (∀ (i : Instr) (s t : State), exec i s = .next t → t.err.toNat ≤ 7 ∧ (t.phase = .scan → t.err = 0#8)) ∧
  (∀ s t : State, step s = .next t → t.err ≠ s.err →
    (s.phase ≠ .scan ∧ ∃ v rest, s.script = .wr .cmd v :: rest) ∨
    (s.phase = .scan ∧ s.mode = .dec ∧ s.bitcnt.toNat = 1023) ∨
    (t.err = 0#8 ∧ ∃ rest, s.script = .reset :: rest)) ∧
  State.reset.err = 0#8

/-- R25: BITR is written by a GET_BIT that ends with ERR = 0 only (and by reset, to 0). -/
def Obligations.BitrWrittenByGetBitOnly : Prop :=
  (∀ s t : State, step s = .next t → t.bitr ≠ s.bitr →
    (s.phase ≠ .scan ∧ t.err = 0#8 ∧ t.bitr = odd (s.grid s.row.toNat s.col.toNat 0) ∧
      ∃ v rest, s.script = .wr .cmd v :: rest ∧ decode (BitVec.ofNat 8 v) = .ok .getBit) ∨
    (t.bitr = false ∧ ∃ rest, s.script = .reset :: rest)) ∧
  State.reset.bitr = false

/-- R28: STRIDE is written by an ENCODE, DECODE or PUT_BIT launch that finds GROUP_SIZE valid, with its root, and by
nothing else (but reset, to 1). A launch that ends with InvalidGroupSize leaves it. -/
def Obligations.StrideWrittenByValidLaunchOnly : Prop :=
  (∀ s t : State, step s = .next t → t.stride ≠ s.stride →
    (s.phase ≠ .scan ∧ 1 ≤ s.channels.toNat ∧ t.err ≠ 5#8 ∧ 1 ≤ t.stride.toNat ∧
      t.stride.toNat * t.stride.toNat = s.groupSize.toNat ∧
      ∃ v rest, s.script = .wr .cmd v :: rest ∧ (decode (BitVec.ofNat 8 v) = .ok .encode ∨
        decode (BitVec.ofNat 8 v) = .ok .decode ∨ ∃ f, decode (BitVec.ofNat 8 v) = .ok (.putBit f))) ∨
    (t.stride = 1#16 ∧ ∃ rest, s.script = .reset :: rest)) ∧
  (∀ (i : Instr) (s t : State) (q : Nat), (i = .encode ∨ i = .decode ∨ ∃ f, i = .putBit f) → exec i s = .next t →
    1 ≤ s.channels.toNat → 1 ≤ q → s.groupSize.toNat = q * q → t.stride.toNat = q) ∧
  State.reset.stride = 1#16

/-- R26, R27: HEIGHT, WIDTH, CHANNELS and GROUP_SIZE change by a host write at rest only (and by reset). -/
def Obligations.ShapeWrittenByHostOnly : Prop :=
  ∀ s t : State, step s = .next t →
    (t.height ≠ s.height ∨ t.width ≠ s.width ∨ t.channels ≠ s.channels ∨ t.groupSize ≠ s.groupSize) →
    (s.phase ≠ .scan ∧ ∃ r v rest, s.script = .wr r v :: rest ∧
      (r = .height ∨ r = .width ∨ r = .channels ∨ r = .groupSize)) ∨
    ∃ rest, s.script = .reset :: rest

/-! ## The tile walk as a whole -/

/-- R65 with R171, R172: the tiles of a walk at stride `t` are in the grid and cover every pixel of the first `(HEIGHT
div t)*t` rows and `(WIDTH div t)*t` columns once, and no other pixel. -/
def Obligations.TilesPartitionCoveredArea : Prop :=
  ∀ h w t r c : Nat, 1 ≤ t →
    (∀ i, i < capacity h w t → (Machine.tilePos w t i).1 + t ≤ h ∧ (Machine.tilePos w t i).2 + t ≤ w) ∧
    (r < h / t * t ∧ c < w / t * t ↔
      ∃ i, i < capacity h w t ∧ (Machine.tilePos w t i).1 ≤ r ∧ r < (Machine.tilePos w t i).1 + t ∧
        (Machine.tilePos w t i).2 ≤ c ∧ c < (Machine.tilePos w t i).2 + t) ∧
    (∀ i j, i < capacity h w t → j < capacity h w t →
      (Machine.tilePos w t i).1 ≤ r → r < (Machine.tilePos w t i).1 + t → (Machine.tilePos w t i).2 ≤ c →
      c < (Machine.tilePos w t i).2 + t → (Machine.tilePos w t j).1 ≤ r → r < (Machine.tilePos w t j).1 + t →
      (Machine.tilePos w t j).2 ≤ c → c < (Machine.tilePos w t j).2 + t → i = j)

/-- R174: a walk always ends. From a state with the invariant, a host that waits sees DONE after at most TILES -
BITCNT tile steps, with BITCNT risen by one in each. -/
def Obligations.WalkAlwaysEnds : Prop :=
  ∀ s : State, s.Inv → s.SequencerMoves → ∃ n t, n ≤ s.tiles.toNat - s.bitcnt.toNat ∧ run n s = .next t ∧
    t.phase = .done ∧ t.bitcnt.toNat = s.bitcnt.toNat + n ∧
    ∀ k, k < n → ∃ u, run k s = .next u ∧ u.phase = .scan ∧ u.bitcnt.toNat = s.bitcnt.toNat + k

/-! ## Reset during a walk -/

/-- R263, read as the exception to R262 (DEDUCED, log entry 10): a reset during a walk ends it between two tile steps, clears
BITCNT, and leaves every sample of the grid as it is. So after `k` tile steps of an ENCODE the grid then holds the first `k`
stream bits, tile by tile, and old values elsewhere. -/
def Obligations.ResetDuringWalkKeepsGrid : Prop :=
  (∀ (s : State) (rest : List HostAction), s.phase = .scan → s.script = .reset :: rest →
    ∃ t, step s = .next t ∧ t.phase = .idle ∧ t.bitcnt = 0#32 ∧
      ∀ a, a < s.height.toNat * s.width.toNat * s.channels.toNat → t.gmemAt a = s.gmemAt a) ∧
  (∀ (s : State) (rest host : List HostAction) (q k : Nat), s.phase ≠ .scan → s.script = runLines .encode ++ rest →
    s.EncodeFits → s.groupSize.toNat = q * q → k < 1024 + 8 * s.plen.toNat →
    ∃ u t, run (k + 1) s = .next u ∧ u.phase = .scan ∧ u.bitcnt.toNat = k ∧
      step { u with script := .reset :: host } = .next t ∧ t.phase = .idle ∧ t.bitcnt = 0#32 ∧
      (∀ i, i < k → ∀ a, s.InTile q i a → t.gmemAt a = setParity (s.gmemAt a) (s.fullStream.getD i false)) ∧
      (∀ a, a < s.height.toNat * s.width.toNat * s.channels.toNat → (∀ i, i < k → ¬ s.InTile q i a) →
        t.gmemAt a = s.gmemAt a))
end

