-- ==== Sys2Proof/Laws/State.lean ====
section
/-!
SUPPORT. One lemma per field of State per update, each true by `rfl`, so that no later proof unfolds a record update.
-/

namespace Sys2Proof.Machine.State


section succeed

variable (s : State)

@[simp] theorem succeed_cmd : (succeed s).cmd = s.cmd := rfl
@[simp] theorem succeed_phase : (succeed s).phase = .done := rfl
@[simp] theorem succeed_mode : (succeed s).mode = s.mode := rfl
@[simp] theorem succeed_err : (succeed s).err = 0#8 := rfl
@[simp] theorem succeed_bitr : (succeed s).bitr = s.bitr := rfl
@[simp] theorem succeed_height : (succeed s).height = s.height := rfl
@[simp] theorem succeed_width : (succeed s).width = s.width := rfl
@[simp] theorem succeed_channels : (succeed s).channels = s.channels := rfl
@[simp] theorem succeed_groupSize : (succeed s).groupSize = s.groupSize := rfl
@[simp] theorem succeed_stride : (succeed s).stride = s.stride := rfl
@[simp] theorem succeed_row : (succeed s).row = s.row := rfl
@[simp] theorem succeed_col : (succeed s).col = s.col := rfl
@[simp] theorem succeed_bitcnt : (succeed s).bitcnt = s.bitcnt := rfl
@[simp] theorem succeed_tiles : (succeed s).tiles = s.tiles := rfl
@[simp] theorem succeed_len : (succeed s).len = s.len := rfl
@[simp] theorem succeed_plen : (succeed s).plen = s.plen := rfl
@[simp] theorem succeed_blen : (succeed s).blen = s.blen := rfl
@[simp] theorem succeed_optlen : (succeed s).optlen = s.optlen := rfl
@[simp] theorem succeed_hdr : (succeed s).hdr = s.hdr := rfl
@[simp] theorem succeed_opt : (succeed s).opt = s.opt := rfl
@[simp] theorem succeed_gmem : (succeed s).gmem = s.gmem := rfl
@[simp] theorem succeed_pbuf : (succeed s).pbuf = s.pbuf := rfl
@[simp] theorem succeed_bbuf : (succeed s).bbuf = s.bbuf := rfl
@[simp] theorem succeed_epoch : (succeed s).epoch = s.epoch := rfl
@[simp] theorem succeed_kept : (succeed s).kept = s.kept := rfl
@[simp] theorem succeed_draws : (succeed s).draws = s.draws := rfl
@[simp] theorem succeed_script : (succeed s).script = s.script := rfl
@[simp] theorem succeed_readLog : (succeed s).readLog = s.readLog := rfl

end succeed

section raise

variable (e : ErrKind) (s : State)

@[simp] theorem raise_cmd : (raise e s).cmd = s.cmd := rfl
@[simp] theorem raise_phase : (raise e s).phase = .done := rfl
@[simp] theorem raise_mode : (raise e s).mode = s.mode := rfl
@[simp] theorem raise_err : (raise e s).err = e.code := rfl
@[simp] theorem raise_bitr : (raise e s).bitr = s.bitr := rfl
@[simp] theorem raise_height : (raise e s).height = s.height := rfl
@[simp] theorem raise_width : (raise e s).width = s.width := rfl
@[simp] theorem raise_channels : (raise e s).channels = s.channels := rfl
@[simp] theorem raise_groupSize : (raise e s).groupSize = s.groupSize := rfl
@[simp] theorem raise_stride : (raise e s).stride = s.stride := rfl
@[simp] theorem raise_row : (raise e s).row = s.row := rfl
@[simp] theorem raise_col : (raise e s).col = s.col := rfl
@[simp] theorem raise_bitcnt : (raise e s).bitcnt = s.bitcnt := rfl
@[simp] theorem raise_tiles : (raise e s).tiles = s.tiles := rfl
@[simp] theorem raise_len : (raise e s).len = s.len := rfl
@[simp] theorem raise_plen : (raise e s).plen = s.plen := rfl
@[simp] theorem raise_blen : (raise e s).blen = s.blen := rfl
@[simp] theorem raise_optlen : (raise e s).optlen = s.optlen := rfl
@[simp] theorem raise_hdr : (raise e s).hdr = s.hdr := rfl
@[simp] theorem raise_opt : (raise e s).opt = s.opt := rfl
@[simp] theorem raise_gmem : (raise e s).gmem = s.gmem := rfl
@[simp] theorem raise_pbuf : (raise e s).pbuf = s.pbuf := rfl
@[simp] theorem raise_bbuf : (raise e s).bbuf = s.bbuf := rfl
@[simp] theorem raise_epoch : (raise e s).epoch = s.epoch := rfl
@[simp] theorem raise_kept : (raise e s).kept = s.kept := rfl
@[simp] theorem raise_draws : (raise e s).draws = s.draws := rfl
@[simp] theorem raise_script : (raise e s).script = s.script := rfl
@[simp] theorem raise_readLog : (raise e s).readLog = s.readLog := rfl

end raise

section enterScan

variable (m : Mode) (s : State)

@[simp] theorem enterScan_cmd : (enterScan m s).cmd = s.cmd := rfl
@[simp] theorem enterScan_phase : (enterScan m s).phase = .scan := rfl
@[simp] theorem enterScan_mode : (enterScan m s).mode = m := rfl
@[simp] theorem enterScan_err : (enterScan m s).err = 0#8 := rfl
@[simp] theorem enterScan_bitr : (enterScan m s).bitr = s.bitr := rfl
@[simp] theorem enterScan_height : (enterScan m s).height = s.height := rfl
@[simp] theorem enterScan_width : (enterScan m s).width = s.width := rfl
@[simp] theorem enterScan_channels : (enterScan m s).channels = s.channels := rfl
@[simp] theorem enterScan_groupSize : (enterScan m s).groupSize = s.groupSize := rfl
@[simp] theorem enterScan_stride : (enterScan m s).stride = s.stride := rfl
@[simp] theorem enterScan_row : (enterScan m s).row = s.row := rfl
@[simp] theorem enterScan_col : (enterScan m s).col = s.col := rfl
@[simp] theorem enterScan_bitcnt : (enterScan m s).bitcnt = s.bitcnt := rfl
@[simp] theorem enterScan_tiles : (enterScan m s).tiles = s.tiles := rfl
@[simp] theorem enterScan_len : (enterScan m s).len = s.len := rfl
@[simp] theorem enterScan_plen : (enterScan m s).plen = s.plen := rfl
@[simp] theorem enterScan_blen : (enterScan m s).blen = s.blen := rfl
@[simp] theorem enterScan_optlen : (enterScan m s).optlen = s.optlen := rfl
@[simp] theorem enterScan_hdr : (enterScan m s).hdr = s.hdr := rfl
@[simp] theorem enterScan_opt : (enterScan m s).opt = s.opt := rfl
@[simp] theorem enterScan_gmem : (enterScan m s).gmem = s.gmem := rfl
@[simp] theorem enterScan_pbuf : (enterScan m s).pbuf = s.pbuf := rfl
@[simp] theorem enterScan_bbuf : (enterScan m s).bbuf = s.bbuf := rfl
@[simp] theorem enterScan_epoch : (enterScan m s).epoch = s.epoch := rfl
@[simp] theorem enterScan_kept : (enterScan m s).kept = s.kept := rfl
@[simp] theorem enterScan_draws : (enterScan m s).draws = s.draws := rfl
@[simp] theorem enterScan_script : (enterScan m s).script = s.script := rfl
@[simp] theorem enterScan_readLog : (enterScan m s).readLog = s.readLog := rfl

end enterScan

section setStride

variable (s : State) (t : Nat)

@[simp] theorem setStride_cmd : (s.setStride t).cmd = s.cmd := rfl
@[simp] theorem setStride_phase : (s.setStride t).phase = s.phase := rfl
@[simp] theorem setStride_mode : (s.setStride t).mode = s.mode := rfl
@[simp] theorem setStride_err : (s.setStride t).err = s.err := rfl
@[simp] theorem setStride_bitr : (s.setStride t).bitr = s.bitr := rfl
@[simp] theorem setStride_height : (s.setStride t).height = s.height := rfl
@[simp] theorem setStride_width : (s.setStride t).width = s.width := rfl
@[simp] theorem setStride_channels : (s.setStride t).channels = s.channels := rfl
@[simp] theorem setStride_groupSize : (s.setStride t).groupSize = s.groupSize := rfl
@[simp] theorem setStride_stride : (s.setStride t).stride = BitVec.ofNat 16 t := rfl
@[simp] theorem setStride_row : (s.setStride t).row = s.row := rfl
@[simp] theorem setStride_col : (s.setStride t).col = s.col := rfl
@[simp] theorem setStride_bitcnt : (s.setStride t).bitcnt = s.bitcnt := rfl
@[simp] theorem setStride_tiles : (s.setStride t).tiles = s.tiles := rfl
@[simp] theorem setStride_len : (s.setStride t).len = s.len := rfl
@[simp] theorem setStride_plen : (s.setStride t).plen = s.plen := rfl
@[simp] theorem setStride_blen : (s.setStride t).blen = s.blen := rfl
@[simp] theorem setStride_optlen : (s.setStride t).optlen = s.optlen := rfl
@[simp] theorem setStride_hdr : (s.setStride t).hdr = s.hdr := rfl
@[simp] theorem setStride_opt : (s.setStride t).opt = s.opt := rfl
@[simp] theorem setStride_gmem : (s.setStride t).gmem = s.gmem := rfl
@[simp] theorem setStride_pbuf : (s.setStride t).pbuf = s.pbuf := rfl
@[simp] theorem setStride_bbuf : (s.setStride t).bbuf = s.bbuf := rfl
@[simp] theorem setStride_epoch : (s.setStride t).epoch = s.epoch := rfl
@[simp] theorem setStride_kept : (s.setStride t).kept = s.kept := rfl
@[simp] theorem setStride_draws : (s.setStride t).draws = s.draws := rfl
@[simp] theorem setStride_script : (s.setStride t).script = s.script := rfl
@[simp] theorem setStride_readLog : (s.setStride t).readLog = s.readLog := rfl

end setStride

section setTiles

variable (s : State) (t : Nat)

@[simp] theorem setTiles_cmd : (s.setTiles t).cmd = s.cmd := rfl
@[simp] theorem setTiles_phase : (s.setTiles t).phase = s.phase := rfl
@[simp] theorem setTiles_mode : (s.setTiles t).mode = s.mode := rfl
@[simp] theorem setTiles_err : (s.setTiles t).err = s.err := rfl
@[simp] theorem setTiles_bitr : (s.setTiles t).bitr = s.bitr := rfl
@[simp] theorem setTiles_height : (s.setTiles t).height = s.height := rfl
@[simp] theorem setTiles_width : (s.setTiles t).width = s.width := rfl
@[simp] theorem setTiles_channels : (s.setTiles t).channels = s.channels := rfl
@[simp] theorem setTiles_groupSize : (s.setTiles t).groupSize = s.groupSize := rfl
@[simp] theorem setTiles_stride : (s.setTiles t).stride = s.stride := rfl
@[simp] theorem setTiles_row : (s.setTiles t).row = s.row := rfl
@[simp] theorem setTiles_col : (s.setTiles t).col = s.col := rfl
@[simp] theorem setTiles_bitcnt : (s.setTiles t).bitcnt = s.bitcnt := rfl
@[simp] theorem setTiles_tiles : (s.setTiles t).tiles = BitVec.ofNat 32 t := rfl
@[simp] theorem setTiles_len : (s.setTiles t).len = s.len := rfl
@[simp] theorem setTiles_plen : (s.setTiles t).plen = s.plen := rfl
@[simp] theorem setTiles_blen : (s.setTiles t).blen = s.blen := rfl
@[simp] theorem setTiles_optlen : (s.setTiles t).optlen = s.optlen := rfl
@[simp] theorem setTiles_hdr : (s.setTiles t).hdr = s.hdr := rfl
@[simp] theorem setTiles_opt : (s.setTiles t).opt = s.opt := rfl
@[simp] theorem setTiles_gmem : (s.setTiles t).gmem = s.gmem := rfl
@[simp] theorem setTiles_pbuf : (s.setTiles t).pbuf = s.pbuf := rfl
@[simp] theorem setTiles_bbuf : (s.setTiles t).bbuf = s.bbuf := rfl
@[simp] theorem setTiles_epoch : (s.setTiles t).epoch = s.epoch := rfl
@[simp] theorem setTiles_kept : (s.setTiles t).kept = s.kept := rfl
@[simp] theorem setTiles_draws : (s.setTiles t).draws = s.draws := rfl
@[simp] theorem setTiles_script : (s.setTiles t).script = s.script := rfl
@[simp] theorem setTiles_readLog : (s.setTiles t).readLog = s.readLog := rfl

end setTiles

section countBit

variable (s : State)

@[simp] theorem countBit_cmd : (s.countBit).cmd = s.cmd := rfl
@[simp] theorem countBit_phase : (s.countBit).phase = s.phase := rfl
@[simp] theorem countBit_mode : (s.countBit).mode = s.mode := rfl
@[simp] theorem countBit_err : (s.countBit).err = s.err := rfl
@[simp] theorem countBit_bitr : (s.countBit).bitr = s.bitr := rfl
@[simp] theorem countBit_height : (s.countBit).height = s.height := rfl
@[simp] theorem countBit_width : (s.countBit).width = s.width := rfl
@[simp] theorem countBit_channels : (s.countBit).channels = s.channels := rfl
@[simp] theorem countBit_groupSize : (s.countBit).groupSize = s.groupSize := rfl
@[simp] theorem countBit_stride : (s.countBit).stride = s.stride := rfl
@[simp] theorem countBit_row : (s.countBit).row = s.row := rfl
@[simp] theorem countBit_col : (s.countBit).col = s.col := rfl
@[simp] theorem countBit_bitcnt : (s.countBit).bitcnt = BitVec.ofNat 32 (s.bitcnt.toNat + 1) := rfl
@[simp] theorem countBit_tiles : (s.countBit).tiles = s.tiles := rfl
@[simp] theorem countBit_len : (s.countBit).len = s.len := rfl
@[simp] theorem countBit_plen : (s.countBit).plen = s.plen := rfl
@[simp] theorem countBit_blen : (s.countBit).blen = s.blen := rfl
@[simp] theorem countBit_optlen : (s.countBit).optlen = s.optlen := rfl
@[simp] theorem countBit_hdr : (s.countBit).hdr = s.hdr := rfl
@[simp] theorem countBit_opt : (s.countBit).opt = s.opt := rfl
@[simp] theorem countBit_gmem : (s.countBit).gmem = s.gmem := rfl
@[simp] theorem countBit_pbuf : (s.countBit).pbuf = s.pbuf := rfl
@[simp] theorem countBit_bbuf : (s.countBit).bbuf = s.bbuf := rfl
@[simp] theorem countBit_epoch : (s.countBit).epoch = s.epoch := rfl
@[simp] theorem countBit_kept : (s.countBit).kept = s.kept := rfl
@[simp] theorem countBit_draws : (s.countBit).draws = s.draws := rfl
@[simp] theorem countBit_script : (s.countBit).script = s.script := rfl
@[simp] theorem countBit_readLog : (s.countBit).readLog = s.readLog := rfl

end countBit

section advance

variable (s : State)

@[simp] theorem advance_cmd : (s.advance).cmd = s.cmd := rfl
@[simp] theorem advance_phase : (s.advance).phase = s.phase := rfl
@[simp] theorem advance_mode : (s.advance).mode = s.mode := rfl
@[simp] theorem advance_err : (s.advance).err = s.err := rfl
@[simp] theorem advance_bitr : (s.advance).bitr = s.bitr := rfl
@[simp] theorem advance_height : (s.advance).height = s.height := rfl
@[simp] theorem advance_width : (s.advance).width = s.width := rfl
@[simp] theorem advance_channels : (s.advance).channels = s.channels := rfl
@[simp] theorem advance_groupSize : (s.advance).groupSize = s.groupSize := rfl
@[simp] theorem advance_stride : (s.advance).stride = s.stride := rfl
@[simp] theorem advance_row : (s.advance).row = BitVec.ofNat 16 (nextTile s.width.toNat s.stride.toNat s.row.toNat s.col.toNat).1 := rfl
@[simp] theorem advance_col : (s.advance).col = BitVec.ofNat 16 (nextTile s.width.toNat s.stride.toNat s.row.toNat s.col.toNat).2 := rfl
@[simp] theorem advance_bitcnt : (s.advance).bitcnt = s.bitcnt := rfl
@[simp] theorem advance_tiles : (s.advance).tiles = s.tiles := rfl
@[simp] theorem advance_len : (s.advance).len = s.len := rfl
@[simp] theorem advance_plen : (s.advance).plen = s.plen := rfl
@[simp] theorem advance_blen : (s.advance).blen = s.blen := rfl
@[simp] theorem advance_optlen : (s.advance).optlen = s.optlen := rfl
@[simp] theorem advance_hdr : (s.advance).hdr = s.hdr := rfl
@[simp] theorem advance_opt : (s.advance).opt = s.opt := rfl
@[simp] theorem advance_gmem : (s.advance).gmem = s.gmem := rfl
@[simp] theorem advance_pbuf : (s.advance).pbuf = s.pbuf := rfl
@[simp] theorem advance_bbuf : (s.advance).bbuf = s.bbuf := rfl
@[simp] theorem advance_epoch : (s.advance).epoch = s.epoch := rfl
@[simp] theorem advance_kept : (s.advance).kept = s.kept := rfl
@[simp] theorem advance_draws : (s.advance).draws = s.draws := rfl
@[simp] theorem advance_script : (s.advance).script = s.script := rfl
@[simp] theorem advance_readLog : (s.advance).readLog = s.readLog := rfl

end advance

section setGmem

variable (s : State) (a : Nat) (v : Byte)

@[simp] theorem setGmem_cmd : (s.setGmem a v).cmd = s.cmd := rfl
@[simp] theorem setGmem_phase : (s.setGmem a v).phase = s.phase := rfl
@[simp] theorem setGmem_mode : (s.setGmem a v).mode = s.mode := rfl
@[simp] theorem setGmem_err : (s.setGmem a v).err = s.err := rfl
@[simp] theorem setGmem_bitr : (s.setGmem a v).bitr = s.bitr := rfl
@[simp] theorem setGmem_height : (s.setGmem a v).height = s.height := rfl
@[simp] theorem setGmem_width : (s.setGmem a v).width = s.width := rfl
@[simp] theorem setGmem_channels : (s.setGmem a v).channels = s.channels := rfl
@[simp] theorem setGmem_groupSize : (s.setGmem a v).groupSize = s.groupSize := rfl
@[simp] theorem setGmem_stride : (s.setGmem a v).stride = s.stride := rfl
@[simp] theorem setGmem_row : (s.setGmem a v).row = s.row := rfl
@[simp] theorem setGmem_col : (s.setGmem a v).col = s.col := rfl
@[simp] theorem setGmem_bitcnt : (s.setGmem a v).bitcnt = s.bitcnt := rfl
@[simp] theorem setGmem_tiles : (s.setGmem a v).tiles = s.tiles := rfl
@[simp] theorem setGmem_len : (s.setGmem a v).len = s.len := rfl
@[simp] theorem setGmem_plen : (s.setGmem a v).plen = s.plen := rfl
@[simp] theorem setGmem_blen : (s.setGmem a v).blen = s.blen := rfl
@[simp] theorem setGmem_optlen : (s.setGmem a v).optlen = s.optlen := rfl
@[simp] theorem setGmem_hdr : (s.setGmem a v).hdr = s.hdr := rfl
@[simp] theorem setGmem_opt : (s.setGmem a v).opt = s.opt := rfl
@[simp] theorem setGmem_gmem : (s.setGmem a v).gmem = s.gmem.write a v := rfl
@[simp] theorem setGmem_pbuf : (s.setGmem a v).pbuf = s.pbuf := rfl
@[simp] theorem setGmem_bbuf : (s.setGmem a v).bbuf = s.bbuf := rfl
@[simp] theorem setGmem_epoch : (s.setGmem a v).epoch = s.epoch := rfl
@[simp] theorem setGmem_kept : (s.setGmem a v).kept = s.kept := rfl
@[simp] theorem setGmem_draws : (s.setGmem a v).draws = s.draws := rfl
@[simp] theorem setGmem_script : (s.setGmem a v).script = s.script := rfl
@[simp] theorem setGmem_readLog : (s.setGmem a v).readLog = s.readLog := rfl

end setGmem

section setPayload

variable (s : State) (vs : List Byte)

@[simp] theorem setPayload_cmd : (s.setPayload vs).cmd = s.cmd := rfl
@[simp] theorem setPayload_phase : (s.setPayload vs).phase = s.phase := rfl
@[simp] theorem setPayload_mode : (s.setPayload vs).mode = s.mode := rfl
@[simp] theorem setPayload_err : (s.setPayload vs).err = s.err := rfl
@[simp] theorem setPayload_bitr : (s.setPayload vs).bitr = s.bitr := rfl
@[simp] theorem setPayload_height : (s.setPayload vs).height = s.height := rfl
@[simp] theorem setPayload_width : (s.setPayload vs).width = s.width := rfl
@[simp] theorem setPayload_channels : (s.setPayload vs).channels = s.channels := rfl
@[simp] theorem setPayload_groupSize : (s.setPayload vs).groupSize = s.groupSize := rfl
@[simp] theorem setPayload_stride : (s.setPayload vs).stride = s.stride := rfl
@[simp] theorem setPayload_row : (s.setPayload vs).row = s.row := rfl
@[simp] theorem setPayload_col : (s.setPayload vs).col = s.col := rfl
@[simp] theorem setPayload_bitcnt : (s.setPayload vs).bitcnt = s.bitcnt := rfl
@[simp] theorem setPayload_tiles : (s.setPayload vs).tiles = s.tiles := rfl
@[simp] theorem setPayload_len : (s.setPayload vs).len = s.len := rfl
@[simp] theorem setPayload_plen : (s.setPayload vs).plen = s.plen := rfl
@[simp] theorem setPayload_blen : (s.setPayload vs).blen = s.blen := rfl
@[simp] theorem setPayload_optlen : (s.setPayload vs).optlen = s.optlen := rfl
@[simp] theorem setPayload_hdr : (s.setPayload vs).hdr = s.hdr := rfl
@[simp] theorem setPayload_opt : (s.setPayload vs).opt = s.opt := rfl
@[simp] theorem setPayload_gmem : (s.setPayload vs).gmem = s.gmem := rfl
@[simp] theorem setPayload_pbuf : (s.setPayload vs).pbuf = s.pbuf.writeRun 0 vs := rfl
@[simp] theorem setPayload_bbuf : (s.setPayload vs).bbuf = s.bbuf := rfl
@[simp] theorem setPayload_epoch : (s.setPayload vs).epoch = s.epoch := rfl
@[simp] theorem setPayload_kept : (s.setPayload vs).kept = s.kept := rfl
@[simp] theorem setPayload_draws : (s.setPayload vs).draws = s.draws := rfl
@[simp] theorem setPayload_script : (s.setPayload vs).script = s.script := rfl
@[simp] theorem setPayload_readLog : (s.setPayload vs).readLog = s.readLog := rfl

end setPayload

section setBitbuf

variable (s : State) (bs : List Bit)

@[simp] theorem setBitbuf_cmd : (s.setBitbuf bs).cmd = s.cmd := rfl
@[simp] theorem setBitbuf_phase : (s.setBitbuf bs).phase = s.phase := rfl
@[simp] theorem setBitbuf_mode : (s.setBitbuf bs).mode = s.mode := rfl
@[simp] theorem setBitbuf_err : (s.setBitbuf bs).err = s.err := rfl
@[simp] theorem setBitbuf_bitr : (s.setBitbuf bs).bitr = s.bitr := rfl
@[simp] theorem setBitbuf_height : (s.setBitbuf bs).height = s.height := rfl
@[simp] theorem setBitbuf_width : (s.setBitbuf bs).width = s.width := rfl
@[simp] theorem setBitbuf_channels : (s.setBitbuf bs).channels = s.channels := rfl
@[simp] theorem setBitbuf_groupSize : (s.setBitbuf bs).groupSize = s.groupSize := rfl
@[simp] theorem setBitbuf_stride : (s.setBitbuf bs).stride = s.stride := rfl
@[simp] theorem setBitbuf_row : (s.setBitbuf bs).row = s.row := rfl
@[simp] theorem setBitbuf_col : (s.setBitbuf bs).col = s.col := rfl
@[simp] theorem setBitbuf_bitcnt : (s.setBitbuf bs).bitcnt = s.bitcnt := rfl
@[simp] theorem setBitbuf_tiles : (s.setBitbuf bs).tiles = s.tiles := rfl
@[simp] theorem setBitbuf_len : (s.setBitbuf bs).len = s.len := rfl
@[simp] theorem setBitbuf_plen : (s.setBitbuf bs).plen = s.plen := rfl
@[simp] theorem setBitbuf_blen : (s.setBitbuf bs).blen = s.blen := rfl
@[simp] theorem setBitbuf_optlen : (s.setBitbuf bs).optlen = s.optlen := rfl
@[simp] theorem setBitbuf_hdr : (s.setBitbuf bs).hdr = s.hdr := rfl
@[simp] theorem setBitbuf_opt : (s.setBitbuf bs).opt = s.opt := rfl
@[simp] theorem setBitbuf_gmem : (s.setBitbuf bs).gmem = s.gmem := rfl
@[simp] theorem setBitbuf_pbuf : (s.setBitbuf bs).pbuf = s.pbuf := rfl
@[simp] theorem setBitbuf_bbuf : (s.setBitbuf bs).bbuf = s.bbuf.writeRun 0 bs := rfl
@[simp] theorem setBitbuf_epoch : (s.setBitbuf bs).epoch = s.epoch := rfl
@[simp] theorem setBitbuf_kept : (s.setBitbuf bs).kept = s.kept := rfl
@[simp] theorem setBitbuf_draws : (s.setBitbuf bs).draws = s.draws := rfl
@[simp] theorem setBitbuf_script : (s.setBitbuf bs).script = s.script := rfl
@[simp] theorem setBitbuf_readLog : (s.setBitbuf bs).readLog = s.readLog := rfl

end setBitbuf

section setBbuf

variable (s : State) (i : Nat) (b : Bit)

@[simp] theorem setBbuf_cmd : (s.setBbuf i b).cmd = s.cmd := rfl
@[simp] theorem setBbuf_phase : (s.setBbuf i b).phase = s.phase := rfl
@[simp] theorem setBbuf_mode : (s.setBbuf i b).mode = s.mode := rfl
@[simp] theorem setBbuf_err : (s.setBbuf i b).err = s.err := rfl
@[simp] theorem setBbuf_bitr : (s.setBbuf i b).bitr = s.bitr := rfl
@[simp] theorem setBbuf_height : (s.setBbuf i b).height = s.height := rfl
@[simp] theorem setBbuf_width : (s.setBbuf i b).width = s.width := rfl
@[simp] theorem setBbuf_channels : (s.setBbuf i b).channels = s.channels := rfl
@[simp] theorem setBbuf_groupSize : (s.setBbuf i b).groupSize = s.groupSize := rfl
@[simp] theorem setBbuf_stride : (s.setBbuf i b).stride = s.stride := rfl
@[simp] theorem setBbuf_row : (s.setBbuf i b).row = s.row := rfl
@[simp] theorem setBbuf_col : (s.setBbuf i b).col = s.col := rfl
@[simp] theorem setBbuf_bitcnt : (s.setBbuf i b).bitcnt = s.bitcnt := rfl
@[simp] theorem setBbuf_tiles : (s.setBbuf i b).tiles = s.tiles := rfl
@[simp] theorem setBbuf_len : (s.setBbuf i b).len = s.len := rfl
@[simp] theorem setBbuf_plen : (s.setBbuf i b).plen = s.plen := rfl
@[simp] theorem setBbuf_blen : (s.setBbuf i b).blen = s.blen := rfl
@[simp] theorem setBbuf_optlen : (s.setBbuf i b).optlen = s.optlen := rfl
@[simp] theorem setBbuf_hdr : (s.setBbuf i b).hdr = s.hdr := rfl
@[simp] theorem setBbuf_opt : (s.setBbuf i b).opt = s.opt := rfl
@[simp] theorem setBbuf_gmem : (s.setBbuf i b).gmem = s.gmem := rfl
@[simp] theorem setBbuf_pbuf : (s.setBbuf i b).pbuf = s.pbuf := rfl
@[simp] theorem setBbuf_bbuf : (s.setBbuf i b).bbuf = s.bbuf.write i b := rfl
@[simp] theorem setBbuf_epoch : (s.setBbuf i b).epoch = s.epoch := rfl
@[simp] theorem setBbuf_kept : (s.setBbuf i b).kept = s.kept := rfl
@[simp] theorem setBbuf_draws : (s.setBbuf i b).draws = s.draws := rfl
@[simp] theorem setBbuf_script : (s.setBbuf i b).script = s.script := rfl
@[simp] theorem setBbuf_readLog : (s.setBbuf i b).readLog = s.readLog := rfl

end setBbuf

section setHdr

variable (s : State) (i : Nat) (b : Bit)

@[simp] theorem setHdr_cmd : (s.setHdr i b).cmd = s.cmd := rfl
@[simp] theorem setHdr_phase : (s.setHdr i b).phase = s.phase := rfl
@[simp] theorem setHdr_mode : (s.setHdr i b).mode = s.mode := rfl
@[simp] theorem setHdr_err : (s.setHdr i b).err = s.err := rfl
@[simp] theorem setHdr_bitr : (s.setHdr i b).bitr = s.bitr := rfl
@[simp] theorem setHdr_height : (s.setHdr i b).height = s.height := rfl
@[simp] theorem setHdr_width : (s.setHdr i b).width = s.width := rfl
@[simp] theorem setHdr_channels : (s.setHdr i b).channels = s.channels := rfl
@[simp] theorem setHdr_groupSize : (s.setHdr i b).groupSize = s.groupSize := rfl
@[simp] theorem setHdr_stride : (s.setHdr i b).stride = s.stride := rfl
@[simp] theorem setHdr_row : (s.setHdr i b).row = s.row := rfl
@[simp] theorem setHdr_col : (s.setHdr i b).col = s.col := rfl
@[simp] theorem setHdr_bitcnt : (s.setHdr i b).bitcnt = s.bitcnt := rfl
@[simp] theorem setHdr_tiles : (s.setHdr i b).tiles = s.tiles := rfl
@[simp] theorem setHdr_len : (s.setHdr i b).len = s.len := rfl
@[simp] theorem setHdr_plen : (s.setHdr i b).plen = s.plen := rfl
@[simp] theorem setHdr_blen : (s.setHdr i b).blen = s.blen := rfl
@[simp] theorem setHdr_optlen : (s.setHdr i b).optlen = s.optlen := rfl
@[simp] theorem setHdr_hdr : (s.setHdr i b).hdr = setHdrBit s.hdr i b := rfl
@[simp] theorem setHdr_opt : (s.setHdr i b).opt = s.opt := rfl
@[simp] theorem setHdr_gmem : (s.setHdr i b).gmem = s.gmem := rfl
@[simp] theorem setHdr_pbuf : (s.setHdr i b).pbuf = s.pbuf := rfl
@[simp] theorem setHdr_bbuf : (s.setHdr i b).bbuf = s.bbuf := rfl
@[simp] theorem setHdr_epoch : (s.setHdr i b).epoch = s.epoch := rfl
@[simp] theorem setHdr_kept : (s.setHdr i b).kept = s.kept := rfl
@[simp] theorem setHdr_draws : (s.setHdr i b).draws = s.draws := rfl
@[simp] theorem setHdr_script : (s.setHdr i b).script = s.script := rfl
@[simp] theorem setHdr_readLog : (s.setHdr i b).readLog = s.readLog := rfl

end setHdr

section setParsed

variable (s : State) (l : Nat) (o : List Byte) (m : Nat)

@[simp] theorem setParsed_cmd : (s.setParsed l o m).cmd = s.cmd := rfl
@[simp] theorem setParsed_phase : (s.setParsed l o m).phase = s.phase := rfl
@[simp] theorem setParsed_mode : (s.setParsed l o m).mode = s.mode := rfl
@[simp] theorem setParsed_err : (s.setParsed l o m).err = s.err := rfl
@[simp] theorem setParsed_bitr : (s.setParsed l o m).bitr = s.bitr := rfl
@[simp] theorem setParsed_height : (s.setParsed l o m).height = s.height := rfl
@[simp] theorem setParsed_width : (s.setParsed l o m).width = s.width := rfl
@[simp] theorem setParsed_channels : (s.setParsed l o m).channels = s.channels := rfl
@[simp] theorem setParsed_groupSize : (s.setParsed l o m).groupSize = s.groupSize := rfl
@[simp] theorem setParsed_stride : (s.setParsed l o m).stride = s.stride := rfl
@[simp] theorem setParsed_row : (s.setParsed l o m).row = s.row := rfl
@[simp] theorem setParsed_col : (s.setParsed l o m).col = s.col := rfl
@[simp] theorem setParsed_bitcnt : (s.setParsed l o m).bitcnt = s.bitcnt := rfl
@[simp] theorem setParsed_tiles : (s.setParsed l o m).tiles = s.tiles := rfl
@[simp] theorem setParsed_len : (s.setParsed l o m).len = BitVec.ofNat 213 l := rfl
@[simp] theorem setParsed_plen : (s.setParsed l o m).plen = s.plen := rfl
@[simp] theorem setParsed_blen : (s.setParsed l o m).blen = s.blen := rfl
@[simp] theorem setParsed_optlen : (s.setParsed l o m).optlen = BitVec.ofNat 7 m := rfl
@[simp] theorem setParsed_hdr : (s.setParsed l o m).hdr = s.hdr := rfl
@[simp] theorem setParsed_opt : (s.setParsed l o m).opt = optOfBytes o := rfl
@[simp] theorem setParsed_gmem : (s.setParsed l o m).gmem = s.gmem := rfl
@[simp] theorem setParsed_pbuf : (s.setParsed l o m).pbuf = s.pbuf := rfl
@[simp] theorem setParsed_bbuf : (s.setParsed l o m).bbuf = s.bbuf := rfl
@[simp] theorem setParsed_epoch : (s.setParsed l o m).epoch = s.epoch := rfl
@[simp] theorem setParsed_kept : (s.setParsed l o m).kept = s.kept := rfl
@[simp] theorem setParsed_draws : (s.setParsed l o m).draws = s.draws := rfl
@[simp] theorem setParsed_script : (s.setParsed l o m).script = s.script := rfl
@[simp] theorem setParsed_readLog : (s.setParsed l o m).readLog = s.readLog := rfl

end setParsed

section storePayload

variable (s : State) (bs : List Byte)

@[simp] theorem storePayload_cmd : (s.storePayload bs).cmd = s.cmd := rfl
@[simp] theorem storePayload_phase : (s.storePayload bs).phase = s.phase := rfl
@[simp] theorem storePayload_mode : (s.storePayload bs).mode = s.mode := rfl
@[simp] theorem storePayload_err : (s.storePayload bs).err = s.err := rfl
@[simp] theorem storePayload_bitr : (s.storePayload bs).bitr = s.bitr := rfl
@[simp] theorem storePayload_height : (s.storePayload bs).height = s.height := rfl
@[simp] theorem storePayload_width : (s.storePayload bs).width = s.width := rfl
@[simp] theorem storePayload_channels : (s.storePayload bs).channels = s.channels := rfl
@[simp] theorem storePayload_groupSize : (s.storePayload bs).groupSize = s.groupSize := rfl
@[simp] theorem storePayload_stride : (s.storePayload bs).stride = s.stride := rfl
@[simp] theorem storePayload_row : (s.storePayload bs).row = s.row := rfl
@[simp] theorem storePayload_col : (s.storePayload bs).col = s.col := rfl
@[simp] theorem storePayload_bitcnt : (s.storePayload bs).bitcnt = s.bitcnt := rfl
@[simp] theorem storePayload_tiles : (s.storePayload bs).tiles = s.tiles := rfl
@[simp] theorem storePayload_len : (s.storePayload bs).len = s.len := rfl
@[simp] theorem storePayload_plen : (s.storePayload bs).plen = BitVec.ofNat 32 bs.length := rfl
@[simp] theorem storePayload_blen : (s.storePayload bs).blen = s.blen := rfl
@[simp] theorem storePayload_optlen : (s.storePayload bs).optlen = s.optlen := rfl
@[simp] theorem storePayload_hdr : (s.storePayload bs).hdr = s.hdr := rfl
@[simp] theorem storePayload_opt : (s.storePayload bs).opt = s.opt := rfl
@[simp] theorem storePayload_gmem : (s.storePayload bs).gmem = s.gmem := rfl
@[simp] theorem storePayload_pbuf : (s.storePayload bs).pbuf = s.pbuf.writeRun 0 bs := rfl
@[simp] theorem storePayload_bbuf : (s.storePayload bs).bbuf = s.bbuf := rfl
@[simp] theorem storePayload_epoch : (s.storePayload bs).epoch = s.epoch := rfl
@[simp] theorem storePayload_kept : (s.storePayload bs).kept = s.kept := rfl
@[simp] theorem storePayload_draws : (s.storePayload bs).draws = s.draws := rfl
@[simp] theorem storePayload_script : (s.storePayload bs).script = s.script := rfl
@[simp] theorem storePayload_readLog : (s.storePayload bs).readLog = s.readLog := rfl

end storePayload

section returns

variable (s : State) (v : Nat)

@[simp] theorem returns_cmd : (s.returns v).cmd = s.cmd := rfl
@[simp] theorem returns_phase : (s.returns v).phase = s.phase := rfl
@[simp] theorem returns_mode : (s.returns v).mode = s.mode := rfl
@[simp] theorem returns_err : (s.returns v).err = s.err := rfl
@[simp] theorem returns_bitr : (s.returns v).bitr = s.bitr := rfl
@[simp] theorem returns_height : (s.returns v).height = s.height := rfl
@[simp] theorem returns_width : (s.returns v).width = s.width := rfl
@[simp] theorem returns_channels : (s.returns v).channels = s.channels := rfl
@[simp] theorem returns_groupSize : (s.returns v).groupSize = s.groupSize := rfl
@[simp] theorem returns_stride : (s.returns v).stride = s.stride := rfl
@[simp] theorem returns_row : (s.returns v).row = s.row := rfl
@[simp] theorem returns_col : (s.returns v).col = s.col := rfl
@[simp] theorem returns_bitcnt : (s.returns v).bitcnt = s.bitcnt := rfl
@[simp] theorem returns_tiles : (s.returns v).tiles = s.tiles := rfl
@[simp] theorem returns_len : (s.returns v).len = s.len := rfl
@[simp] theorem returns_plen : (s.returns v).plen = s.plen := rfl
@[simp] theorem returns_blen : (s.returns v).blen = s.blen := rfl
@[simp] theorem returns_optlen : (s.returns v).optlen = s.optlen := rfl
@[simp] theorem returns_hdr : (s.returns v).hdr = s.hdr := rfl
@[simp] theorem returns_opt : (s.returns v).opt = s.opt := rfl
@[simp] theorem returns_gmem : (s.returns v).gmem = s.gmem := rfl
@[simp] theorem returns_pbuf : (s.returns v).pbuf = s.pbuf := rfl
@[simp] theorem returns_bbuf : (s.returns v).bbuf = s.bbuf := rfl
@[simp] theorem returns_epoch : (s.returns v).epoch = s.epoch := rfl
@[simp] theorem returns_kept : (s.returns v).kept = s.kept := rfl
@[simp] theorem returns_draws : (s.returns v).draws = s.draws := rfl
@[simp] theorem returns_script : (s.returns v).script = s.script := rfl
@[simp] theorem returns_readLog : (s.returns v).readLog = v :: s.readLog := rfl

end returns

section resetEvent

variable (s : State)

/-- What a reset event leaves besides the reset values of R42: of a walk it ends, the grid (R263). -/
theorem resetEvent_eq : s.resetEvent =
    { State.resetWith (s.epoch + 1) s.draws s.script s.readLog with
      gmem := s.resetEvent.gmem, kept := s.resetEvent.kept } := by
  unfold resetEvent keepGrid
  cases s.phase <;> rfl

@[simp] theorem resetEvent_cmd : s.resetEvent.cmd = 0x00#8 := by rw [resetEvent_eq]; rfl
@[simp] theorem resetEvent_phase : s.resetEvent.phase = .idle := by rw [resetEvent_eq]; rfl
@[simp] theorem resetEvent_mode : s.resetEvent.mode = .enc := by rw [resetEvent_eq]; rfl
@[simp] theorem resetEvent_err : s.resetEvent.err = 0#8 := by rw [resetEvent_eq]; rfl
@[simp] theorem resetEvent_bitr : s.resetEvent.bitr = false := by rw [resetEvent_eq]; rfl
@[simp] theorem resetEvent_height : s.resetEvent.height = 0#16 := by rw [resetEvent_eq]; rfl
@[simp] theorem resetEvent_width : s.resetEvent.width = 0#16 := by rw [resetEvent_eq]; rfl
@[simp] theorem resetEvent_channels : s.resetEvent.channels = 0#8 := by rw [resetEvent_eq]; rfl
@[simp] theorem resetEvent_groupSize : s.resetEvent.groupSize = 1#32 := by rw [resetEvent_eq]; rfl
@[simp] theorem resetEvent_stride : s.resetEvent.stride = 1#16 := by rw [resetEvent_eq]; rfl
@[simp] theorem resetEvent_row : s.resetEvent.row = 0#16 := by rw [resetEvent_eq]; rfl
@[simp] theorem resetEvent_col : s.resetEvent.col = 0#16 := by rw [resetEvent_eq]; rfl
@[simp] theorem resetEvent_bitcnt : s.resetEvent.bitcnt = 0#32 := by rw [resetEvent_eq]; rfl
@[simp] theorem resetEvent_tiles : s.resetEvent.tiles = 0#32 := by rw [resetEvent_eq]; rfl
@[simp] theorem resetEvent_len : s.resetEvent.len = 0#213 := by rw [resetEvent_eq]; rfl
@[simp] theorem resetEvent_plen : s.resetEvent.plen = 0#32 := by rw [resetEvent_eq]; rfl
@[simp] theorem resetEvent_blen : s.resetEvent.blen = 0#32 := by rw [resetEvent_eq]; rfl
@[simp] theorem resetEvent_optlen : s.resetEvent.optlen = 0#7 := by rw [resetEvent_eq]; rfl
@[simp] theorem resetEvent_hdr : s.resetEvent.hdr = Config.resetHdr (s.epoch + 1) := by rw [resetEvent_eq]; rfl
@[simp] theorem resetEvent_opt : s.resetEvent.opt = Config.resetOpt (s.epoch + 1) := by rw [resetEvent_eq]; rfl
@[simp] theorem resetEvent_pbuf : s.resetEvent.pbuf = [] := by rw [resetEvent_eq]; rfl
@[simp] theorem resetEvent_bbuf : s.resetEvent.bbuf = [] := by rw [resetEvent_eq]; rfl
@[simp] theorem resetEvent_epoch : s.resetEvent.epoch = s.epoch + 1 := by rw [resetEvent_eq]; rfl
@[simp] theorem resetEvent_draws : s.resetEvent.draws = s.draws := by rw [resetEvent_eq]; rfl
@[simp] theorem resetEvent_script : s.resetEvent.script = s.script := by rw [resetEvent_eq]; rfl
@[simp] theorem resetEvent_readLog : s.resetEvent.readLog = s.readLog := by rw [resetEvent_eq]; rfl

end resetEvent

end Sys2Proof.Machine.State
end

