-- ==== Sys2Proof/Laws/Memory.lean ====
section
/-!
SUPPORT. The laws of the memories: a read after a write to the same cell gives the value written, a write leaves every other
cell alone, and every memory operation keeps the canonical form and the bound on addresses.
-/

namespace Sys2Proof.Machine

namespace Memory

variable {α : Type}

theorem written?_write (m : Memory α) (a b : Nat) (v : α) :
    (m.write a v).written? b = if b = a then some v else m.written? b := by
  induction m with
  | nil => simp [write, written?]
  | cons c m ih =>
    obtain ⟨d, w⟩ := c
    simp only [write]
    split
    · simp only [written?]
    · split
      · rename_i _ h
        subst h
        simp only [written?]
        split <;> rfl
      · rename_i h
        simp only [written?, ih]
        by_cases hbd : b = d
        · subst hbd
          simp [Ne.symm h]
        · simp [hbd]

theorem read_write (u : Nat → α) (m : Memory α) (a b : Nat) (v : α) :
    (m.write a v).read u b = if b = a then v else m.read u b := by
  simp only [read, written?_write]
  split <;> rfl

@[simp] theorem read_write_self (u : Nat → α) (m : Memory α) (a : Nat) (v : α) : (m.write a v).read u a = v := by
  simp [read_write]

theorem read_write_of_ne (u : Nat → α) (m : Memory α) {a b : Nat} (v : α) (h : b ≠ a) :
    (m.write a v).read u b = m.read u b := by
  simp [read_write, h]

/-- What a run of writes can do: cell `a + i` holds `vs[i]`, and every other cell is as before. -/
theorem read_writeRun (u : Nat → α) (m : Memory α) (a b : Nat) (vs : List α) :
    (m.writeRun a vs).read u b = if a ≤ b then (vs[b - a]?).getD (m.read u b) else m.read u b := by
  induction vs generalizing m a with
  | nil => simp [writeRun]
  | cons v vs ih =>
    rw [writeRun, ih]
    by_cases h : a + 1 ≤ b
    · have h1 : a ≤ b := by omega
      have h2 : b - a = (b - (a + 1)) + 1 := by omega
      simp [h, h1, h2, read_write_of_ne u m v (show b ≠ a by omega)]
    · by_cases h1 : b = a
      · subst h1
        simp
      · have h2 : ¬ a ≤ b := by omega
        simp [h, h2, read_write_of_ne u m v h1]

theorem length_readRun (u : Nat → α) (m : Memory α) (a n : Nat) : (m.readRun u a n).length = n := by
  simp [readRun]

theorem getElem?_readRun (u : Nat → α) (m : Memory α) (a n i : Nat) :
    (m.readRun u a n)[i]? = if i < n then some (m.read u (a + i)) else none := by
  by_cases h : i < n <;> simp [readRun, h]

theorem wf_cons {a : Nat} {v : α} {m : Memory α} (h : m.wf = true) (hlt : ∀ c ∈ m, a < c.1) :
    wf ((a, v) :: m) = true := by
  cases m with
  | nil => rfl
  | cons c m => simp [wf, h, hlt c (by simp)]

theorem wf_tail {c : Nat × α} {m : Memory α} (h : wf (c :: m) = true) : m.wf = true := by
  cases m with
  | nil => rfl
  | cons d m => simp [wf] at h; exact h.2

theorem lt_of_wf {a : Nat} {v : α} {m : Memory α} (h : wf ((a, v) :: m) = true) : ∀ c ∈ m, a < c.1 := by
  induction m generalizing a v with
  | nil => simp
  | cons d m ih =>
    obtain ⟨b, w⟩ := d
    simp only [wf, Bool.and_eq_true, decide_eq_true_eq] at h
    intro c hc
    rcases List.mem_cons.1 hc with rfl | hc
    · exact h.1
    · exact Nat.lt_trans h.1 (ih h.2 c hc)

theorem mem_write {m : Memory α} {a : Nat} {v : α} {c : Nat × α} (h : c ∈ m.write a v) : c = (a, v) ∨ c ∈ m := by
  induction m with
  | nil => simpa [write] using h
  | cons d m ih =>
    obtain ⟨b, w⟩ := d
    simp only [write] at h
    split at h
    · simpa using h
    · split at h
      · rcases List.mem_cons.1 h with h | h <;> simp [h]
      · rcases List.mem_cons.1 h with h | h
        · simp [h]
        · rcases ih h with h | h <;> simp [h]

/-- A write keeps the canonical form. -/
theorem wf_write {m : Memory α} (h : m.wf = true) (a : Nat) (v : α) : (m.write a v).wf = true := by
  induction m with
  | nil => rfl
  | cons d m ih =>
    obtain ⟨b, w⟩ := d
    have hlt := lt_of_wf h
    simp only [write]
    split
    · rename_i hab
      refine wf_cons h fun c hc => ?_
      rcases List.mem_cons.1 hc with rfl | hc
      · exact hab
      · exact Nat.lt_trans hab (hlt c hc)
    · split
      · rename_i _ hab
        subst hab
        exact wf_cons (wf_tail h) hlt
      · rename_i h1 h2
        refine wf_cons (ih (wf_tail h)) fun c hc => ?_
        rcases mem_write hc with rfl | hc
        · simp only
          omega
        · exact hlt c hc

/-- A run of writes keeps the canonical form. -/
theorem wf_writeRun {m : Memory α} (h : m.wf = true) (a : Nat) (vs : List α) : (m.writeRun a vs).wf = true := by
  induction vs generalizing m a with
  | nil => exact h
  | cons v vs ih => exact ih (wf_write h a v) (a + 1)

theorem below_iff {n : Nat} {m : Memory α} : m.below n = true ↔ ∀ c ∈ m, c.1 < n := by
  simp [below]

theorem below_write {n : Nat} {m : Memory α} (h : m.below n = true) {a : Nat} (ha : a < n) (v : α) :
    (m.write a v).below n = true := by
  rw [below_iff] at *
  intro c hc
  rcases mem_write hc with rfl | hc
  · exact ha
  · exact h c hc

theorem below_writeRun {n : Nat} {m : Memory α} (h : m.below n = true) {a : Nat} {vs : List α}
    (ha : a + vs.length ≤ n) : (m.writeRun a vs).below n = true := by
  induction vs generalizing m a with
  | nil => exact h
  | cons v vs ih =>
    simp only [List.length_cons] at ha
    exact ih (below_write h (by omega) v) (by omega)

/-- What a reset that keeps the cells below `n` leaves written (R263): below `n` what was, above nothing. -/
theorem written?_upTo (m : Memory α) (n a : Nat) : (m.upTo n).written? a = if a < n then m.written? a else none := by
  induction m with
  | nil => simp [upTo, written?]
  | cons c m ih =>
    obtain ⟨b, w⟩ := c
    unfold upTo at ih ⊢
    by_cases hb : b < n <;> by_cases ha : a = b <;> simp_all [written?]

theorem mem_upTo {m : Memory α} {n : Nat} {c : Nat × α} (h : c ∈ m.upTo n) : c ∈ m := List.mem_of_mem_filter h

theorem wf_upTo {m : Memory α} (h : m.wf = true) (n : Nat) : (m.upTo n).wf = true := by
  induction m with
  | nil => rfl
  | cons c m ih =>
    have ih := ih (wf_tail h)
    unfold upTo at ih ⊢
    rw [List.filter_cons]
    split
    · exact wf_cons ih fun d hd => lt_of_wf h d (List.mem_of_mem_filter hd)
    · exact ih

theorem below_upTo {m : Memory α} {b : Nat} (h : m.below b = true) (n : Nat) : (m.upTo n).below b = true := by
  rw [below_iff] at *
  exact fun c hc => h c (mem_upTo hc)

end Memory

/-- Cells below `n` keep their era across a reset that keeps them (R263). -/
theorem eraOf_keepBelow_of_lt {n a : Nat} (h : a < n) (e e' : Nat) (k : List (Nat × Nat)) :
    eraOf e' a (keepBelow n e k) = eraOf e a k := by
  induction k with
  | nil => simp [keepBelow, eraOf, h]
  | cons c k ih =>
    obtain ⟨l, x⟩ := c
    simp only [keepBelow]
    split
    · simp only [eraOf, ih]
    · rw [eraOf, if_pos h, eraOf, if_pos (by omega)]

/-- Cells from `n` on are of the new era (R262). -/
theorem eraOf_keepBelow_of_le {n a : Nat} (h : n ≤ a) (e e' : Nat) (k : List (Nat × Nat)) :
    eraOf e' a (keepBelow n e k) = e' := by
  induction k with
  | nil => simp [keepBelow, eraOf, Nat.not_lt.2 h]
  | cons c k ih =>
    obtain ⟨l, x⟩ := c
    simp only [keepBelow]
    split
    · rw [eraOf, if_neg (by omega), ih]
    · rw [eraOf, if_neg (by omega), eraOf]

theorem mem_keepBelow {n e : Nat} {k : List (Nat × Nat)} {c : Nat × Nat} (h : c ∈ keepBelow n e k) :
    c.1 = n ∨ c ∈ k := by
  induction k with
  | nil => exact .inl (by simp only [keepBelow, List.mem_singleton] at h; rw [h])
  | cons d k ih =>
    obtain ⟨l, x⟩ := d
    simp only [keepBelow] at h
    split at h
    · rcases List.mem_cons.1 h with h | h
      · exact .inr (by simp [h])
      · rcases ih h with h | h <;> simp [h]
    · exact .inl (by simp only [List.mem_singleton] at h; rw [h])

/-- The limits stay rising. -/
theorem wf_keepBelow {n e : Nat} {k : List (Nat × Nat)} (h : Memory.wf k = true) : Memory.wf (keepBelow n e k) = true := by
  induction k with
  | nil => rfl
  | cons d k ih =>
    obtain ⟨l, x⟩ := d
    simp only [keepBelow]
    split
    · rename_i hl
      refine Memory.wf_cons (ih (Memory.wf_tail h)) fun c hc => ?_
      rcases mem_keepBelow hc with hc | hc
      · omega
      · exact Memory.lt_of_wf h c hc
    · rfl

namespace State

@[simp] theorem gmemAt_setGmem (s : State) (a b : Nat) (v : Byte) :
    (s.setGmem a v).gmemAt b = if b = a then v else s.gmemAt b :=
  Memory.read_write _ _ _ _ _

@[simp] theorem bbufAt_setBbuf (s : State) (i j : Nat) (b : Bit) :
    (s.setBbuf i b).bbufAt j = if j = i then b else s.bbufAt j :=
  Memory.read_write _ _ _ _ _

theorem pbufAt_setPayload (s : State) (vs : List Byte) (j : Nat) :
    (s.setPayload vs).pbufAt j = (vs[j]?).getD (s.pbufAt j) := by
  simp [pbufAt, setPayload, Memory.read_writeRun]

theorem bbufAt_setBitbuf (s : State) (bs : List Bit) (j : Nat) :
    (s.setBitbuf bs).bbufAt j = (bs[j]?).getD (s.bbufAt j) := by
  simp [bbufAt, setBitbuf, Memory.read_writeRun]

@[simp] theorem length_payload (s : State) (n : Nat) : (s.payload n).length = n := Memory.length_readRun _ _ _ _

@[simp] theorem length_bitbuf (s : State) (n : Nat) : (s.bitbuf n).length = n := Memory.length_readRun _ _ _ _

theorem getElem?_payload (s : State) (n i : Nat) : (s.payload n)[i]? = if i < n then some (s.pbufAt i) else none := by
  simp [payload, Memory.getElem?_readRun, pbufAt]

theorem getElem?_bitbuf (s : State) (n i : Nat) : (s.bitbuf n)[i]? = if i < n then some (s.bbufAt i) else none := by
  simp [bitbuf, Memory.getElem?_readRun, bbufAt]

/-- A reset during a walk leaves the samples of the grid as they are (R263). -/
theorem gmemAt_resetEvent {s : State} {a : Nat} (hs : s.phase = .scan) (ha : a < s.gridSize) :
    s.resetEvent.gmemAt a = s.gmemAt a := by
  have e : s.resetEvent = s.keepGrid (State.resetWith (s.epoch + 1) s.draws s.script s.readLog) := by
    simp only [resetEvent, hs]
  rw [e]
  simp only [gmemAt, Memory.read, gmemUnset, keepGrid, Memory.written?_upTo, if_pos ha, eraOf_keepBelow_of_lt ha]

/-- Every other cell of GMEM is unspecified anew (R262). -/
theorem gmemAt_resetEvent_other {s : State} {a : Nat} (h : s.phase = .scan → s.gridSize ≤ a) :
    s.resetEvent.gmemAt a = Config.resetGmem (s.epoch + 1) a := by
  unfold resetEvent
  cases hs : s.phase with
  | idle => rfl
  | done => rfl
  | scan =>
    simp only [gmemAt, Memory.read, gmemUnset, keepGrid, Memory.written?_upTo, if_neg (Nat.not_lt.2 (h hs)), resetWith,
      eraOf_keepBelow_of_le (h hs), Option.getD_none]

end State

/-- One stream bit of the header replaced, the others kept (R203). -/
theorem getMsbD_setHdrBit (h : BitVec 1024) (i j : Nat) (b : Bit) (hi : i < 1024) (hj : j < 1024) :
    (setHdrBit h i b).getMsbD j = if j = i then b else h.getMsbD j := by
  have e : (1023 - i = 1024 - 1 - j) ↔ j = i := by omega
  cases b <;> by_cases hji : j = i <;> simp [setHdrBit, BitVec.getMsbD, BitVec.getLsbD_twoPow, hj, e, hji] <;> omega

theorem State.hdrAt_setHdr (s : State) (i j : Nat) (b : Bit) (hi : i < 1024) (hj : j < 1024) :
    (s.setHdr i b).hdrAt j = if j = i then b else s.hdrAt j :=
  getMsbD_setHdrBit s.hdr i j b hi hj

end Sys2Proof.Machine
end

