-- ==== Sys2Proof/Laws/Codec.lean ====
section
/-!
SUPPORT. The laws of the Bit Codec's functions (spec/40_bit_codec.md rules R110 to R114) and of `int` (spec/00_scope.md rule
R10): lengths, positions, bounds, and what each function is the inverse of.
-/

namespace Sys2Proof.Machine

theorem even_iff (v : Byte) : even v = true ↔ v.toNat % 2 = 0 := by simp [even]

theorem odd_iff (v : Byte) : odd v = true ↔ v.toNat % 2 = 1 := by simp [odd]

theorem ceil8_mul (n : Nat) : ceil8 (8 * n) = n := by unfold ceil8; omega

theorem le_ceil8 (n : Nat) : n ≤ 8 * ceil8 n := by unfold ceil8; omega

/-- A value that fits a register is kept whole. -/
theorem toNat_ofNat_lt {w n : Nat} (h : n < 2 ^ w) : (BitVec.ofNat w n).toNat = n := by
  rw [BitVec.toNat_ofNat, Nat.mod_eq_of_lt h]

/-! ### `int` of a bitstring -/

@[simp] theorem bitsToNat_nil : bitsToNat [] = 0 := rfl

@[simp] theorem bitsToNat_concat (s : List Bit) (b : Bit) : bitsToNat (s ++ [b]) = 2 * bitsToNat s + b.toNat := by
  simp [bitsToNat]

theorem bitsToNat_append (s t : List Bit) : bitsToNat (s ++ t) = 2 ^ t.length * bitsToNat s + bitsToNat t := by
  induction t using List.reverseRecOn with
  | nil => simp
  | append_singleton t b ih =>
    rw [← List.append_assoc, bitsToNat_concat, bitsToNat_concat, ih, List.length_append, List.length_singleton,
      Nat.pow_succ]
    ring

theorem bitsToNat_replicate (k : Nat) : bitsToNat (List.replicate k false) = 0 := by
  induction k with
  | zero => rfl
  | succ k ih => rw [List.replicate_succ', bitsToNat_concat, ih]; rfl

theorem bitsToNat_lt (s : List Bit) : bitsToNat s < 2 ^ s.length := by
  induction s using List.reverseRecOn with
  | nil => simp
  | append_singleton s b ih =>
    rw [bitsToNat_concat, List.length_append, List.length_singleton, Nat.pow_succ]
    have := Bool.toNat_le b
    omega

/-- Bit `i` of the stream is bit `len - 1 - i` of the number it spells (R10). -/
theorem testBit_bitsToNat (s : List Bit) (i : Nat) (h : i < s.length) :
    (bitsToNat s).testBit (s.length - 1 - i) = s[i] := by
  induction s using List.reverseRecOn generalizing i with
  | nil => simp at h
  | append_singleton s b ih =>
    simp only [List.length_append, List.length_singleton] at h
    rw [bitsToNat_concat]
    by_cases hi : i < s.length
    · have e : (s ++ [b]).length - 1 - i = (s.length - 1 - i) + 1 := by simp; omega
      have e2 : (2 * bitsToNat s + b.toNat) / 2 = bitsToNat s := by
        have := Bool.toNat_le b
        omega
      rw [e, Nat.testBit_succ, e2, ih i hi, List.getElem_append_left hi]
    · have hi' : i = s.length := by omega
      subst hi'
      have e : (s ++ [b]).length - 1 - s.length = 0 := by simp
      rw [e]
      cases b <;> simp [Nat.testBit_zero]

/-- A bitstring is determined by its length and the number it spells. -/
theorem bitsToNat_inj {s t : List Bit} (hl : s.length = t.length) (h : bitsToNat s = bitsToNat t) : s = t := by
  refine List.ext_getElem hl fun i h1 h2 => ?_
  rw [← testBit_bitsToNat s i h1, ← testBit_bitsToNat t i h2, h, hl]

/-! ### Bytes as a number -/

/-- A byte sequence read as one big-endian number (R64 (c)). -/
def bytesToNat (bs : List Byte) : Nat := bs.foldl (fun v b => 256 * v + b.toNat) 0

@[simp] theorem bytesToNat_nil : bytesToNat [] = 0 := rfl

@[simp] theorem bytesToNat_concat (bs : List Byte) (b : Byte) :
    bytesToNat (bs ++ [b]) = 256 * bytesToNat bs + b.toNat := by
  simp [bytesToNat]

theorem bytesToNat_lt (bs : List Byte) : bytesToNat bs < 2 ^ (8 * bs.length) := by
  induction bs using List.reverseRecOn with
  | nil => simp
  | append_singleton bs b ih =>
    have e : 2 ^ (8 * (bs ++ [b]).length) = 2 ^ (8 * bs.length) * 256 := by
      rw [List.length_append, List.length_singleton, Nat.mul_add, Nat.pow_add]
    rw [bytesToNat_concat, e]
    have := b.isLt
    omega

theorem length_byteBits (b : Byte) : (byteBits b).length = 8 := rfl

theorem bitsToNat_byteBits (b : Byte) : bitsToNat (byteBits b) = b.toNat := by
  revert b
  decide

theorem length_bytesToBits (bs : List Byte) : (bytesToBits bs).length = 8 * bs.length := by
  induction bs with
  | nil => rfl
  | cons b bs ih =>
    simp only [bytesToBits, List.flatMap_cons, List.length_append, length_byteBits, List.length_cons] at *
    omega

theorem bytesToBits_append (as bs : List Byte) : bytesToBits (as ++ bs) = bytesToBits as ++ bytesToBits bs := by
  simp [bytesToBits]

theorem bytesToBits_concat (bs : List Byte) (b : Byte) : bytesToBits (bs ++ [b]) = bytesToBits bs ++ byteBits b := by
  simp [bytesToBits]

theorem bitsToNat_bytesToBits (bs : List Byte) : bitsToNat (bytesToBits bs) = bytesToNat bs := by
  induction bs using List.reverseRecOn with
  | nil => rfl
  | append_singleton bs b ih =>
    rw [bytesToBits_concat, bitsToNat_append, length_byteBits, bitsToNat_byteBits, ih, bytesToNat_concat]
    rfl

/-- The position form (R111): stream bit `i` is bit `7 - (i mod 8)` of byte `i div 8`. -/
theorem getElem?_bytesToBits (bs : List Byte) (i : Nat) :
    (bytesToBits bs)[i]? = (bs[i / 8]?).map fun b => b.getLsbD (7 - i % 8) := by
  induction bs generalizing i with
  | nil => simp [bytesToBits]
  | cons b bs ih =>
    have e : bytesToBits (b :: bs) = byteBits b ++ bytesToBits bs := rfl
    rw [e]
    by_cases h : i < 8
    · rw [List.getElem?_append_left (by rw [length_byteBits]; exact h), Nat.div_eq_of_lt h, Nat.mod_eq_of_lt h]
      have hi : i = 0 ∨ i = 1 ∨ i = 2 ∨ i = 3 ∨ i = 4 ∨ i = 5 ∨ i = 6 ∨ i = 7 := by omega
      rcases hi with rfl | rfl | rfl | rfl | rfl | rfl | rfl | rfl <;> rfl
    · rw [List.getElem?_append_right (by rw [length_byteBits]; omega), length_byteBits, ih]
      have e1 : i / 8 = (i - 8) / 8 + 1 := by omega
      have e2 : (i - 8) % 8 = i % 8 := by omega
      rw [e1, e2, List.getElem?_cons_succ]

/-! ### The serialisers -/

@[simp] theorem length_natToBytes (n v : Nat) : (natToBytes n v).length = n := by simp [natToBytes]

theorem natToBytes_succ (n v : Nat) : natToBytes (n + 1) v = natToBytes n (v / 256) ++ [BitVec.ofNat 8 v] := by
  rw [natToBytes, List.range_succ, List.map_append, List.map_singleton]
  congr 1
  · refine List.map_congr_left fun j hj => ?_
    have hj := List.mem_range.1 hj
    have e : 8 * (n + 1 - 1 - j) = 8 + 8 * (n - 1 - j) := by omega
    rw [e, Nat.pow_add, ← Nat.div_div_eq_div_mul]
  · have e : 8 * (n + 1 - 1 - n) = 0 := by omega
    rw [e, Nat.pow_zero, Nat.div_one]

/-- The `n` low bytes of `v` spell `v mod 2^(8n)`. -/
theorem bytesToNat_natToBytes (n v : Nat) : bytesToNat (natToBytes n v) = v % 2 ^ (8 * n) := by
  induction n generalizing v with
  | zero => simp [natToBytes, Nat.mod_one]
  | succ n ih =>
    rw [natToBytes_succ, bytesToNat_concat, ih, BitVec.toNat_ofNat]
    have e : 2 ^ (8 * (n + 1)) = 256 * 2 ^ (8 * n) := by rw [Nat.mul_add, Nat.pow_add, Nat.mul_comm]
    rw [e, Nat.mod_mul]
    omega

theorem natToBytes_bytesToNat (bs : List Byte) : natToBytes bs.length (bytesToNat bs) = bs := by
  induction bs using List.reverseRecOn with
  | nil => rfl
  | append_singleton bs b ih =>
    rw [List.length_append, List.length_singleton, natToBytes_succ, bytesToNat_concat]
    have h1 : (256 * bytesToNat bs + b.toNat) / 256 = bytesToNat bs := by
      have := b.isLt
      omega
    have h2 : BitVec.ofNat 8 (256 * bytesToNat bs + b.toNat) = b := by
      apply BitVec.eq_of_toNat_eq
      rw [BitVec.toNat_ofNat]
      have := b.isLt
      omega
    rw [h1, h2, ih]

@[simp] theorem length_bitsToBytesFix (s : List Bit) : (bitsToBytesFix s).length = ceil8 s.length := by
  simp [bitsToBytesFix]

/-- Fixed-width deserialisation inverts serialisation (R112). -/
theorem bitsToBytesFix_bytesToBits (bs : List Byte) : bitsToBytesFix (bytesToBits bs) = bs := by
  rw [bitsToBytesFix, length_bytesToBits, ceil8_mul, bitsToNat_bytesToBits, natToBytes_bytesToNat]

/-- Fixed-width deserialisation keeps the value `int(s)` (R112). -/
theorem bytesToNat_bitsToBytesFix (s : List Bit) : bytesToNat (bitsToBytesFix s) = bitsToNat s := by
  rw [bitsToBytesFix, bytesToNat_natToBytes]
  refine Nat.mod_eq_of_lt (Nat.lt_of_lt_of_le (bitsToNat_lt s) ?_)
  exact Nat.pow_le_pow_right (by omega) (le_ceil8 _)

/-- `v` has `k` bits: `2^(k-1) <= v < 2^k` (R113). -/
theorem bitWidth_spec (v : Nat) : v < 2 ^ bitWidth v ∧ (v ≠ 0 → 2 ^ (bitWidth v - 1) ≤ v) := by
  unfold bitWidth
  split
  · rename_i h
    subst h
    simp
  · rename_i h
    exact ⟨Nat.lt_log2_self, fun _ => by simpa using Nat.log2_self_le h⟩

theorem bitWidth_le {v n : Nat} (h : v < 2 ^ n) : bitWidth v ≤ n := by
  unfold bitWidth
  split
  · omega
  · rename_i h0
    exact (Nat.log2_lt h0).2 h

theorem bitWidth_bits_le (s : List Bit) : bitWidth (bitsToNat s) ≤ s.length := bitWidth_le (bitsToNat_lt s)

theorem bytesToNat_cons (b : Byte) (bs : List Byte) :
    bytesToNat (b :: bs) = b.toNat * 2 ^ (8 * bs.length) + bytesToNat bs := by
  induction bs using List.reverseRecOn with
  | nil => simp [bytesToNat]
  | append_singleton bs c ih =>
    rw [← List.cons_append, bytesToNat_concat, ih, bytesToNat_concat, List.length_append, List.length_singleton,
      Nat.mul_add 8, Nat.pow_add]
    ring

/-- The minimal width of a number whose first byte is not zero is the number of its bytes. -/
theorem ceil8_bitWidth {b : Byte} (hb : b ≠ 0#8) (bs : List Byte) :
    ceil8 (bitWidth (bytesToNat (b :: bs))) = bs.length + 1 := by
  have hpos : 1 ≤ b.toNat := by
    rcases Nat.eq_zero_or_pos b.toNat with h | h
    · exact absurd (BitVec.eq_of_toNat_eq (by simpa using h)) hb
    · exact h
  have h1 : 2 ^ (8 * bs.length) ≤ bytesToNat (b :: bs) := by
    rw [bytesToNat_cons]
    exact Nat.le_add_right_of_le (Nat.le_mul_of_pos_left _ hpos)
  have h2 := bytesToNat_lt (b :: bs)
  have hle := bitWidth_le h2
  have hlt : 8 * bs.length < bitWidth (bytesToNat (b :: bs)) := by
    by_contra hn
    have a := (bitWidth_spec (bytesToNat (b :: bs))).1
    have c : 2 ^ bitWidth (bytesToNat (b :: bs)) ≤ 2 ^ (8 * bs.length) := Nat.pow_le_pow_right (by omega) (by omega)
    omega
  simp only [List.length_cons] at hle
  unfold ceil8
  omega

theorem bytesToNat_dropWhile (bs : List Byte) : bytesToNat (bs.dropWhile (· == 0#8)) = bytesToNat bs := by
  induction bs with
  | nil => rfl
  | cons b bs ih =>
    by_cases h : b = 0#8
    · subst h
      rw [List.dropWhile_cons_of_pos (by simp), ih, bytesToNat_cons]
      simp
    · rw [List.dropWhile_cons_of_neg (by simpa using h)]

/-- What minimal-width deserialisation of serialised bytes gives: the bytes without their leading zero bytes (R113). -/
theorem bitsToBytesMin_bytesToBits {bs : List Byte} (h : bs ≠ []) :
    bitsToBytesMin (bytesToBits bs) = some (bs.dropWhile (· == 0#8)) := by
  have hl : (bytesToBits bs).length ≠ 0 := by
    rw [length_bytesToBits]
    have := List.length_pos_iff.2 h
    omega
  rw [bitsToBytesMin, if_neg hl, bitsToNat_bytesToBits, ← bytesToNat_dropWhile]
  congr 1
  cases hd : bs.dropWhile (· == 0#8) with
  | nil => rfl
  | cons c cs =>
    have hc : c ≠ 0#8 := by
      have := List.head_dropWhile_not (· == 0#8) (l := bs) (by rw [hd]; simp)
      simpa [hd] using this
    rw [ceil8_bitWidth hc]
    exact natToBytes_bytesToNat (c :: cs)

end Sys2Proof.Machine
end

