-- ==== Sys2Proof/Laws/Header.lean ====
section
/-!
SUPPORT. The laws of the header's builder and parser (spec/41_header.md rules R130 to R136) and of the registers HDR, OPT
and OPTLEN that hold it (spec/10_state.md rules R35, R36).
-/

namespace Sys2Proof.Machine

/-! ### Characters -/

theorem isDigit_iff (b : Byte) : isDigit b = true ↔ 0x30 ≤ b.toNat ∧ b.toNat ≤ 0x39 := by simp [isDigit]

theorem toNat_digit {d : Nat} (h : d < 10) : (Config.digit d).toNat = 0x30 + d := by
  rw [Config.digit, BitVec.toNat_ofNat]
  omega

theorem isDigit_digit {d : Nat} (h : d < 10) : isDigit (Config.digit d) = true := by
  rw [isDigit_iff, toNat_digit h]
  omega

theorem digitVal_digit {d : Nat} (h : d < 10) : digitVal (Config.digit d) = d := by
  rw [digitVal, toNat_digit h]
  omega

/-! ### The length field -/

/-- The `n` low decimal digits of `l`, most significant first. -/
def decDigits (n l : Nat) : List Byte := (List.range n).map fun j => Config.digit (l / 10 ^ (n - 1 - j) % 10)

theorem decStr64_eq (l : Nat) : decStr64 l = decDigits 64 l := rfl

theorem decDigits_succ (n l : Nat) : decDigits (n + 1) l = decDigits n (l / 10) ++ [Config.digit (l % 10)] := by
  rw [decDigits, List.range_succ, List.map_append, List.map_singleton]
  congr 1
  · refine List.map_congr_left fun j hj => ?_
    have hj := List.mem_range.1 hj
    have e : n + 1 - 1 - j = 1 + (n - 1 - j) := by omega
    rw [e, Nat.pow_add, ← Nat.div_div_eq_div_mul, Nat.pow_one]
  · have e : n + 1 - 1 - n = 0 := by omega
    rw [e, Nat.pow_zero, Nat.div_one]

@[simp] theorem length_decDigits (n l : Nat) : (decDigits n l).length = n := by simp [decDigits]

@[simp] theorem length_decStr64 (l : Nat) : (decStr64 l).length = 64 := length_decDigits 64 l

theorem all_isDigit_decDigits (n l : Nat) : (decDigits n l).all isDigit = true := by
  simp only [decDigits, List.all_map, List.all_eq_true, Function.comp]
  exact fun j _ => isDigit_digit (Nat.mod_lt _ (by omega))

@[simp] theorem decValue_nil : decValue [] = 0 := rfl

@[simp] theorem decValue_concat (d : List Byte) (b : Byte) : decValue (d ++ [b]) = 10 * decValue d + digitVal b := by
  simp [decValue]

theorem decValue_decDigits (n l : Nat) : decValue (decDigits n l) = l % 10 ^ n := by
  induction n generalizing l with
  | zero => simp [decDigits, Nat.mod_one]
  | succ n ih =>
    rw [decDigits_succ, decValue_concat, ih, digitVal_digit (Nat.mod_lt _ (by omega)), Nat.pow_succ,
      Nat.mul_comm (10 ^ n), Nat.mod_mul]
    omega

/-- A string of digits is worth less than `10^n` (R134). -/
theorem decValue_lt {d : List Byte} (h : d.all isDigit = true) : decValue d < 10 ^ d.length := by
  induction d using List.reverseRecOn with
  | nil => simp
  | append_singleton d b ih =>
    rw [List.all_append, Bool.and_eq_true] at h
    have h1 := ih h.1
    have h2 := (isDigit_iff b).1 (by simpa using h.2)
    rw [decValue_concat, List.length_append, List.length_singleton, Nat.pow_succ, digitVal]
    omega

/-- The length field decodes to what R134's sum says: digit `j` weighs `10^(n-1-j)`. -/
theorem decValue_cons (b : Byte) (d : List Byte) : decValue (b :: d) = digitVal b * 10 ^ d.length + decValue d := by
  induction d using List.reverseRecOn with
  | nil => simp [decValue]
  | append_singleton d c ih =>
    rw [← List.cons_append, decValue_concat, ih, decValue_concat, List.length_append, List.length_singleton,
      Nat.pow_succ]
    ring

/-- What the length parser can answer (R134). -/
theorem parseLen_eq_some {s : List Bit} {l : Nat} (h : parseLen s = some l) :
    (bitsToBytesFix s).all isDigit = true ∧ l = decValue (bitsToBytesFix s) := by
  simp only [parseLen] at h
  split at h
  · rename_i hd
    exact ⟨hd, (Option.some.inj h).symm⟩
  · cases h

theorem parseLen_lt {s : List Bit} {l : Nat} (hs : s.length = 512) (h : parseLen s = some l) : l < 10 ^ 64 := by
  obtain ⟨hd, rfl⟩ := parseLen_eq_some h
  have := decValue_lt hd
  rw [length_bitsToBytesFix, hs] at this
  exact this

/-- Every field R131 builds parses back to its length (R134). -/
theorem parseLen_decStr64 {l : Nat} (h : l < 10 ^ 64) : parseLen (bytesToBits (decStr64 l)) = some l := by
  rw [parseLen, bitsToBytesFix_bytesToBits, decStr64_eq, if_pos (all_isDigit_decDigits 64 l), decValue_decDigits,
    Nat.mod_eq_of_lt h]

/-! ### The options field -/

@[simp] theorem length_optField (p : List Byte) : (optField p).length = 64 := by simp [optField, Config.optChars]

/-- The padding of R132: the bytes of `P`, then spaces. -/
theorem optField_eq {p : List Byte} (h : p.length ≤ 64) :
    optField p = p ++ List.replicate (64 - p.length) Config.space := by
  refine List.ext_getElem? fun i => ?_
  by_cases hi : i < 64
  · by_cases hp : i < p.length
    · rw [List.getElem?_append_left hp]
      simp [optField, Config.optChars, hi, hp]
    · simp [optField, Config.optChars, hi, hp, List.getElem?_append_right (Nat.le_of_not_lt hp),
        show i - p.length < 64 - p.length by omega]
  · rw [List.getElem?_eq_none (by simp; omega), List.getElem?_eq_none (by simp; omega)]

theorem stripLen_le (o : List Byte) : stripLen o ≤ o.length := by
  have := (List.dropWhile_sublist (· == Config.space) (l := o.reverse)).length_le
  simpa [stripLen] using this

theorem stripLen_concat (o : List Byte) (b : Byte) :
    stripLen (o ++ [b]) = if b = Config.space then stripLen o else o.length + 1 := by
  by_cases h : b = Config.space <;> simp [stripLen, h]

theorem stripLen_append_spaces (o : List Byte) (k : Nat) : stripLen (o ++ List.replicate k Config.space) = stripLen o := by
  induction k with
  | zero => simp
  | succ k ih => rw [List.replicate_succ', ← List.append_assoc, stripLen_concat, if_pos rfl, ih]

/-- The stripped length is the largest `m` with `m = 0` or `O[m-1] != 0x20` (R135). -/
theorem stripLen_spec (o : List Byte) :
    (stripLen o = 0 ∨ o[stripLen o - 1]? ≠ some Config.space) ∧
      ∀ j, stripLen o ≤ j → j < o.length → o[j]? = some Config.space := by
  induction o using List.reverseRecOn with
  | nil => exact ⟨.inl rfl, fun j _ h => by simp at h⟩
  | append_singleton o b ih =>
    rw [stripLen_concat]
    split
    · rename_i hb
      have hle := stripLen_le o
      refine ⟨?_, fun j h1 h2 => ?_⟩
      · rcases ih.1 with h0 | h0
        · exact .inl h0
        · by_cases hz : stripLen o = 0
          · exact .inl hz
          · refine .inr ?_
            rw [List.getElem?_append_left (by omega)]
            exact h0
      · simp only [List.length_append, List.length_singleton] at h2
        by_cases hj : j < o.length
        · rw [List.getElem?_append_left hj]
          exact ih.2 j h1 hj
        · have : j = o.length := by omega
          subst this
          simp [hb]
    · rename_i hb
      refine ⟨.inr ?_, fun j h1 h2 => ?_⟩
      · simp [hb]
      · simp only [List.length_append, List.length_singleton] at h2
        omega

/-- `OPT_PLACEHOLDER` has at most 64 bytes (R7). -/
theorem length_asPlaceholder_le (p : List Byte) : (Config.asPlaceholder p).length ≤ 64 := by
  have h1 := (List.dropWhile_sublist (· == Config.space) (l := (p.take Config.optChars).reverse)).length_le
  have h2 := List.length_take_le Config.optChars p
  simp only [Config.asPlaceholder, List.length_reverse] at *
  exact Nat.le_trans h1 h2

/-- `OPT_PLACEHOLDER` does not end in a space (R7). -/
theorem stripLen_asPlaceholder (p : List Byte) : stripLen (Config.asPlaceholder p) = (Config.asPlaceholder p).length := by
  simp [stripLen, Config.asPlaceholder, List.dropWhile_idempotent]

/-- Every string R7 allows is one `OPT_PLACEHOLDER` can be. -/
theorem asPlaceholder_of_legal {p : List Byte} (h1 : p.length ≤ 64) (h2 : p.getLast? ≠ some Config.space) :
    Config.asPlaceholder p = p := by
  unfold Config.asPlaceholder
  rw [List.take_of_length_le (show p.length ≤ Config.optChars from h1)]
  induction p using List.reverseRecOn with
  | nil => rfl
  | append_singleton p b _ =>
    have hb : b ≠ Config.space := by simpa using h2
    simp [hb]

theorem length_optPlaceholder_le : Config.optPlaceholder.length ≤ 64 := length_asPlaceholder_le _

/-! ### Header and registers -/

theorem length_buildHeader {l : Nat} {h : List Bit} (e : buildHeader l = some h) : h.length = 1024 := by
  unfold buildHeader at e
  split at e
  · cases e
  · cases e
    simp [length_bytesToBits]

/-- What the header builder answers below the limit (R133). -/
theorem buildHeader_of_lt {l : Nat} (h : l < 10 ^ 64) :
    buildHeader l = some (bytesToBits (decStr64 l) ++ bytesToBits (optField Config.optPlaceholder)) :=
  if_neg (Nat.not_le.2 h)

theorem buildHeader_of_ge {l : Nat} (h : 10 ^ 64 ≤ l) : buildHeader l = none := if_pos h

/-- The number `HDR` holds puts stream bit `i` where `HDR[i]` reads (R35). -/
theorem getMsbD_hdrOfBits {s : List Bit} (hs : s.length = 1024) {i : Nat} (hi : i < 1024) :
    (hdrOfBits s).getMsbD i = s[i] := by
  have h := testBit_bitsToNat s i (by omega)
  have hlt := bitsToNat_lt s
  have e : s.length - 1 - i = 1024 - 1 - i := by omega
  rw [e] at h
  rw [hs] at hlt
  rw [hdrOfBits, BitVec.getMsbD_eq_getLsbD, BitVec.getLsbD, toNat_ofNat_lt hlt]
  simp [hi, h]

@[simp] theorem State.length_hdrBits (s : State) : s.hdrBits.length = 1024 := by simp [State.hdrBits, Config.hdrBits]

theorem State.getElem?_hdrBits (s : State) (i : Nat) :
    s.hdrBits[i]? = if i < 1024 then some (s.hdrAt i) else none := by
  by_cases h : i < 1024 <;> simp [State.hdrBits, Config.hdrBits, h]

theorem State.hdrBits_congr {s t : State} (h : s.hdr = t.hdr) : s.hdrBits = t.hdrBits := by
  simp [State.hdrBits, State.hdrAt, h]

theorem State.hdrBits_of_hdrOfBits {s : State} {h : List Bit} (hh : h.length = 1024) (e : s.hdr = hdrOfBits h) :
    s.hdrBits = h := by
  refine List.ext_getElem? fun i => ?_
  rw [State.getElem?_hdrBits]
  split
  · rename_i hi
    rw [State.hdrAt, e, getMsbD_hdrOfBits hh hi, List.getElem?_eq_getElem (by omega)]
  · rename_i hi
    rw [List.getElem?_eq_none (by omega)]

theorem State.hdrOfBits_hdrBits (s : State) : hdrOfBits s.hdrBits = s.hdr := by
  apply BitVec.eq_of_getMsbD_eq
  intro i hi
  rw [getMsbD_hdrOfBits s.length_hdrBits hi]
  simp [State.hdrBits, State.hdrAt]

/-- Byte `j` of the register OPT is the byte it was loaded with (R36). -/
theorem State.optByte_of_optOfBytes {s : State} {o : List Byte} (ho : o.length = 64) (e : s.opt = optOfBytes o) {j : Nat}
    (hj : j < 64) : s.optByte j = o[j] := by
  have h1 : o = natToBytes 64 (bytesToNat o) := by
    have := natToBytes_bytesToNat o
    rw [ho] at this
    exact this.symm
  have hlt := bytesToNat_lt o
  rw [ho] at hlt
  have h2 : o[j]? = some (BitVec.ofNat 8 (bytesToNat o / 2 ^ (8 * (64 - 1 - j)))) := by
    conv_lhs => rw [h1]
    simp [natToBytes, hj]
  have h3 : o[j] = BitVec.ofNat 8 (bytesToNat o / 2 ^ (8 * (64 - 1 - j))) := by
    rw [List.getElem?_eq_getElem (by omega)] at h2
    exact Option.some.inj h2
  have e2 : 504 - 8 * j = 8 * (64 - 1 - j) := by omega
  have e3 : optOfBytes o = BitVec.ofNat 512 (bytesToNat o) := rfl
  rw [h3, State.optByte, e, e3, e2]
  apply BitVec.eq_of_toNat_eq
  rw [BitVec.extractLsb'_toNat, toNat_ofNat_lt hlt, BitVec.toNat_ofNat, Nat.shiftRight_eq_div_pow]

/-- A header that `BuildHeader` builds parses back to its length, its options field and the placeholder's length (R139). -/
theorem parseHeader_built {l : Nat} (h : l < 10 ^ 64) :
    parseHeader (bytesToBits (decStr64 l) ++ bytesToBits (optField Config.optPlaceholder)) =
      some (l, optField Config.optPlaceholder, Config.optPlaceholder.length) := by
  have e1 : (bytesToBits (decStr64 l)).length = Config.lenBits := by simp [length_bytesToBits, Config.lenBits]
  have e2 : stripLen (optField Config.optPlaceholder) = Config.optPlaceholder.length := by
    rw [optField_eq length_optPlaceholder_le, stripLen_append_spaces]
    exact stripLen_asPlaceholder _
  rw [parseHeader, List.take_left' e1, List.drop_left' e1, parseLen_decStr64 h]
  simp only [parseOpt, bitsToBytesFix_bytesToBits, e2]

/-- What the header parser can answer (R136). -/
theorem parseHeader_eq_some {h : List Bit} {l : Nat} {o : List Byte} {m : Nat} (hh : h.length = 1024)
    (e : parseHeader h = some (l, o, m)) : l < 10 ^ 64 ∧ o.length = 64 ∧ m ≤ 64 := by
  unfold parseHeader at e
  split at e
  · cases e
  · rename_i k hk
    cases e
    have h1 : (h.take Config.lenBits).length = 512 := by simp [hh, Config.lenBits]
    have h2 : (bitsToBytesFix (h.drop Config.lenBits)).length = 64 := by
      rw [length_bitsToBytesFix, List.length_drop, hh]
      rfl
    refine ⟨parseLen_lt h1 hk, h2, ?_⟩
    have := stripLen_le (bitsToBytesFix (h.drop Config.lenBits))
    rw [h2] at this
    exact this

end Sys2Proof.Machine
end

