-- ==== Sys2Proof/Laws/Geometry.lean ====
section
/-!
SUPPORT. The integer root (spec/00_scope.md rule R8), the tile geometry (spec/43_encoder_and_tile_walk.md rules R171 to R173)
and the address function (spec/20_memory.md rule R62).
-/

namespace Sys2Proof.Machine

theorem isqrtBits_spec (n k r : Nat) (h1 : r * r ≤ n) (h2 : n < (r + 2 ^ k) * (r + 2 ^ k)) :
    isqrtBits n k r * isqrtBits n k r ≤ n ∧ n < (isqrtBits n k r + 1) * (isqrtBits n k r + 1) := by
  induction k generalizing r with
  | zero => simpa [isqrtBits] using ⟨h1, h2⟩
  | succ k ih =>
    have e : r + 2 ^ (k + 1) = r + 2 ^ k + 2 ^ k := by rw [Nat.pow_succ]; omega
    rw [isqrtBits]
    split
    · rename_i h
      exact ih _ h (by rwa [← e])
    · rename_i h
      exact ih _ h1 (by omega)

/-- `isqrt(n)` is the largest integer whose square is at most `n` (R8). -/
theorem isqrt_spec (n : Nat) : isqrt n * isqrt n ≤ n ∧ n < (isqrt n + 1) * (isqrt n + 1) := by
  refine isqrtBits_spec n _ 0 (by simp) ?_
  have h := Nat.lt_log2_self (n := n)
  have e : 2 ^ (Nat.log2 n + 1) ≤ 2 ^ (Nat.log2 n / 2 + 1) * 2 ^ (Nat.log2 n / 2 + 1) := by
    rw [← Nat.pow_add]
    exact Nat.pow_le_pow_right (by omega) (by omega)
  simp only [Nat.zero_add]
  omega

theorem isqrt_eq {n r : Nat} (h1 : r * r ≤ n) (h2 : n < (r + 1) * (r + 1)) : isqrt n = r := by
  obtain ⟨h3, h4⟩ := isqrt_spec n
  have a : isqrt n < r + 1 := Nat.mul_self_lt_mul_self_iff.1 (by omega)
  have b : r < isqrt n + 1 := Nat.mul_self_lt_mul_self_iff.1 (by omega)
  omega

/-- A 32-bit group size has a root of at most 16 bits (R28). -/
theorem isqrt_lt {n : Nat} (h : n < 2 ^ 32) : isqrt n < 2 ^ 16 := by
  have h1 := (isqrt_spec n).1
  exact Nat.mul_self_lt_mul_self_iff.1 (by omega)

/-- The group size is valid exactly when it is the square of a positive integer, and that integer is its root (R170). -/
theorem validGroupSize_iff (g : Nat) : ValidGroupSize g ↔ ∃ r, 1 ≤ r ∧ g = r * r := by
  constructor
  · rintro ⟨h1, h2⟩
    refine ⟨isqrt g, ?_, h2.symm⟩
    rcases Nat.eq_zero_or_pos (isqrt g) with h | h
    · rw [h] at h2; omega
    · exact h
  · rintro ⟨r, h1, rfl⟩
    have e : isqrt (r * r) = r := isqrt_eq (Nat.le_refl _) (Nat.mul_self_lt_mul_self (Nat.lt_succ_self r))
    exact ⟨Nat.mul_pos h1 h1, by rw [e]⟩

theorem isqrt_pos {g : Nat} (h : 1 ≤ g) : 1 ≤ isqrt g := by
  rcases Nat.eq_zero_or_pos (isqrt g) with h0 | h0
  · have := (isqrt_spec g).2
    rw [h0] at this
    omega
  · exact h0

/-- The capacity fits TILES (R31). -/
theorem capacity_lt {h w s : Nat} (hh : h < 2 ^ 16) (hw : w < 2 ^ 16) : capacity h w s < 2 ^ 32 := by
  have a : h / s ≤ 2 ^ 16 - 1 := by have := Nat.div_le_self h s; omega
  have b : w / s ≤ 2 ^ 16 - 1 := by have := Nat.div_le_self w s; omega
  have := Nat.mul_le_mul a b
  unfold capacity
  omega

/-- Every tile `TilePos(i)`, `i < T`, lies in the grid (R172). -/
theorem tilePos_inGrid {h w s i : Nat} (hi : i < capacity h w s) :
    (tilePos w s i).1 + s ≤ h ∧ (tilePos w s i).2 + s ≤ w := by
  unfold capacity at hi
  have hw : 0 < w / s := by
    rcases Nat.eq_zero_or_pos (w / s) with h0 | h0
    · rw [h0] at hi; omega
    · exact h0
  have hr : i / (w / s) < h / s := Nat.div_lt_of_lt_mul (by rw [Nat.mul_comm]; exact hi)
  have hc : i % (w / s) < w / s := Nat.mod_lt _ hw
  have key : ∀ q d, q < d / s → q * s + s ≤ d := by
    intro q d hq
    have h1 : (q + 1) * s ≤ d / s * s := Nat.mul_le_mul_right s hq
    have h2 := Nat.div_mul_le_self d s
    rw [Nat.succ_mul] at h1
    omega
  exact ⟨key _ _ hr, key _ _ hc⟩

theorem nextTile_right {w s r c : Nat} (h : c + 2 * s ≤ w) : nextTile w s r c = (r, c + s) := if_pos h

theorem nextTile_wrap {w s r c : Nat} (h : ¬ c + 2 * s ≤ w) : nextTile w s r c = (r + s, 0) := if_neg h

/-- `NextTile(TilePos(i)) = TilePos(i + 1)` whenever there is a next tile (R173). -/
theorem nextTile_tilePos {h w s i : Nat} (hs : 1 ≤ s) (hi : i + 1 < capacity h w s) :
    nextTile w s (tilePos w s i).1 (tilePos w s i).2 = tilePos w s (i + 1) := by
  unfold capacity at hi
  have hw : 0 < w / s := by
    rcases Nat.eq_zero_or_pos (w / s) with h0 | h0
    · rw [h0] at hi; omega
    · exact h0
  have hc : i % (w / s) < w / s := Nat.mod_lt _ hw
  have hd := Nat.div_add_mod i (w / s)
  have e1 : i % (w / s) * s + 2 * s = (i % (w / s) + 2) * s := by rw [Nat.add_mul]
  by_cases hlt : i % (w / s) + 1 < w / s
  · have h1 : (i % (w / s) + 2) * s ≤ w := by
      have a : (i % (w / s) + 2) * s ≤ w / s * s := Nat.mul_le_mul_right s hlt
      exact Nat.le_trans a (Nat.div_mul_le_self w s)
    have h2 : (i + 1) / (w / s) = i / (w / s) := by
      rw [Nat.div_eq_iff hw]
      rw [Nat.mul_comm] at hd
      constructor <;> omega
    have h3 : (i + 1) % (w / s) = i % (w / s) + 1 := by
      have := Nat.div_add_mod (i + 1) (w / s)
      rw [h2] at this
      omega
    rw [nextTile_right (by rw [tilePos, e1]; exact h1)]
    simp only [tilePos, h2, h3, Nat.succ_mul]
  · have hEq : i % (w / s) + 1 = w / s := by omega
    have h1 : ¬ (i % (w / s) + 2) * s ≤ w := by
      intro hle
      have : i % (w / s) + 2 ≤ w / s := (Nat.le_div_iff_mul_le hs).2 hle
      omega
    have h4 : i + 1 = (i / (w / s) + 1) * (w / s) := by
      rw [Nat.succ_mul, Nat.mul_comm (i / (w / s))]
      omega
    have h2 : (i + 1) / (w / s) = i / (w / s) + 1 := by
      rw [h4, Nat.mul_div_cancel _ hw]
    have h3 : (i + 1) % (w / s) = 0 := by
      rw [h4, Nat.mul_mod_left]
    rw [nextTile_wrap (by rw [tilePos, e1]; exact h1)]
    simp only [tilePos, h2, h3, Nat.succ_mul, Nat.zero_mul]

/-- The address of a sample of the grid is a GMEM address (R62). -/
theorem gridAddr_lt {h w ch r c k : Nat} (hr : r < h) (hc : c < w) (hk : k < ch) :
    gridAddr w ch r c k < h * w * ch := by
  unfold gridAddr
  have h1 : r * w + c < h * w := by
    have : (r + 1) * w ≤ h * w := Nat.mul_le_mul_right w hr
    rw [Nat.succ_mul] at this
    omega
  have h2 : (r * w + c + 1) * ch ≤ h * w * ch := Nat.mul_le_mul_right ch h1
  rw [Nat.succ_mul] at h2
  omega

/-- `A` is injective on the index triples of the grid (R62). -/
theorem gridAddr_inj {w ch r c k r' c' k' : Nat} (hc : c < w) (hk : k < ch) (hc' : c' < w) (hk' : k' < ch)
    (h : gridAddr w ch r c k = gridAddr w ch r' c' k') : r = r' ∧ c = c' ∧ k = k' := by
  unfold gridAddr at h
  have key : ∀ {a b m n d : Nat}, m < d → n < d → a * d + m = b * d + n → a = b ∧ m = n := by
    intro a b m n d hm hn hh
    have h1 : (a * d + m) / d = a := by
      rw [Nat.mul_comm, Nat.mul_add_div (by omega), Nat.div_eq_of_lt hm, Nat.add_zero]
    have h2 : (b * d + n) / d = b := by
      rw [Nat.mul_comm, Nat.mul_add_div (by omega), Nat.div_eq_of_lt hn, Nat.add_zero]
    have h3 : (a * d + m) % d = m := by rw [Nat.mul_comm, Nat.mul_add_mod, Nat.mod_eq_of_lt hm]
    have h4 : (b * d + n) % d = n := by rw [Nat.mul_comm, Nat.mul_add_mod, Nat.mod_eq_of_lt hn]
    rw [hh] at h1 h3
    exact ⟨by omega, by omega⟩
  obtain ⟨h1, rfl⟩ := key hk hk' h
  obtain ⟨rfl, rfl⟩ := key hc hc' h1
  exact ⟨rfl, rfl, rfl⟩

/-- The cells of a tile, as the spec lists them (R152). -/
theorem mem_tileAddrs {w ch r0 c0 s a : Nat} :
    a ∈ tileAddrs w ch r0 c0 s ↔
      ∃ dr dc k, dr < s ∧ dc < s ∧ k < ch ∧ a = gridAddr w ch (r0 + dr) (c0 + dc) k := by
  simp only [tileAddrs, List.mem_flatMap, List.mem_range, List.mem_map]
  constructor
  · rintro ⟨dr, h1, dc, h2, k, h3, rfl⟩
    exact ⟨dr, dc, k, h1, h2, h3, rfl⟩
  · rintro ⟨dr, dc, k, h1, h2, h3, rfl⟩
    exact ⟨dr, h1, dc, h2, k, h3, rfl⟩

/-- A tile in the grid has only grid cells (R63). -/
theorem tileAddrs_lt {h w ch r0 c0 s a : Nat} (hr : r0 + s ≤ h) (hc : c0 + s ≤ w) (ha : a ∈ tileAddrs w ch r0 c0 s) :
    a < h * w * ch := by
  obtain ⟨dr, dc, k, h1, h2, h3, rfl⟩ := mem_tileAddrs.1 ha
  exact gridAddr_lt (by omega) (by omega) h3

theorem gridSize_le {h : BitVec 16} {w : BitVec 16} {ch : BitVec 8} : h.toNat * w.toNat * ch.toNat ≤ 2 ^ 40 := by
  have a : h.toNat * w.toNat ≤ 2 ^ 16 * 2 ^ 16 := Nat.mul_le_mul (by omega) (by omega)
  have b := Nat.mul_le_mul a (show ch.toNat ≤ 2 ^ 8 by omega)
  omega

/-- Tiles of one walk do not meet: two tiles that share a cell are the same tile (R65, R172). -/
theorem tile_disjoint {h w ch s i j a : Nat} (hi : i < capacity h w s) (hj : j < capacity h w s)
    (h1 : a ∈ tileAddrs w ch (tilePos w s i).1 (tilePos w s i).2 s)
    (h2 : a ∈ tileAddrs w ch (tilePos w s j).1 (tilePos w s j).2 s) : i = j := by
  obtain ⟨dr, dc, k, a1, a2, a3, rfl⟩ := mem_tileAddrs.1 h1
  obtain ⟨dr', dc', k', b1, b2, b3, e⟩ := mem_tileAddrs.1 h2
  have g1 := (tilePos_inGrid hi).2
  have g2 := (tilePos_inGrid hj).2
  obtain ⟨er, ec, -⟩ := gridAddr_inj (by omega) a3 (by omega) b3 e
  have key : ∀ {q q' m n : Nat}, m < s → n < s → q * s + m = q' * s + n → q = q' := by
    intro q q' m n hm hn hh
    have h1 : (q * s + m) / s = q := by
      rw [Nat.mul_comm, Nat.mul_add_div (by omega), Nat.div_eq_of_lt hm, Nat.add_zero]
    have h2 : (q' * s + n) / s = q' := by
      rw [Nat.mul_comm, Nat.mul_add_div (by omega), Nat.div_eq_of_lt hn, Nat.add_zero]
    rw [hh] at h1
    omega
  have q1 := key a1 b1 er
  have q2 := key a2 b2 ec
  have := Nat.div_add_mod i (w / s)
  have := Nat.div_add_mod j (w / s)
  rw [q1, q2] at *
  omega

end Sys2Proof.Machine
end

