-- ==== Sys2Proof/Laws/Mapper.lean ====
section
/-!
SUPPORT. The laws of the Pixel Group Mapper (spec/42_parity_group_mapper.md): what `SetParity` is, and what the two group
operations do to and read from the grid.
-/

namespace Sys2Proof.Machine

/-- `SetParity` leaves the bit as the sample's parity (R151 (b)). -/
@[simp] theorem odd_setParity (v : Byte) (b : Bit) : odd (setParity v b) = b := by
  revert v b
  decide

/-- `SetParity` twice is `SetParity` once (R151 (c)). -/
@[simp] theorem setParity_setParity (v : Byte) (b : Bit) : setParity (setParity v b) b = setParity v b := by
  revert v b
  decide

/-- The group write changes GMEM and nothing else (R153). -/
theorem setParityAt_frame (b : Bit) (as : List Nat) (s : State) :
    setParityAt b as s = { s with gmem := (setParityAt b as s).gmem } := by
  induction as generalizing s with
  | nil => rfl
  | cons a as ih =>
    have h := ih (s.setGmem a (setParity (s.gmemAt a) b))
    rw [setParityAt, h]
    rfl

/-- The group write sets the parity of each listed cell and leaves every other cell alone (R153). -/
theorem gmemAt_setParityAt (b : Bit) (as : List Nat) (s : State) (a : Nat) :
    (setParityAt b as s).gmemAt a = if a ∈ as then setParity (s.gmemAt a) b else s.gmemAt a := by
  induction as generalizing s with
  | nil => simp [setParityAt]
  | cons c as ih =>
    rw [setParityAt, ih]
    by_cases h1 : a = c
    · subst h1
      simp
    · simp [h1]

theorem wf_setParityAt (b : Bit) (as : List Nat) (s : State) (h : s.gmem.wf = true) :
    (setParityAt b as s).gmem.wf = true := by
  induction as generalizing s with
  | nil => exact h
  | cons a as ih => exact ih _ (Memory.wf_write h _ _)

theorem below_setParityAt {n : Nat} (b : Bit) (as : List Nat) (s : State) (h : s.gmem.below n = true)
    (ha : ∀ a ∈ as, a < n) : (setParityAt b as s).gmem.below n = true := by
  induction as generalizing s with
  | nil => exact h
  | cons a as ih =>
    exact ih _ (Memory.below_write h (ha a (by simp)) _) fun c hc => ha c (List.mem_cons_of_mem a hc)

/-- `EncodeBitIntoGroup` changes GMEM and nothing else (R153). -/
theorem encodeBitIntoGroup_frame (r0 c0 t : Nat) (b : Bit) (s : State) :
    encodeBitIntoGroup r0 c0 t b s = { s with gmem := (encodeBitIntoGroup r0 c0 t b s).gmem } :=
  setParityAt_frame b _ s

/-- `EncodeBitIntoGroup` cell by cell (R153). -/
theorem gmemAt_encodeBitIntoGroup (r0 c0 t : Nat) (b : Bit) (s : State) (a : Nat) :
    (encodeBitIntoGroup r0 c0 t b s).gmemAt a =
      if a ∈ tileAddrs s.width.toNat s.channels.toNat r0 c0 t then setParity (s.gmemAt a) b else s.gmemAt a :=
  gmemAt_setParityAt b _ s a

theorem gmemAt_encodeBitIntoGroup_mem {r0 c0 t : Nat} {b : Bit} {s : State} {a : Nat}
    (h : a ∈ tileAddrs s.width.toNat s.channels.toNat r0 c0 t) :
    (encodeBitIntoGroup r0 c0 t b s).gmemAt a = setParity (s.gmemAt a) b := by
  rw [gmemAt_encodeBitIntoGroup, if_pos h]

theorem gmemAt_encodeBitIntoGroup_not_mem {r0 c0 t : Nat} {b : Bit} {s : State} {a : Nat}
    (h : a ∉ tileAddrs s.width.toNat s.channels.toNat r0 c0 t) :
    (encodeBitIntoGroup r0 c0 t b s).gmemAt a = s.gmemAt a := by
  rw [gmemAt_encodeBitIntoGroup, if_neg h]

theorem wf_encodeBitIntoGroup {r0 c0 t : Nat} {b : Bit} {s : State} (h : s.gmem.wf = true) :
    (encodeBitIntoGroup r0 c0 t b s).gmem.wf = true := wf_setParityAt b _ s h

theorem below_encodeBitIntoGroup {r0 c0 t : Nat} {b : Bit} {s : State} (h : s.gmem.below (2 ^ 40) = true)
    (ht : s.TileInGrid r0 c0 t) : (encodeBitIntoGroup r0 c0 t b s).gmem.below (2 ^ 40) = true := by
  refine below_setParityAt b _ s h fun a ha => ?_
  exact Nat.lt_of_lt_of_le (tileAddrs_lt ht.1 ht.2 ha) gridSize_le

/-- The anchor sample is a sample of its tile (R152). -/
theorem anchor_mem {w ch r0 c0 t : Nat} (ht : 1 ≤ t) (hch : 1 ≤ ch) :
    gridAddr w ch r0 c0 0 ∈ tileAddrs w ch r0 c0 t :=
  mem_tileAddrs.2 ⟨0, 0, 0, ht, ht, hch, by simp⟩

/-- Two states that agree on the shape and on a sample read the same bit from its group (R154). -/
theorem decodeBitFromGroup_congr {s t : State} {r c : Nat} (h1 : t.width = s.width) (h2 : t.channels = s.channels)
    (h3 : t.gmemAt (s.addr r c 0) = s.gmemAt (s.addr r c 0)) : decodeBitFromGroup r c t = decodeBitFromGroup r c s := by
  have e : t.addr r c 0 = s.addr r c 0 := by simp [State.addr, h1, h2]
  simp [decodeBitFromGroup, State.grid, e, h3]

end Sys2Proof.Machine
end

