-- ==== Sys2Proof/Laws/Exec.lean ====
section
/-!
SUPPORT. Everything each command's launch and each tile step can do, said once: one lemma per command naming its cases (the
checks in their order, then the effect), for the proofs to cite instead of unfolding the meaning.
-/

namespace Sys2Proof.Machine

variable (s : State)

theorem channels_eq_zero_iff : s.channels = 0#8 ↔ ¬ 1 ≤ s.channels.toNat := by
  rw [BitVec.toNat_eq]
  simp

/-- BYTES2BITS (R115). -/
theorem bytes2bits_cases :
    (2 ^ 29 ≤ s.plen.toNat ∧ bytes2bits s = raise .badOperand s) ∨
    (s.plen.toNat < 2 ^ 29 ∧
      bytes2bits s = succeed { s.setBitbuf (bytesToBits (s.payload s.plen.toNat)) with
        blen := BitVec.ofNat 32 (8 * s.plen.toNat) }) := by
  by_cases h : 2 ^ 29 ≤ s.plen.toNat
  · exact .inl ⟨h, if_pos h⟩
  · exact .inr ⟨by omega, if_neg h⟩

/-- BITS2BYTES FIX (R116). -/
theorem bits2bytes_fix : bits2bytes true s = succeed (s.storePayload (bitsToBytesFix (s.bitbuf s.blen.toNat))) := rfl

/-- BITS2BYTES MIN (R116). -/
theorem bits2bytes_min_cases :
    (s.blen.toNat = 0 ∧ bits2bytes false s = raise .malformedBitstring s) ∨
    (0 < s.blen.toNat ∧ bits2bytes false s =
      succeed (s.storePayload (natToBytes (ceil8 (bitWidth (bitsToNat (s.bitbuf s.blen.toNat))))
        (bitsToNat (s.bitbuf s.blen.toNat))))) := by
  have hl := s.length_bitbuf s.blen.toNat
  rcases Nat.eq_zero_or_pos s.blen.toNat with h | h
  · have e : bitsToBytesMin (s.bitbuf s.blen.toNat) = none := if_pos (by omega)
    exact .inl ⟨h, by simp [bits2bytes, e]⟩
  · have e : bitsToBytesMin (s.bitbuf s.blen.toNat) =
        some (natToBytes (ceil8 (bitWidth (bitsToNat (s.bitbuf s.blen.toNat))))
          (bitsToNat (s.bitbuf s.blen.toNat))) := if_neg (by omega)
    exact .inr ⟨h, by simp [bits2bytes, e]⟩

/-- HDR_BUILD (R137). -/
theorem hdrBuild_cases :
    (10 ^ 64 ≤ s.len.toNat ∧ hdrBuild s = raise .payloadTooLarge s) ∨
    (s.len.toNat < 10 ^ 64 ∧ ∃ h, buildHeader s.len.toNat = some h ∧ hdrBuild s = succeed { s with hdr := hdrOfBits h }) := by
  by_cases h : 10 ^ 64 ≤ s.len.toNat
  · exact .inl ⟨h, by simp [hdrBuild, buildHeader_of_ge h]⟩
  · have h' : s.len.toNat < 10 ^ 64 := Nat.lt_of_not_le h
    exact .inr ⟨h', _, buildHeader_of_lt h', by simp [hdrBuild, buildHeader_of_lt h']⟩

/-- HDR_PARSE (R138). -/
theorem hdrParse_cases :
    (parseHeader s.hdrBits = none ∧ hdrParse s = raise .malformedHeader s) ∨
    (∃ l o m, parseHeader s.hdrBits = some (l, o, m) ∧ hdrParse s = succeed (s.setParsed l o m)) := by
  cases h : parseHeader s.hdrBits with
  | none => exact .inl ⟨rfl, by simp [hdrParse, h]⟩
  | some p => exact .inr ⟨p.1, p.2.1, p.2.2, rfl, by simp [hdrParse, h]⟩

/-- PUT_BIT (R157). -/
theorem putBit_cases (f : Bit) :
    (¬ 1 ≤ s.channels.toNat ∧ putBit f s = raise .badOperand s) ∨
    (1 ≤ s.channels.toNat ∧ ¬ ValidGroupSize s.groupSize.toNat ∧ putBit f s = raise .invalidGroupSize s) ∨
    (1 ≤ s.channels.toNat ∧ ValidGroupSize s.groupSize.toNat ∧
      ¬ s.TileInGrid s.row.toNat s.col.toNat (isqrt s.groupSize.toNat) ∧
      putBit f s = raise .badOperand (s.setStride (isqrt s.groupSize.toNat))) ∨
    (1 ≤ s.channels.toNat ∧ ValidGroupSize s.groupSize.toNat ∧
      s.TileInGrid s.row.toNat s.col.toNat (isqrt s.groupSize.toNat) ∧
      putBit f s = succeed (encodeBitIntoGroup s.row.toNat s.col.toNat (isqrt s.groupSize.toNat) f
        (s.setStride (isqrt s.groupSize.toNat)))) := by
  have hz := channels_eq_zero_iff s
  by_cases h1 : 1 ≤ s.channels.toNat
  · have h1' : ¬ s.channels = 0#8 := by simp [hz, h1]
    by_cases h2 : ValidGroupSize s.groupSize.toNat
    · by_cases h3 : s.TileInGrid s.row.toNat s.col.toNat (isqrt s.groupSize.toNat)
      · refine .inr (.inr (.inr ⟨h1, h2, h3, ?_⟩))
        simp only [putBit, if_neg h1', if_neg (not_not.2 h2), if_pos h3]
      · refine .inr (.inr (.inl ⟨h1, h2, h3, ?_⟩))
        simp only [putBit, if_neg h1', if_neg (not_not.2 h2), if_neg h3]
    · refine .inr (.inl ⟨h1, h2, ?_⟩)
      simp only [putBit, if_neg h1', if_pos h2]
  · exact .inl ⟨h1, by simp only [putBit, if_pos (hz.2 h1)]⟩

/-- GET_BIT (R158). -/
theorem getBit_cases :
    (¬ s.InGrid s.row.toNat s.col.toNat 0 ∧ getBit s = raise .badOperand s) ∨
    (s.InGrid s.row.toNat s.col.toNat 0 ∧
      getBit s = succeed { s with bitr := decodeBitFromGroup s.row.toNat s.col.toNat s }) := by
  by_cases h : s.InGrid s.row.toNat s.col.toNat 0
  · exact .inr ⟨h, if_pos h⟩
  · exact .inl ⟨h, if_neg h⟩

/-- `8 * PLEN` is below the header's limit, so ENCODE never raises PayloadTooLarge (R176, R236). -/
theorem eight_plen_lt : 8 * s.plen.toNat < 10 ^ 64 := by
  have := s.plen.isLt
  omega

/-- ENCODE, launch (R176). -/
theorem encodeLaunch_cases :
    (¬ 1 ≤ s.channels.toNat ∧ encodeLaunch s = raise .badOperand s) ∨
    (1 ≤ s.channels.toNat ∧ ¬ ValidGroupSize s.groupSize.toNat ∧ encodeLaunch s = raise .invalidGroupSize s) ∨
    (1 ≤ s.channels.toNat ∧ ValidGroupSize s.groupSize.toNat ∧
      s.capacityAt (isqrt s.groupSize.toNat) < 1024 + 8 * s.plen.toNat ∧
      encodeLaunch s = raise .insufficientCapacity
        ((s.setStride (isqrt s.groupSize.toNat)).setTiles (s.capacityAt (isqrt s.groupSize.toNat)))) ∨
    (1 ≤ s.channels.toNat ∧ ValidGroupSize s.groupSize.toNat ∧
      1024 + 8 * s.plen.toNat ≤ s.capacityAt (isqrt s.groupSize.toNat) ∧
      ∃ h, buildHeader (8 * s.plen.toNat) = some h ∧
      encodeLaunch s = encodeStart (8 * s.plen.toNat) h
        ((s.setStride (isqrt s.groupSize.toNat)).setTiles (s.capacityAt (isqrt s.groupSize.toNat)))) := by
  have hz := channels_eq_zero_iff s
  by_cases h1 : 1 ≤ s.channels.toNat
  · have h1' : ¬ s.channels = 0#8 := by simp [hz, h1]
    by_cases h2 : ValidGroupSize s.groupSize.toNat
    · have hb := buildHeader_of_lt (eight_plen_lt s)
      by_cases h3 : s.capacityAt (isqrt s.groupSize.toNat) < Config.hdrBits + 8 * s.plen.toNat
      · refine .inr (.inr (.inl ⟨h1, h2, h3, ?_⟩))
        simp only [encodeLaunch, if_neg h1', if_neg (not_not.2 h2), hb, if_pos h3]
      · refine .inr (.inr (.inr ⟨h1, h2, Nat.le_of_not_lt h3, _, hb, ?_⟩))
        simp only [encodeLaunch, if_neg h1', if_neg (not_not.2 h2), hb, if_neg h3]
    · refine .inr (.inl ⟨h1, h2, ?_⟩)
      simp only [encodeLaunch, if_neg h1', if_pos h2]
  · exact .inl ⟨h1, by simp only [encodeLaunch, if_pos (hz.2 h1)]⟩

/-- DECODE, launch (R201). -/
theorem decodeLaunch_cases :
    (¬ 1 ≤ s.channels.toNat ∧ decodeLaunch s = raise .badOperand s) ∨
    (1 ≤ s.channels.toNat ∧ ¬ ValidGroupSize s.groupSize.toNat ∧ decodeLaunch s = raise .invalidGroupSize s) ∨
    (1 ≤ s.channels.toNat ∧ ValidGroupSize s.groupSize.toNat ∧ s.capacityAt (isqrt s.groupSize.toNat) < 1024 ∧
      decodeLaunch s = raise .insufficientCapacity
        ((s.setStride (isqrt s.groupSize.toNat)).setTiles (s.capacityAt (isqrt s.groupSize.toNat)))) ∨
    (1 ≤ s.channels.toNat ∧ ValidGroupSize s.groupSize.toNat ∧ 1024 ≤ s.capacityAt (isqrt s.groupSize.toNat) ∧
      decodeLaunch s = decodeStart
        ((s.setStride (isqrt s.groupSize.toNat)).setTiles (s.capacityAt (isqrt s.groupSize.toNat)))) := by
  have hz := channels_eq_zero_iff s
  by_cases h1 : 1 ≤ s.channels.toNat
  · have h1' : ¬ s.channels = 0#8 := by simp [hz, h1]
    by_cases h2 : ValidGroupSize s.groupSize.toNat
    · by_cases h3 : s.capacityAt (isqrt s.groupSize.toNat) < Config.hdrBits
      · refine .inr (.inr (.inl ⟨h1, h2, h3, ?_⟩))
        simp only [decodeLaunch, if_neg h1', if_neg (not_not.2 h2), if_pos h3]
      · refine .inr (.inr (.inr ⟨h1, h2, Nat.le_of_not_lt h3, ?_⟩))
        simp only [decodeLaunch, if_neg h1', if_neg (not_not.2 h2), if_neg h3]
    · refine .inr (.inl ⟨h1, h2, ?_⟩)
      simp only [decodeLaunch, if_neg h1', if_pos h2]
  · exact .inl ⟨h1, by simp only [decodeLaunch, if_pos (hz.2 h1)]⟩

/-- What the launch of a walk writes (R176). -/
theorem encodeStart_eq (l : Nat) (h : List Bit) :
    encodeStart l h s = { s with
      bbuf := s.bbuf.writeRun 0 (bytesToBits (s.payload s.plen.toNat)), len := BitVec.ofNat 213 l,
      blen := BitVec.ofNat 32 l, hdr := hdrOfBits h, row := 0#16, col := 0#16, bitcnt := 0#32, mode := .enc, err := 0#8,
      phase := .scan } := rfl

/-- What the launch of a walk writes (R201). -/
theorem decodeStart_eq :
    decodeStart s = { s with row := 0#16, col := 0#16, bitcnt := 0#32, mode := .dec, err := 0#8, phase := .scan } := rfl

/-- ENCODE, tile step (R178): the tile written, the bit counted, then the end of the walk or the next tile. -/
theorem encodeTile_cases :
    ((s.bitcnt.toNat + 1) % 2 ^ 32 = 1024 + s.len.toNat ∧
      encodeTile s = { (encodeBitIntoGroup s.row.toNat s.col.toNat s.stride.toNat (s.stream s.bitcnt.toNat) s).countBit with
        phase := .done }) ∨
    ((s.bitcnt.toNat + 1) % 2 ^ 32 ≠ 1024 + s.len.toNat ∧
      encodeTile s =
        (encodeBitIntoGroup s.row.toNat s.col.toNat s.stride.toNat (s.stream s.bitcnt.toNat) s).countBit.advance) := by
  have hf := encodeBitIntoGroup_frame s.row.toNat s.col.toNat s.stride.toNat (s.stream s.bitcnt.toNat) s
  have e : (encodeBitIntoGroup s.row.toNat s.col.toNat s.stride.toNat (s.stream s.bitcnt.toNat) s).countBit.bitcnt.toNat =
      (s.bitcnt.toNat + 1) % 2 ^ 32 := by
    rw [hf]
    simp
  have e2 : (encodeBitIntoGroup s.row.toNat s.col.toNat s.stride.toNat (s.stream s.bitcnt.toNat) s).countBit.len = s.len := by
    rw [hf]
    simp
  by_cases h : (s.bitcnt.toNat + 1) % 2 ^ 32 = 1024 + s.len.toNat
  · refine .inl ⟨h, ?_⟩
    have hc : (encodeBitIntoGroup s.row.toNat s.col.toNat s.stride.toNat (s.stream s.bitcnt.toNat) s).countBit.bitcnt.toNat =
      Config.hdrBits + (encodeBitIntoGroup s.row.toNat s.col.toNat s.stride.toNat
        (s.stream s.bitcnt.toNat) s).countBit.len.toNat := by
      rw [e, e2]
      exact h
    simp only [encodeTile, if_pos hc]
  · refine .inr ⟨h, ?_⟩
    have hc : ¬ (encodeBitIntoGroup s.row.toNat s.col.toNat s.stride.toNat (s.stream s.bitcnt.toNat) s).countBit.bitcnt.toNat =
      Config.hdrBits + (encodeBitIntoGroup s.row.toNat s.col.toNat s.stride.toNat
        (s.stream s.bitcnt.toNat) s).countBit.len.toNat := by
      rw [e, e2]
      exact h
    simp only [encodeTile, if_neg hc]

/-- `HeaderComplete()` (R204). -/
theorem headerComplete_cases :
    (parseHeader s.hdrBits = none ∧ headerComplete s = raise .malformedHeader s) ∨
    (∃ l o m, parseHeader s.hdrBits = some (l, o, m) ∧ s.tiles.toNat < 1024 + l ∧
      headerComplete s = raise .insufficientCapacity (s.setParsed l o m)) ∨
    (∃ l o m, parseHeader s.hdrBits = some (l, o, m) ∧ 1024 + l ≤ s.tiles.toNat ∧
      headerComplete s = s.setParsed l o m) := by
  cases h : parseHeader s.hdrBits with
  | none => exact .inl ⟨rfl, by simp [headerComplete, h]⟩
  | some p =>
    obtain ⟨l, o, m⟩ := p
    by_cases hc : s.tiles.toNat < 1024 + l
    · exact .inr (.inl ⟨l, o, m, rfl, hc, by simp [headerComplete, h, Config.hdrBits, hc]⟩)
    · exact .inr (.inr ⟨l, o, m, rfl, Nat.le_of_not_lt hc, by simp [headerComplete, h, Config.hdrBits, hc]⟩)

/-- What a finished DECODE writes (R205). -/
theorem finalise_eq :
    finalise s = { s with
      blen := BitVec.ofNat 32 s.len.toNat,
      pbuf := s.pbuf.writeRun 0 (bitsToBytesFix (s.bitbuf s.len.toNat)),
      plen := BitVec.ofNat 32 (bitsToBytesFix (s.bitbuf s.len.toNat)).length, phase := .done } := rfl

end Sys2Proof.Machine
end

