-- ==== Sys2Proof/Laws/Step.lean ====
section
/-!
SUPPORT. What one step can do, said once (`step_cases`), and the step in each of its situations.
-/

namespace Sys2Proof.Machine

variable {s t : State} {rest : List HostAction}

theorem step_of_scan (hp : s.phase = .scan) : step s = stepInScan s := by simp [step, stepOnce, hp]

theorem step_of_rest (hp : s.phase ≠ .scan) : step s = stepAtRest s := by
  unfold step stepOnce
  cases h : s.phase <;> first | rfl | exact absurd h hp

/-- A walk the host leaves alone takes a tile step (R15). -/
theorem step_tile (h : s.SequencerMoves) : step s = tileStep s := by
  rw [step_of_scan h.1]
  rcases h.2 with h | ⟨rest, h⟩ <;> simp [stepInScan, h]

/-- A write to CMD at rest is a launch (R220). -/
theorem step_launch {v : Nat} (hp : s.phase ≠ .scan) (hs : s.script = .wr .cmd v :: rest) :
    step s = launch (BitVec.ofNat 8 v) { s with script := rest } := by
  rw [step_of_rest hp]
  simp [stepAtRest, hs]

/-- `wait` ends once PHASE = DONE (R98). -/
theorem step_wait_done (hp : s.phase = .done) (hs : s.script = .wait :: rest) :
    step s = .next { s with script := rest } := by
  rw [step_of_rest (by simp [hp])]
  simp [stepAtRest, hs, hp]

/-- Everything a step can do: a tile step, a host access during a walk, a launch, a host access at rest, or a host that
waits or has nothing to do. -/
theorem step_cases (h : step s = .next t) :
    (s.phase = .scan ∧ ∃ rest, (s.script = rest ∨ s.script = .pause :: rest) ∧
      tileStep { s with script := rest } = .next t) ∨
    (s.phase = .scan ∧ ∃ a rest, s.script = a :: rest ∧ t = hostAccessInScan a { s with script := rest }) ∨
    (s.phase ≠ .scan ∧ ∃ v rest, s.script = .wr .cmd v :: rest ∧
      launch (BitVec.ofNat 8 v) { s with script := rest } = .next t) ∨
    (s.phase ≠ .scan ∧ ∃ a rest, s.script = a :: rest ∧ (∀ v, a ≠ .wr .cmd v) ∧
      hostAccess a { s with script := rest } = .next t) ∨
    (s.phase ≠ .scan ∧ ((s.script = [] ∧ t = s) ∨ (∃ rest, s.script = .wait :: rest ∧ s.phase ≠ .done ∧ t = s) ∨
      ∃ rest, s.script = .wait :: rest ∧ s.phase = .done ∧ t = { s with script := rest })) := by
  by_cases hp : s.phase = .scan
  · rw [step_of_scan hp] at h
    unfold stepInScan at h
    split at h
    · rename_i hs
      exact .inl ⟨hp, [], .inl hs, by rw [← hs]; exact h⟩
    · rename_i rest hs
      exact .inl ⟨hp, _, .inl rfl, h⟩
    · rename_i rest hs
      exact .inl ⟨hp, rest, .inr hs, h⟩
    · rename_i a rest _ _ hs
      cases h
      exact .inr (.inl ⟨hp, a, rest, hs, rfl⟩)
  · rw [step_of_rest hp] at h
    refine .inr (.inr ?_)
    unfold stepAtRest at h
    split at h
    · rename_i hs
      cases h
      exact .inr (.inr ⟨hp, .inl ⟨hs, rfl⟩⟩)
    · rename_i rest hs
      split at h
      · rename_i hd
        cases h
        exact .inr (.inr ⟨hp, .inr (.inr ⟨rest, hs, hd, rfl⟩)⟩)
      · rename_i hd
        cases h
        exact .inr (.inr ⟨hp, .inr (.inl ⟨rest, hs, hd, rfl⟩)⟩)
    · rename_i v rest hs
      exact .inl ⟨hp, v, rest, hs, h⟩
    · rename_i a rest _ hw hs
      exact .inr (.inl ⟨hp, a, rest, hs, hw, h⟩)

/-- Every launch answers a next state. -/
theorem exec_isNext (i : Instr) (s : State) : ∃ t, exec i s = .next t := by
  cases i <;> exact ⟨_, rfl⟩

theorem launch_isNext (w : Word) (s : State) : ∃ t, launch w s = .next t := by
  unfold launch
  split
  · exact exec_isNext _ _
  · exact ⟨_, rfl⟩

/-! ### Runs -/

theorem run_add (m n : Nat) (s : State) :
    run (m + n) s = match run m s with
      | .next t => run n t
      | .fault f => .fault f
      | .refused r => .refused r := by
  induction m generalizing s with
  | zero => simp [run]
  | succ m ih =>
    rw [Nat.succ_add, run, run]
    cases h : step s <;> simp [ih]

theorem run_succ_of_step {n : Nat} (h : step s = .next t) : run (n + 1) s = run n t := by
  rw [run, h]

theorem run_add_of_run {m n : Nat} (h : run m s = .next t) : run (m + n) s = run n t := by
  rw [run_add, h]

end Sys2Proof.Machine
end

