-- ==== Sys2Proof/Laws/Stream.lean ====
section
/-!
SUPPORT. The words of the claims (Safety.lean) in terms of the model's functions: header bytes and header bits, the value of
a run of stream bits, the value of a decimal field, the tiles of a walk.
-/

namespace Sys2Proof.Machine

/-! ### Values -/

theorem streamValue_succ (n : Nat) (f : Nat → Bit) : streamValue (n + 1) f = 2 * streamValue n f + (f n).toNat := by
  unfold streamValue
  rw [List.range_succ, List.map_append, List.sum_append, List.map_singleton, List.sum_singleton]
  have e : (List.range n).map (fun i => (f i).toNat * 2 ^ (n + 1 - 1 - i)) =
      (List.range n).map (fun i => 2 * ((f i).toNat * 2 ^ (n - 1 - i))) := by
    refine List.map_congr_left fun i hi => ?_
    have hi := List.mem_range.1 hi
    have e : n + 1 - 1 - i = (n - 1 - i) + 1 := by omega
    rw [e, Nat.pow_succ]
    ring
  rw [e, List.sum_map_mul_left]
  simp

/-- `int` of a run of stream bits (R10). -/
theorem bitsToNat_map_range (n : Nat) (f : Nat → Bit) : bitsToNat ((List.range n).map f) = streamValue n f := by
  induction n with
  | zero => rfl
  | succ n ih => rw [List.range_succ, List.map_append, List.map_singleton, bitsToNat_concat, ih, streamValue_succ]

theorem streamValue_congr {n : Nat} {f g : Nat → Bit} (h : ∀ i, i < n → f i = g i) : streamValue n f = streamValue n g := by
  rw [← bitsToNat_map_range, ← bitsToNat_map_range]
  exact congrArg _ (List.map_congr_left fun i hi => h i (List.mem_range.1 hi))

theorem bitbuf_eq (s : State) (n : Nat) : s.bitbuf n = (List.range n).map s.bbufAt := by
  simp [State.bitbuf, Memory.readRun, State.bbufAt]

theorem payload_eq (s : State) (n : Nat) : s.payload n = (List.range n).map s.pbufAt := by
  simp [State.payload, Memory.readRun, State.pbufAt]

theorem bitsToNat_bitbuf (s : State) (n : Nat) : bitsToNat (s.bitbuf n) = streamValue n s.bbufAt := by
  rw [bitbuf_eq, bitsToNat_map_range]

theorem decValue_map_range (n : Nat) (f : Nat → Byte) :
    decValue ((List.range n).map f) = ((List.range n).map fun j => ((f j).toNat - 0x30) * 10 ^ (n - 1 - j)).sum := by
  induction n with
  | zero => rfl
  | succ n ih =>
    rw [List.range_succ, List.map_append, List.map_singleton, decValue_concat, ih, List.map_append, List.sum_append]
    have e : (List.range n).map (fun j => ((f j).toNat - 0x30) * 10 ^ (n + 1 - 1 - j)) =
        (List.range n).map (fun j => 10 * (((f j).toNat - 0x30) * 10 ^ (n - 1 - j))) := by
      refine List.map_congr_left fun i hi => ?_
      have hi := List.mem_range.1 hi
      have e : n + 1 - 1 - i = (n - 1 - i) + 1 := by omega
      rw [e, Nat.pow_succ]
      ring
    rw [e, List.sum_map_mul_left]
    simp [digitVal]

/-! ### Header bytes -/

/-- The header as its 128 bytes (R130). -/
def State.hdrBytes (s : State) : List Byte := (List.range 128).map s.hdrByte

theorem State.bytesToBits_hdrBytes (s : State) : bytesToBits s.hdrBytes = s.hdrBits := by
  refine List.ext_getElem? fun i => ?_
  rw [getElem?_bytesToBits, State.getElem?_hdrBits]
  by_cases hi : i < 1024
  · have h8 : i / 8 < 128 := by omega
    have e : 1016 - 8 * (i / 8) + (7 - i % 8) = 1024 - 1 - i := by omega
    simp [State.hdrBytes, h8, hi, State.hdrByte, State.hdrAt, BitVec.getMsbD_eq_getLsbD, BitVec.getLsbD_extractLsb', e]
    omega
  · have h8 : ¬ i / 8 < 128 := by omega
    simp [State.hdrBytes, h8, hi]

theorem State.take_hdrBits (s : State) :
    s.hdrBits.take 512 = bytesToBits ((List.range 64).map s.hdrByte) ∧
      s.hdrBits.drop 512 = bytesToBits ((List.range 64).map fun j => s.hdrByte (64 + j)) := by
  have e : s.hdrBytes = (List.range 64).map s.hdrByte ++ (List.range 64).map fun j => s.hdrByte (64 + j) := by
    rw [State.hdrBytes, show 128 = 64 + 64 from rfl, List.range_add, List.map_append, List.map_map]
    rfl
  have h : (bytesToBits ((List.range 64).map s.hdrByte)).length = 512 := by simp [length_bytesToBits]
  rw [← s.bytesToBits_hdrBytes, e, bytesToBits_append, List.take_left' h, List.drop_left' h]
  exact ⟨rfl, rfl⟩

/-- A header register loaded with the bits of 128 bytes holds those bytes (R130). -/
theorem State.hdrByte_of_bytes {s : State} {bs : List Byte} (hb : bs.length = 128)
    (e : s.hdr = hdrOfBits (bytesToBits bs)) {j : Nat} (hj : j < 128) : s.hdrByte j = bs.getD j 0#8 := by
  have h1 := State.hdrBits_of_hdrOfBits (s := s) (by rw [length_bytesToBits, hb]) e
  rw [← s.bytesToBits_hdrBytes] at h1
  have h2 := congrArg bitsToBytesFix h1
  rw [bitsToBytesFix_bytesToBits, bitsToBytesFix_bytesToBits] at h2
  rw [← h2]
  simp [State.hdrBytes, hj]

/-- What the parser makes of the register HDR, byte by byte (R134 to R136). -/
theorem State.parseHeader_hdrBits (s : State) :
    parseHeader s.hdrBits =
      if ((List.range 64).map s.hdrByte).all isDigit then
        some (s.decimalAt 0 64, (List.range 64).map (fun j => s.hdrByte (64 + j)),
          stripLen ((List.range 64).map fun j => s.hdrByte (64 + j)))
      else none := by
  obtain ⟨h1, h2⟩ := s.take_hdrBits
  have e : s.decimalAt 0 64 = decValue ((List.range 64).map s.hdrByte) := by
    rw [decValue_map_range]
    simp [State.decimalAt]
  simp only [parseHeader, Config.lenBits, h1, h2, parseLen, bitsToBytesFix_bytesToBits, parseOpt, e]
  by_cases hd : ((List.range 64).map s.hdrByte).all isDigit = true
  · simp only [hd, if_true]
  · simp only [hd]
    rfl

theorem optByte_getD {s : State} {o : List Byte} (ho : o.length = 64) (e : s.opt = optOfBytes o) {j : Nat} (hj : j < 64) :
    s.optByte j = o.getD j 0#8 := by
  rw [State.optByte_of_optOfBytes ho e hj]
  simp [ho, hj]

/-- The bytes of a header the builder builds (R130 to R133). -/
theorem hdrByte_built {s : State} {l : Nat} {h : List Bit} (hb : buildHeader l = some h) (e : s.hdr = hdrOfBits h) :
    (∀ j, j < 64 → (s.hdrByte j).toNat = 0x30 + l / 10 ^ (63 - j) % 10) ∧
      ∀ j, j < 64 → s.hdrByte (64 + j) = Config.optPlaceholder.getD j 0x20#8 := by
  have hl : l < 10 ^ 64 := by
    by_contra hn
    rw [buildHeader_of_ge (Nat.le_of_not_lt hn)] at hb
    cases hb
  rw [buildHeader_of_lt hl] at hb
  cases hb
  rw [← bytesToBits_append] at e
  have hlen : (decStr64 l ++ optField Config.optPlaceholder).length = 128 := by simp
  refine ⟨fun j hj => ?_, fun j hj => ?_⟩
  · rw [State.hdrByte_of_bytes hlen e (by omega)]
    have : (decStr64 l ++ optField Config.optPlaceholder).getD j 0#8 = Config.digit (l / 10 ^ (63 - j) % 10) := by
      simp [List.getD_eq_getElem?_getD, List.getElem?_append_left, hj, decStr64, Config.lenChars]
    rw [this, toNat_digit (Nat.mod_lt _ (by omega))]
  · rw [State.hdrByte_of_bytes hlen e (by omega)]
    simp [List.getD_eq_getElem?_getD, List.getElem?_append_right, optField, Config.optChars, hj, Config.space]

theorem parsed_options {s : State} {m : Nat} {o : List Byte} (ho : o.length = 64) (hm : m ≤ 64)
    (e1 : s.opt = optOfBytes o) (e2 : s.optlen = BitVec.ofNat 7 m) : s.options = o.take m := by
  have e3 : s.optlen.toNat = m := by rw [e2]; exact toNat_ofNat_lt (by omega)
  refine List.ext_getElem? fun i => ?_
  rw [State.options, e3]
  by_cases hi : i < m
  · rw [List.getElem?_take_of_lt hi, List.getElem?_map, List.getElem?_range hi, Option.map_some,
      State.optByte_of_optOfBytes ho e1 (by omega), List.getElem?_eq_getElem]
  · rw [List.getElem?_eq_none (by simp; omega), List.getElem?_eq_none (by simp; omega)]

/-! ### Roots -/

/-- A group size given as a square is valid, and the root is that of the square (R170). -/
theorem root_of_square {g q : Nat} (hq : 1 ≤ q) (e : g = q * q) : ValidGroupSize g ∧ isqrt g = q := by
  have hv : ValidGroupSize g := (validGroupSize_iff g).2 ⟨q, hq, e⟩
  refine ⟨hv, ?_⟩
  rw [e]
  exact isqrt_eq (Nat.le_refl _) (Nat.mul_self_lt_mul_self (Nat.lt_succ_self q))

theorem not_valid_of_no_square {g : Nat} (h : ∀ q, 1 ≤ q → g ≠ q * q) : ¬ ValidGroupSize g := by
  intro hv
  obtain ⟨q, hq, e⟩ := (validGroupSize_iff g).1 hv
  exact h q hq e

/-- A sample of the grid is in a tile of the grid exactly when its row and column are (R152). -/
theorem mem_tile_iff {s : State} {r0 c0 q r c k : Nat} (ht : s.TileInGrid r0 c0 q) (h : s.InGrid r c k) :
    s.addr r c k ∈ tileAddrs s.width.toNat s.channels.toNat r0 c0 q ↔ r0 ≤ r ∧ r < r0 + q ∧ c0 ≤ c ∧ c < c0 + q := by
  rw [mem_tileAddrs]
  constructor
  · rintro ⟨dr, dc, k', h1, h2, h3, e⟩
    obtain ⟨rfl, rfl, rfl⟩ := gridAddr_inj h.2.1 h.2.2 (by have := ht.2; omega) h3 e
    omega
  · rintro ⟨h1, h2, h3, h4⟩
    refine ⟨r - r0, c - c0, k, by omega, by omega, h.2.2, ?_⟩
    rw [Nat.add_sub_cancel' h1, Nat.add_sub_cancel' h3]
    rfl

end Sys2Proof.Machine
end

