-- ==== Sys2Proof/Laws/Invariant.lean ====
section
/-!
SUPPORT. The parts of the invariant (Safety.lean) and what keeps them: each memory operation, each launch, each tile step and
each host access, one lemma each.
-/

set_option Elab.async false

namespace Sys2Proof.Machine

variable {s t : State}

/-! ### The memories -/

theorem State.MemoryOk.congr (h : s.MemoryOk) (h1 : t.gmem = s.gmem) (h2 : t.pbuf = s.pbuf) (h3 : t.bbuf = s.bbuf)
    (h4 : t.kept = s.kept := by rfl) : t.MemoryOk := by
  obtain ⟨a, b, c, d, e, f, g⟩ := h
  exact ⟨h1 ▸ a, h1 ▸ b, h2 ▸ c, h2 ▸ d, h3 ▸ e, h3 ▸ f, h4 ▸ g⟩

theorem State.MemoryOk.of_gmem (h : s.MemoryOk) (h1 : t.gmem.wf = true) (h1' : t.gmem.below (2 ^ 40) = true)
    (h2 : t.pbuf = s.pbuf) (h3 : t.bbuf = s.bbuf) (h4 : t.kept = s.kept := by rfl) : t.MemoryOk :=
  ⟨h1, h1', h2 ▸ h.pbufWf, h2 ▸ h.pbufBelow, h3 ▸ h.bbufWf, h3 ▸ h.bbufBelow, h4 ▸ h.keptWf⟩

/-- A group write to a tile of the grid keeps the memories in order (R153, R63). -/
theorem State.MemoryOk.encodeBitIntoGroup {r0 c0 n : Nat} {b : Bit} (h : s.MemoryOk) (ht : s.TileInGrid r0 c0 n) :
    (encodeBitIntoGroup r0 c0 n b s).MemoryOk := by
  have hf := encodeBitIntoGroup_frame r0 c0 n b s
  refine h.of_gmem (wf_encodeBitIntoGroup h.gmemWf) (below_encodeBitIntoGroup h.gmemBelow ht) ?_ ?_ ?_ <;> rw [hf]

theorem State.MemoryOk.bbufRun {bs : List Bit} (h : s.MemoryOk) (hb : bs.length ≤ 2 ^ 32)
    (h1 : t.gmem = s.gmem) (h2 : t.pbuf = s.pbuf) (h3 : t.bbuf = s.bbuf.writeRun 0 bs)
    (h4 : t.kept = s.kept := by rfl) : t.MemoryOk := by
  obtain ⟨a, b, c, d, e, f, g⟩ := h
  exact ⟨h1 ▸ a, h1 ▸ b, h2 ▸ c, h2 ▸ d, h3 ▸ Memory.wf_writeRun e 0 bs,
    h3 ▸ Memory.below_writeRun f (by rw [Nat.zero_add]; exact hb), h4 ▸ g⟩

theorem State.MemoryOk.pbufRun {bs : List Byte} (h : s.MemoryOk) (hb : bs.length ≤ 2 ^ 32)
    (h1 : t.gmem = s.gmem) (h2 : t.pbuf = s.pbuf.writeRun 0 bs) (h3 : t.bbuf = s.bbuf)
    (h4 : t.kept = s.kept := by rfl) : t.MemoryOk := by
  obtain ⟨a, b, c, d, e, f, g⟩ := h
  exact ⟨h1 ▸ a, h1 ▸ b, h2 ▸ Memory.wf_writeRun c 0 bs,
    h2 ▸ Memory.below_writeRun d (by rw [Nat.zero_add]; exact hb), h3 ▸ e, h3 ▸ f, h4 ▸ g⟩

theorem State.MemoryOk.setBbuf {i : Nat} {b : Bit} (h : s.MemoryOk) (hi : i < 2 ^ 32) : (s.setBbuf i b).MemoryOk := by
  obtain ⟨h1, h2, h3, h4, h5, h6, h7⟩ := h
  exact ⟨h1, h2, h3, h4, Memory.wf_write h5 _ _, Memory.below_write h6 hi _, h7⟩

theorem State.MemoryOk.setGmem {i : Nat} {b : Byte} (h : s.MemoryOk) (hi : i < 2 ^ 40) : (s.setGmem i b).MemoryOk := by
  obtain ⟨h1, h2, h3, h4, h5, h6, h7⟩ := h
  exact ⟨Memory.wf_write h1 _ _, Memory.below_write h2 hi _, h3, h4, h5, h6, h7⟩

/-! ### The ranges -/

theorem State.RangesOk.congr (h : s.RangesOk) (h1 : t.stride = s.stride) (h2 : t.optlen = s.optlen) (h3 : t.err = s.err) :
    t.RangesOk := by
  obtain ⟨a, b, c⟩ := h
  exact ⟨h1 ▸ a, h2 ▸ b, h3 ▸ c⟩

theorem ErrKind.code_le (e : ErrKind) : e.code.toNat ≤ 7 := by
  cases e <;> decide

theorem State.RangesOk.raise (h : s.RangesOk) (e : ErrKind) : (raise e s).RangesOk :=
  ⟨h.strideGe, h.optlenLe, e.code_le⟩

theorem State.RangesOk.succeed (h : s.RangesOk) : (succeed s).RangesOk := ⟨h.strideGe, h.optlenLe, by simp⟩

/-- The root of a valid group size fits STRIDE and is at least 1 (R28). -/
theorem stride_ok (h : ValidGroupSize s.groupSize.toNat) :
    (BitVec.ofNat 16 (isqrt s.groupSize.toNat)).toNat = isqrt s.groupSize.toNat ∧ 1 ≤ isqrt s.groupSize.toNat :=
  ⟨toNat_ofNat_lt (isqrt_lt s.groupSize.isLt), isqrt_pos h.1⟩

theorem State.RangesOk.setStride (h : s.RangesOk) (hg : ValidGroupSize s.groupSize.toNat) :
    (s.setStride (isqrt s.groupSize.toNat)).RangesOk := by
  obtain ⟨h1, h2⟩ := stride_ok hg
  exact ⟨by rw [State.setStride_stride, h1]; exact h2, h.optlenLe, h.errLe⟩

theorem State.RangesOk.setTiles (h : s.RangesOk) (n : Nat) : (s.setTiles n).RangesOk :=
  ⟨h.strideGe, h.optlenLe, h.errLe⟩

theorem State.RangesOk.setParsed {l m : Nat} {o : List Byte} (h : s.RangesOk) (hm : m ≤ 64) :
    (s.setParsed l o m).RangesOk :=
  ⟨h.strideGe, by rw [State.setParsed_optlen, toNat_ofNat_lt (by omega)]; exact hm, h.errLe⟩

/-- The capacity fits TILES (R31). -/
theorem tiles_ok (s : State) (n : Nat) : (BitVec.ofNat 32 (s.capacityAt n)).toNat = s.capacityAt n :=
  toNat_ofNat_lt (capacity_lt s.height.isLt s.width.isLt)

theorem State.capacityAt_lt (s : State) (n : Nat) : s.capacityAt n < 2 ^ 32 :=
  capacity_lt s.height.isLt s.width.isLt

/-! ### The invariant -/

theorem State.IdleOk.congr (h : s.IdleOk) (h1 : t.cmd = s.cmd) (h2 : t.err = s.err) (h3 : t.mode = s.mode)
    (h4 : t.bitcnt = s.bitcnt) (h5 : t.tiles = s.tiles) (h6 : t.bitr = s.bitr) (h7 : t.stride = s.stride)
    (h8 : t.optlen = s.optlen) (h9 : t.opt = s.opt) (h10 : t.epoch = s.epoch) : t.IdleOk := by
  obtain ⟨a, b, c, d, e, f, g, i, j⟩ := h
  exact ⟨h1 ▸ a, h2 ▸ b, h3 ▸ c, h4 ▸ d, h5 ▸ e, h6 ▸ f, h7 ▸ g, h8 ▸ i, by rw [h9, h10]; exact j⟩

theorem State.Inv.of_done (hm : t.MemoryOk) (hr : t.RangesOk) (hp : t.phase = .done) : t.Inv :=
  ⟨hm, hr, fun h => absurd (hp ▸ h) (by decide), fun h => absurd (hp ▸ h) (by decide)⟩

theorem State.Inv.of_scan (hm : t.MemoryOk) (hr : t.RangesOk) (hp : t.phase = .scan) (hw : t.WalkOk) : t.Inv :=
  ⟨hm, hr, fun _ => hw, fun h => absurd (hp ▸ h) (by decide)⟩

theorem State.WalkOk.script (h : s.WalkOk) (r : List HostAction) : State.WalkOk { s with script := r } :=
  ⟨h.channelsGe, h.tilesEq, h.headerFits, h.inWalk, h.cursor, h.noError, h.encodeAhead, h.decodeAhead⟩

theorem State.Inv.script (h : s.Inv) (r : List HostAction) : State.Inv { s with script := r } :=
  ⟨h.memory.congr rfl rfl rfl, h.ranges.congr rfl rfl rfl, fun hp => (h.walk hp).script r,
    fun hp => (h.idle hp).congr rfl rfl rfl rfl rfl rfl rfl rfl rfl rfl⟩

/-- What only the host's side of the state changes keeps the invariant. -/
theorem State.Inv.hostSide (h : s.Inv) (r : List HostAction) (l : List Nat) (d : Nat) :
    State.Inv { s with script := r, readLog := l, draws := d } :=
  ⟨h.memory.congr rfl rfl rfl, h.ranges.congr rfl rfl rfl,
    fun hp => ⟨(h.walk hp).1, (h.walk hp).2, (h.walk hp).3, (h.walk hp).4, (h.walk hp).5, (h.walk hp).6, (h.walk hp).7,
      (h.walk hp).8⟩,
    fun hp => (h.idle hp).congr rfl rfl rfl rfl rfl rfl rfl rfl rfl rfl⟩

/-- The state after any reset has the invariant (R42). -/
theorem resetWith_inv (n d : Nat) (r : List HostAction) (l : List Nat) : (State.resetWith n d r l).Inv :=
  ⟨⟨rfl, rfl, rfl, rfl, rfl, rfl, rfl⟩,
    ⟨by simp [State.resetWith], by simp [State.resetWith], by simp [State.resetWith]⟩,
    fun h => absurd h (by simp [State.resetWith]), fun _ => ⟨rfl, rfl, rfl, rfl, rfl, rfl, rfl, rfl, rfl⟩⟩

/-- The reset event gives a state with the invariant, whichever phase it ends (R260, R263). -/
theorem resetEvent_inv (h : s.MemoryOk) : s.resetEvent.Inv := by
  have r := resetWith_inv (s.epoch + 1) s.draws s.script s.readLog
  unfold State.resetEvent
  cases s.phase with
  | idle => exact r
  | done => exact r
  | scan =>
    exact ⟨⟨Memory.wf_upTo h.gmemWf _, Memory.below_upTo h.gmemBelow _, rfl, rfl, rfl, rfl, wf_keepBelow h.keptWf⟩,
      ⟨r.ranges.1, r.ranges.2, r.ranges.3⟩, fun h => (nomatch h),
      fun _ => ⟨rfl, rfl, rfl, rfl, rfl, rfl, rfl, rfl, rfl⟩⟩

/-! ### The launches -/

theorem bytes2bits_inv (h : s.MemoryOk) (hr : s.RangesOk) : (bytes2bits s).Inv := by
  rcases bytes2bits_cases s with ⟨_, e⟩ | ⟨hp, e⟩ <;> rw [e]
  · exact .of_done (h.congr rfl rfl rfl) (hr.raise _) rfl
  · refine .of_done (h.bbufRun (bs := bytesToBits (s.payload s.plen.toNat)) ?_ rfl rfl rfl) ?_ rfl
    · rw [length_bytesToBits, State.length_payload]
      omega
    · exact ⟨hr.strideGe, hr.optlenLe, by simp⟩

theorem storePayload_inv {bs : List Byte} (h : s.MemoryOk) (hr : s.RangesOk) (hb : bs.length ≤ 2 ^ 32) :
    (succeed (s.storePayload bs)).Inv :=
  .of_done (h.pbufRun hb rfl rfl rfl) ⟨hr.strideGe, hr.optlenLe, by simp⟩ rfl

theorem ceil8_le_of_le {n : Nat} (h : n < 2 ^ 32) : ceil8 n ≤ 2 ^ 29 := by unfold ceil8; omega

theorem bits2bytes_inv (f : Bit) (h : s.MemoryOk) (hr : s.RangesOk) : (bits2bytes f s).Inv := by
  have hlt := s.blen.isLt
  cases f with
  | true =>
    rw [bits2bytes_fix]
    refine storePayload_inv h hr ?_
    rw [length_bitsToBytesFix, State.length_bitbuf]
    have := ceil8_le_of_le hlt
    omega
  | false =>
    rcases bits2bytes_min_cases s with ⟨_, e⟩ | ⟨_, e⟩ <;> rw [e]
    · exact .of_done (h.congr rfl rfl rfl) (hr.raise _) rfl
    · refine storePayload_inv h hr ?_
      have hw := bitWidth_bits_le (s.bitbuf s.blen.toNat)
      rw [State.length_bitbuf] at hw
      rw [length_natToBytes]
      have := ceil8_le_of_le (Nat.lt_of_le_of_lt hw hlt)
      omega

theorem hdrBuild_inv (h : s.MemoryOk) (hr : s.RangesOk) : (hdrBuild s).Inv := by
  rcases hdrBuild_cases s with ⟨_, e⟩ | ⟨_, hb, _, e⟩ <;> rw [e]
  · exact .of_done (h.congr rfl rfl rfl) (hr.raise _) rfl
  · exact .of_done (h.congr rfl rfl rfl) ⟨hr.strideGe, hr.optlenLe, by simp⟩ rfl

theorem hdrParse_inv (h : s.MemoryOk) (hr : s.RangesOk) : (hdrParse s).Inv := by
  rcases hdrParse_cases s with ⟨_, e⟩ | ⟨l, o, m, hp, e⟩ <;> rw [e]
  · exact .of_done (h.congr rfl rfl rfl) (hr.raise _) rfl
  · have hm := (parseHeader_eq_some s.length_hdrBits hp).2.2
    exact .of_done (h.congr rfl rfl rfl) ((hr.setParsed hm).succeed) rfl

theorem putBit_inv (f : Bit) (h : s.MemoryOk) (hr : s.RangesOk) : (putBit f s).Inv := by
  rcases putBit_cases s f with ⟨_, e⟩ | ⟨_, _, e⟩ | ⟨_, hg, _, e⟩ | ⟨_, hg, ht, e⟩ <;> rw [e]
  · exact .of_done (h.congr rfl rfl rfl) (hr.raise _) rfl
  · exact .of_done (h.congr rfl rfl rfl) (hr.raise _) rfl
  · exact .of_done (h.congr rfl rfl rfl) ((hr.setStride hg).raise _) rfl
  · have hm : (s.setStride (isqrt s.groupSize.toNat)).MemoryOk := h.congr rfl rfl rfl
    refine .of_done ((hm.encodeBitIntoGroup (b := f) ht).congr rfl rfl rfl) ?_ rfl
    have hf := encodeBitIntoGroup_frame s.row.toNat s.col.toNat (isqrt s.groupSize.toNat) f
      (s.setStride (isqrt s.groupSize.toNat))
    rw [hf]
    exact (hr.setStride hg).succeed.congr rfl rfl rfl

theorem getBit_inv (h : s.MemoryOk) (hr : s.RangesOk) : (getBit s).Inv := by
  rcases getBit_cases s with ⟨_, e⟩ | ⟨_, e⟩ <;> rw [e]
  · exact .of_done (h.congr rfl rfl rfl) (hr.raise _) rfl
  · exact .of_done (h.congr rfl rfl rfl) (hr.succeed.congr rfl rfl rfl) rfl

theorem encodeLaunch_inv (h : s.MemoryOk) (hr : s.RangesOk) : (encodeLaunch s).Inv := by
  rcases encodeLaunch_cases s with ⟨_, e⟩ | ⟨_, _, e⟩ | ⟨_, hg, _, e⟩ | ⟨hc, hg, hf, hb, _, e⟩ <;> rw [e]
  · exact .of_done (h.congr rfl rfl rfl) (hr.raise _) rfl
  · exact .of_done (h.congr rfl rfl rfl) (hr.raise _) rfl
  · exact .of_done (h.congr rfl rfl rfl) (((hr.setStride hg).setTiles _).raise _) rfl
  · have hcap := s.capacityAt_lt (isqrt s.groupSize.toNat)
    obtain ⟨hst, hst1⟩ := stride_ok hg
    have htl := tiles_ok s (isqrt s.groupSize.toNat)
    have hl : (BitVec.ofNat 213 (8 * s.plen.toNat)).toNat = 8 * s.plen.toNat := by
      refine toNat_ofNat_lt ?_
      have := s.plen.isLt
      omega
    rw [encodeStart_eq]
    refine .of_scan (h.bbufRun (bs := bytesToBits (s.payload s.plen.toNat)) ?_ rfl rfl rfl) ?_ rfl ?_
    · rw [length_bytesToBits, State.length_payload]
      omega
    · exact ⟨by simp [hst, hst1], hr.optlenLe, by simp⟩
    · refine ⟨hc, ?_, ?_, ?_, ?_, rfl, fun _ => ?_, fun h => by cases h⟩
      · simp only [State.setTiles_tiles, State.setTiles_stride, State.setStride_stride, hst, htl]
        rfl
      · simp only [State.setTiles_tiles, htl]
        omega
      · simp only [State.setTiles_tiles, htl, BitVec.toNat_ofNat, Nat.zero_mod]
        omega
      · simp [State.tilePos, Machine.tilePos]
      · simp only [State.setTiles_tiles, htl, hl, BitVec.toNat_ofNat, Nat.zero_mod]
        omega

theorem decodeLaunch_inv (h : s.MemoryOk) (hr : s.RangesOk) : (decodeLaunch s).Inv := by
  rcases decodeLaunch_cases s with ⟨_, e⟩ | ⟨_, _, e⟩ | ⟨_, hg, _, e⟩ | ⟨hc, hg, hf, e⟩ <;> rw [e]
  · exact .of_done (h.congr rfl rfl rfl) (hr.raise _) rfl
  · exact .of_done (h.congr rfl rfl rfl) (hr.raise _) rfl
  · exact .of_done (h.congr rfl rfl rfl) (((hr.setStride hg).setTiles _).raise _) rfl
  · obtain ⟨hst, hst1⟩ := stride_ok hg
    have htl := tiles_ok s (isqrt s.groupSize.toNat)
    rw [decodeStart_eq]
    refine .of_scan (h.congr rfl rfl rfl) ?_ rfl ?_
    · exact ⟨by simp [hst, hst1], hr.optlenLe, by simp⟩
    · refine ⟨hc, ?_, ?_, ?_, ?_, rfl, fun h => (by cases h), fun _ hn => ?_⟩
      · simp only [State.setTiles_tiles, State.setTiles_stride, State.setStride_stride, hst, htl]
        rfl
      · simp only [State.setTiles_tiles, htl]
        exact hf
      · simp only [State.setTiles_tiles, htl, BitVec.toNat_ofNat, Nat.zero_mod]
        omega
      · simp [State.tilePos, Machine.tilePos]
      · simp only [BitVec.toNat_ofNat, Nat.zero_mod] at hn
        omega

/-- Every launch leaves a state with the invariant, whatever its outcome (R220). -/
theorem exec_inv {i : Instr} (h : s.MemoryOk) (hr : s.RangesOk) (e : exec i s = .next t) : t.Inv := by
  cases i <;> cases e
  · exact .of_done (h.congr rfl rfl rfl) hr.succeed rfl
  · exact encodeLaunch_inv h hr
  · exact decodeLaunch_inv h hr
  · exact hdrBuild_inv h hr
  · exact hdrParse_inv h hr
  · exact putBit_inv _ h hr
  · exact getBit_inv h hr
  · exact bytes2bits_inv h hr
  · exact bits2bytes_inv _ h hr

theorem launch_inv {w : Word} (h : s.MemoryOk) (hr : s.RangesOk) (e : launch w s = .next t) : t.Inv := by
  unfold launch at e
  split at e
  · exact exec_inv (s := { s with cmd := w }) (h.congr rfl rfl rfl) (hr.congr rfl rfl rfl) e
  · cases e
    exact .of_done (h.congr rfl rfl rfl) ⟨hr.strideGe, hr.optlenLe, ErrKind.code_le _⟩ rfl

end Sys2Proof.Machine
end

