-- ==== Sys2Proof/Laws/Walk.lean ====
section
/-!
SUPPORT. The tile steps of a walk in progress (spec/43_encoder_and_tile_walk.md rules R173, R178, R179 and
spec/44_decoder.md rules R203 to R205): from a state with the walk invariant no tile step faults, and each field it leaves is
given; then, that each tile step and each host access keeps the invariant.
-/

namespace Sys2Proof.Machine

variable {s t : State}

theorem State.WalkOk.inWalk' (h : s.WalkOk) : s.bitcnt.toNat < s.capacityAt s.stride.toNat := by
  have := h.inWalk
  rw [h.tilesEq] at this
  exact this

theorem State.WalkOk.rowEq (h : s.WalkOk) : s.row.toNat = (s.tilePos s.bitcnt.toNat).1 := congrArg Prod.fst h.cursor

theorem State.WalkOk.colEq (h : s.WalkOk) : s.col.toNat = (s.tilePos s.bitcnt.toNat).2 := congrArg Prod.snd h.cursor

/-- The tile a walk visits lies in the grid (R172, R179). -/
theorem State.WalkOk.tileInGrid (h : s.WalkOk) : s.TileInGrid s.row.toNat s.col.toNat s.stride.toNat := by
  have hg := tilePos_inGrid h.inWalk'
  rw [← State.tilePos, ← h.cursor] at hg
  exact hg

/-- The anchor sample a walk visits lies in the grid (R203). -/
theorem State.WalkOk.anchorInGrid (h : s.WalkOk) (hs : 1 ≤ s.stride.toNat) : s.InGrid s.row.toNat s.col.toNat 0 := by
  have hg := h.tileInGrid
  exact ⟨by have := hg.1; omega, by have := hg.2; omega, h.channelsGe⟩

/-- BITCNT does not wrap (R30). -/
theorem State.WalkOk.count_lt (h : s.WalkOk) : s.bitcnt.toNat + 1 < 2 ^ 32 := by
  have h1 := h.inWalk'
  have h2 := s.capacityAt_lt s.stride.toNat
  omega

theorem State.WalkOk.countBit_toNat (h : s.WalkOk) :
    (BitVec.ofNat 32 (s.bitcnt.toNat + 1)).toNat = s.bitcnt.toNat + 1 := toNat_ofNat_lt h.count_lt

/-- The cursor's advance inside the walk (R173). -/
theorem State.WalkOk.next (h : s.WalkOk) (hs : 1 ≤ s.stride.toNat) (hn : s.bitcnt.toNat + 1 < s.tiles.toNat) :
    nextTile s.width.toNat s.stride.toNat s.row.toNat s.col.toNat = s.tilePos (s.bitcnt.toNat + 1) ∧
      (s.tilePos (s.bitcnt.toNat + 1)).1 < 2 ^ 16 ∧ (s.tilePos (s.bitcnt.toNat + 1)).2 < 2 ^ 16 := by
  rw [h.tilesEq] at hn
  have e := nextTile_tilePos (h := s.height.toNat) (w := s.width.toNat) hs hn
  have hg := tilePos_inGrid hn
  have h1 := s.height.isLt
  have h2 := s.width.isLt
  refine ⟨?_, ?_, ?_⟩
  · rw [h.rowEq, h.colEq]
    exact e
  · unfold State.tilePos
    omega
  · unfold State.tilePos
    omega

/-- The last tile step of an ENCODE (R178). -/
def State.encodeLast (s : State) : Prop := s.bitcnt.toNat + 1 = 1024 + s.len.toNat

/-- A tile step of an ENCODE walk: it does not fault, it writes its tile and counts its bit. The last one ends the walk. -/
theorem encodeTile_last (h : s.WalkOk) (hl : s.encodeLast) :
    encodeTileStep s = .next { encodeBitIntoGroup s.row.toNat s.col.toNat s.stride.toNat (s.stream s.bitcnt.toNat) s with
      bitcnt := BitVec.ofNat 32 (s.bitcnt.toNat + 1), phase := .done } := by
  have hm := Nat.mod_eq_of_lt h.count_lt
  have hf := encodeBitIntoGroup_frame s.row.toNat s.col.toNat s.stride.toNat (s.stream s.bitcnt.toNat) s
  rw [encodeTileStep, if_pos h.tileInGrid]
  rcases encodeTile_cases s with ⟨-, e⟩ | ⟨hn, -⟩
  · rw [e, hf]
    rfl
  · exact absurd (hm.trans hl) hn

/-- A tile step of an ENCODE walk that is not the last: the cursor goes to the next tile. -/
theorem encodeTile_more (h : s.WalkOk) (hs : 1 ≤ s.stride.toNat) (hl : ¬ s.encodeLast)
    (hn : s.bitcnt.toNat + 1 < s.tiles.toNat) :
    encodeTileStep s = .next { encodeBitIntoGroup s.row.toNat s.col.toNat s.stride.toNat (s.stream s.bitcnt.toNat) s with
      bitcnt := BitVec.ofNat 32 (s.bitcnt.toNat + 1), row := BitVec.ofNat 16 (s.tilePos (s.bitcnt.toNat + 1)).1,
      col := BitVec.ofNat 16 (s.tilePos (s.bitcnt.toNat + 1)).2 } := by
  have hm := Nat.mod_eq_of_lt h.count_lt
  have hf := encodeBitIntoGroup_frame s.row.toNat s.col.toNat s.stride.toNat (s.stream s.bitcnt.toNat) s
  have hnx := (h.next hs hn).1
  rw [encodeTileStep, if_pos h.tileInGrid]
  rcases encodeTile_cases s with ⟨hl', -⟩ | ⟨-, e⟩
  · exact absurd (hm.symm.trans hl') hl
  · rw [e, hf, ← hnx]
    rfl

/-- An ENCODE walk's tile step keeps the invariant and does not fault (R177, R179). -/
theorem encodeTileStep_inv (h : s.Inv) (hp : s.phase = .scan) (hmode : s.mode = .enc) :
    ∃ t, encodeTileStep s = .next t ∧ t.Inv := by
  have hw := h.walk hp
  have hs := h.ranges.strideGe
  have hm := h.memory.encodeBitIntoGroup (b := s.stream s.bitcnt.toNat) hw.tileInGrid
  have hf := encodeBitIntoGroup_frame s.row.toNat s.col.toNat s.stride.toNat (s.stream s.bitcnt.toNat) s
  obtain ⟨ha, hb⟩ := hw.encodeAhead hmode
  by_cases hl : s.encodeLast
  · refine ⟨_, encodeTile_last hw hl, .of_done (hm.congr rfl rfl rfl) ?_ rfl⟩
    rw [hf]
    exact h.ranges.congr rfl rfl rfl
  · have hn : s.bitcnt.toNat + 1 < s.tiles.toNat := by
      unfold State.encodeLast at hl
      omega
    obtain ⟨-, hr, hc⟩ := hw.next hs hn
    refine ⟨_, encodeTile_more hw hs hl hn, .of_scan (hm.congr rfl rfl rfl) ?_ ?_ ?_⟩
    · rw [hf]
      exact h.ranges.congr rfl rfl rfl
    · rw [hf]
      exact hp
    · rw [hf]
      have hcnt := hw.countBit_toNat
      refine ⟨hw.channelsGe, hw.tilesEq, hw.headerFits, ?_, ?_, hw.noError, fun _ => ?_, fun h => ?_⟩
      · simp only [hcnt]
        exact hn
      · simp only [hcnt, toNat_ofNat_lt hr, toNat_ofNat_lt hc]
        rfl
      · simp only [hcnt]
        unfold State.encodeLast at hl
        omega
      · exact absurd (hmode.symm.trans h) (by decide)

/-! ### DECODE -/

/-- The bit a DECODE tile step reads (R203). -/
def State.visitBit (s : State) : Bit := decodeBitFromGroup s.row.toNat s.col.toNat s

/-- The state in which a DECODE tile step has stored and counted its bit (R203). -/
def State.visited (s : State) : State := (s.collect s.visitBit).countBit

theorem State.visited_header (hb : s.bitcnt.toNat < 1024) :
    s.visited = { s with hdr := setHdrBit s.hdr s.bitcnt.toNat s.visitBit,
                         bitcnt := BitVec.ofNat 32 (s.bitcnt.toNat + 1) } := by
  have e : s.collect s.visitBit = s.setHdr s.bitcnt.toNat s.visitBit := if_pos hb
  rw [State.visited, e]
  rfl

theorem State.visited_payload (hb : 1024 ≤ s.bitcnt.toNat) :
    s.visited = { s with bbuf := s.bbuf.write (s.bitcnt.toNat - 1024) s.visitBit,
                         bitcnt := BitVec.ofNat 32 (s.bitcnt.toNat + 1) } := by
  have e : s.collect s.visitBit = s.setBbuf (s.bitcnt.toNat - 1024) s.visitBit := if_neg (Nat.not_lt.2 hb)
  rw [State.visited, e]
  rfl

/-- A DECODE tile step does not fault (R203). -/
theorem decodeTileStep_eq (h : s.WalkOk) (hs : 1 ≤ s.stride.toNat) : decodeTileStep s = .next (decodeTile s) :=
  if_pos (h.anchorInGrid hs)

/-- A DECODE tile step that does not complete the header (R203). -/
theorem decodeTile_plain (hc : s.visited.bitcnt.toNat ≠ 1024) : decodeTile s = decodeNext s.visited := if_neg hc

/-- The DECODE tile step that completes the header, and fails there (R204). -/
theorem decodeTile_headerFails (hc : s.visited.bitcnt.toNat = 1024) (hd : (headerComplete s.visited).phase = .done) :
    decodeTile s = headerComplete s.visited := by
  show (if s.visited.bitcnt.toNat = Config.hdrBits then _ else _) = _
  rw [if_pos (show s.visited.bitcnt.toNat = Config.hdrBits from hc)]
  exact if_pos hd

/-- The DECODE tile step that completes the header, and goes on (R204). -/
theorem decodeTile_headerOk (hc : s.visited.bitcnt.toNat = 1024) (hd : (headerComplete s.visited).phase ≠ .done) :
    decodeTile s = decodeNext (headerComplete s.visited) := by
  show (if s.visited.bitcnt.toNat = Config.hdrBits then _ else _) = _
  rw [if_pos (show s.visited.bitcnt.toNat = Config.hdrBits from hc)]
  exact if_neg hd

theorem decodeNext_last (h : 1024 ≤ s.bitcnt.toNat) (hl : s.bitcnt.toNat = 1024 + s.len.toNat) :
    decodeNext s = finalise s := if_pos ⟨h, hl⟩

theorem decodeNext_more (h : ¬ (1024 ≤ s.bitcnt.toNat ∧ s.bitcnt.toNat = 1024 + s.len.toNat)) :
    decodeNext s = s.advance := if_neg h

/-- Finalising keeps the invariant's parts (R205). -/
theorem finalise_inv (h : s.MemoryOk) (hr : s.RangesOk) (hl : s.len.toNat < 2 ^ 32) : (finalise s).Inv := by
  rw [finalise_eq]
  refine .of_done (h.pbufRun (bs := bitsToBytesFix (s.bitbuf s.len.toNat)) ?_ rfl rfl rfl) (hr.congr rfl rfl rfl) rfl
  rw [length_bitsToBytesFix, State.length_bitbuf]
  have := ceil8_le_of_le hl
  omega

/-- The advance of a walk whose bit has just been counted (R173, R179): `s` before the step, `t` after the count. -/
theorem advance_inv (hw : s.WalkOk) (hs : 1 ≤ s.stride.toNat) (hn : s.bitcnt.toNat + 1 < s.tiles.toNat)
    (hm : t.MemoryOk) (hr : t.RangesOk) (hp : t.phase = .scan) (hmode : t.mode = .dec)
    (e1 : t.height = s.height) (e2 : t.width = s.width) (e3 : t.channels = s.channels) (e4 : t.stride = s.stride)
    (e5 : t.row = s.row) (e6 : t.col = s.col) (e7 : t.tiles = s.tiles) (e8 : t.err = s.err)
    (e9 : t.bitcnt.toNat = s.bitcnt.toNat + 1)
    (hd : 1024 ≤ s.bitcnt.toNat + 1 →
      s.bitcnt.toNat + 1 < 1024 + t.len.toNat ∧ 1024 + t.len.toNat ≤ s.tiles.toNat) : t.advance.Inv := by
  obtain ⟨hx, hrow, hcol⟩ := hw.next hs hn
  have hx' : nextTile t.width.toNat t.stride.toNat t.row.toNat t.col.toNat = s.tilePos (s.bitcnt.toNat + 1) := by
    rw [e2, e4, e5, e6, hx]
  refine .of_scan (hm.congr rfl rfl rfl) (hr.congr rfl rfl rfl) hp ?_
  refine ⟨?_, ?_, ?_, ?_, ?_, ?_, fun h => ?_, fun _ h => ?_⟩
  · simpa [e3] using hw.channelsGe
  · simpa [e7, e4, State.capacityAt, e1, e2] using hw.tilesEq
  · simpa [e7] using hw.headerFits
  · simpa [e7, e9] using hn
  · rw [State.advance_row, State.advance_col, hx', toNat_ofNat_lt hrow, toNat_ofNat_lt hcol, State.advance_bitcnt, e9]
    simp only [State.tilePos, State.advance_width, State.advance_stride, e2, e4]
  · simpa [e8] using hw.noError
  · exact absurd (hmode.symm.trans h) (by decide)
  · have h' : 1024 ≤ s.bitcnt.toNat + 1 := by simpa [e9] using h
    simpa [e7, e9] using hd h'

/-- A DECODE walk's tile step keeps the invariant and does not fault (R179, R203). -/
theorem decodeTileStep_inv (h : s.Inv) (hp : s.phase = .scan) (hmode : s.mode = .dec) :
    ∃ t, decodeTileStep s = .next t ∧ t.Inv := by
  have hw := h.walk hp
  have hs := h.ranges.strideGe
  have hcnt := hw.countBit_toNat
  refine ⟨_, decodeTileStep_eq hw hs, ?_⟩
  rcases Nat.lt_or_ge s.bitcnt.toNat 1024 with hb | hb
  · have hv := State.visited_header hb
    have hvm : s.visited.MemoryOk := by rw [hv]; exact h.memory.congr rfl rfl rfl
    have hvr : s.visited.RangesOk := by rw [hv]; exact h.ranges.congr rfl rfl rfl
    have hvc : s.visited.bitcnt.toNat = s.bitcnt.toNat + 1 := by rw [hv]; exact hcnt
    have hvp : s.visited.phase = .scan := by rw [hv]; exact hp
    have hvmode : s.visited.mode = .dec := by rw [hv]; exact hmode
    have hvt : s.visited.tiles = s.tiles := by rw [hv]
    by_cases hc : s.bitcnt.toNat + 1 = 1024
    · have hc' : s.visited.bitcnt.toNat = 1024 := hvc.trans hc
      rcases headerComplete_cases s.visited with ⟨_, e⟩ | ⟨l, o, m, hpar, _, e⟩ | ⟨l, o, m, hpar, hfit, e⟩
      · rw [decodeTile_headerFails hc' (by rw [e]; rfl), e]
        exact .of_done (hvm.congr rfl rfl rfl) (hvr.raise _) rfl
      · rw [decodeTile_headerFails hc' (by rw [e]; rfl), e]
        exact .of_done (hvm.congr rfl rfl rfl)
          ((hvr.setParsed (parseHeader_eq_some s.visited.length_hdrBits hpar).2.2).raise _) rfl
      · have hpo := parseHeader_eq_some s.visited.length_hdrBits hpar
        rw [decodeTile_headerOk hc' (by rw [e, State.setParsed_phase, hvp]; decide), e]
        rw [hvt] at hfit
        have htl := s.tiles.isLt
        have hlen : (s.visited.setParsed l o m).len.toNat = l := by
          rw [State.setParsed_len]
          exact toNat_ofNat_lt (by omega)
        have hm2 : (s.visited.setParsed l o m).MemoryOk := hvm.congr rfl rfl rfl
        have hr2 := hvr.setParsed (l := l) (o := o) hpo.2.2
        by_cases hz : l = 0
        · rw [decodeNext_last (by rw [State.setParsed_bitcnt]; omega) (by rw [State.setParsed_bitcnt, hlen]; omega)]
          exact finalise_inv hm2 hr2 (by rw [hlen]; omega)
        · rw [decodeNext_more (by rw [State.setParsed_bitcnt, hlen]; omega)]
          refine advance_inv hw hs (by omega) hm2 hr2 hvp hvmode ?_ ?_ ?_ ?_ ?_ ?_ ?_ ?_ hvc (fun _ => ?_)
          all_goals first | (rw [hlen]; omega) | (rw [hv]; rfl)
    · have hc' : s.visited.bitcnt.toNat ≠ 1024 := by rw [hvc]; exact hc
      have hf := hw.headerFits
      rw [decodeTile_plain hc', decodeNext_more (by rw [hvc]; omega)]
      refine advance_inv hw hs (by omega) hvm hvr hvp hvmode ?_ ?_ ?_ ?_ ?_ ?_ ?_ ?_ hvc (fun hx => ?_)
      all_goals first | omega | rw [hv]
  · have hv := State.visited_payload hb
    obtain ⟨ha, hbd⟩ := hw.decodeAhead hmode hb
    have hlt := hw.count_lt
    have hvm : s.visited.MemoryOk := by
      rw [hv]
      have h0 : (s.setBbuf (s.bitcnt.toNat - 1024) s.visitBit).MemoryOk := h.memory.setBbuf (by omega)
      exact h0.congr rfl rfl rfl
    have hvr : s.visited.RangesOk := by rw [hv]; exact h.ranges.congr rfl rfl rfl
    have hvc : s.visited.bitcnt.toNat = s.bitcnt.toNat + 1 := by rw [hv]; exact hcnt
    have hvp : s.visited.phase = .scan := by rw [hv]; exact hp
    have hvmode : s.visited.mode = .dec := by rw [hv]; exact hmode
    have hvl : s.visited.len = s.len := by rw [hv]
    have htl := s.tiles.isLt
    rw [decodeTile_plain (by rw [hvc]; omega)]
    by_cases hl : s.bitcnt.toNat + 1 = 1024 + s.len.toNat
    · rw [decodeNext_last (by rw [hvc]; omega) (by rw [hvc, hvl]; exact hl)]
      exact finalise_inv hvm hvr (by rw [hvl]; omega)
    · rw [decodeNext_more (by rw [hvc, hvl]; omega)]
      refine advance_inv hw hs (by omega) hvm hvr hvp hvmode ?_ ?_ ?_ ?_ ?_ ?_ ?_ ?_ hvc (fun hx => ?_)
      all_goals first | (rw [hvl]; omega) | rw [hv]

/-- A tile step of a walk keeps the invariant and does not fault. -/
theorem tileStep_inv (h : s.Inv) (hp : s.phase = .scan) : ∃ t, tileStep s = .next t ∧ t.Inv := by
  unfold tileStep
  cases hm : s.mode with
  | enc => exact encodeTileStep_inv h hp hm
  | dec => exact decodeTileStep_inv h hp hm

/-! ### The host -/

theorem State.Inv.returns (h : s.Inv) (v : Nat) : (s.returns v).Inv := h.hostSide s.script (v :: s.readLog) s.draws

/-- A host access during a walk keeps the invariant (R71). -/
theorem hostAccessInScan_inv (a : HostAction) (h : s.Inv) : (hostAccessInScan a s).Inv := by
  cases a
  case rd r => exact h.returns _
  case gr => exact h.hostSide _ _ _
  case gmr => exact h.hostSide _ _ _
  case pr => exact h.hostSide _ _ _
  case br => exact h.hostSide _ _ _
  case reset => exact resetEvent_inv h.memory
  all_goals exact h

/-- A host write to a register at rest keeps the invariant (R41). -/
theorem writeReg_inv (r : Reg) (v : Nat) (h : s.Inv) (hp : s.phase ≠ .scan) : (s.writeReg r v).Inv := by
  have key : ∀ t : State, t.gmem = s.gmem → t.pbuf = s.pbuf → t.bbuf = s.bbuf → t.stride = s.stride →
      t.optlen = s.optlen → t.err = s.err → t.phase = s.phase → t.cmd = s.cmd → t.mode = s.mode →
      t.bitcnt = s.bitcnt → t.tiles = s.tiles → t.bitr = s.bitr → t.opt = s.opt → t.epoch = s.epoch →
      t.kept = s.kept → t.Inv := by
    intro t h1 h2 h3 h4 h5 h6 h7 h8 h9 h10 h11 h12 h13 h14 h15
    refine ⟨h.memory.congr h1 h2 h3 h15, h.ranges.congr h4 h5 h6, fun hs => absurd (h7 ▸ hs) hp, fun hi => ?_⟩
    exact (h.idle (h7 ▸ hi)).congr h8 h6 h9 h10 h11 h12 h4 h5 h13 h14
  cases r <;> exact key _ rfl rfl rfl rfl rfl rfl rfl rfl rfl rfl rfl rfl rfl rfl rfl

/-- A change to the memories alone, outside a walk, keeps the invariant. -/
theorem State.Inv.memories (h : s.Inv) (hp : s.phase ≠ .scan) {g : Memory Byte} {p : Memory Byte} {b : Memory Bit}
    (hm : State.MemoryOk { s with gmem := g, pbuf := p, bbuf := b }) :
    State.Inv { s with gmem := g, pbuf := p, bbuf := b } :=
  ⟨hm, h.ranges.congr rfl rfl rfl, fun hs => absurd hs hp,
    fun hi => (h.idle hi).congr rfl rfl rfl rfl rfl rfl rfl rfl rfl rfl⟩

/-- A host access at rest keeps the invariant (R41, R71). -/
theorem hostAccess_inv {a : HostAction} (h : s.Inv) (hp : s.phase ≠ .scan) (e : hostAccess a s = .next t) : t.Inv := by
  have hg : ∀ x v, x < 2 ^ 40 → (s.setGmem x v).Inv := fun x v hx => h.memories hp (h.memory.setGmem hx)
  cases a
  case wr r v => cases e; exact writeReg_inv r v h hp
  case rd r => cases e; exact h.returns _
  case gw r c k v =>
    simp only [hostAccess] at e
    split at e
    · rename_i hi
      cases e
      refine hg _ _ ?_
      exact Nat.lt_of_lt_of_le (gridAddr_lt hi.1 hi.2.1 hi.2.2) gridSize_le
    · cases e
  case gr r c k =>
    simp only [hostAccess] at e
    split at e
    · cases e; exact h.returns _
    · cases e
  case gmw a v => cases e; exact hg _ _ a.isLt
  case gmr a => cases e; exact h.returns _
  case pw i v =>
    cases e
    obtain ⟨h1, h2, h3, h4, h5, h6, h7⟩ := h.memory
    exact h.memories hp ⟨h1, h2, Memory.wf_write h3 _ _, Memory.below_write h4 i.isLt _, h5, h6, h7⟩
  case pr i => cases e; exact h.returns _
  case bw i b => cases e; exact h.memories hp (h.memory.setBbuf i.isLt)
  case br i => cases e; exact h.returns _
  case wait => cases e; exact h
  case pause => cases e; exact h
  case reset => cases e; exact resetEvent_inv h.memory

end Sys2Proof.Machine
end

