-- ==== Sys2Proof/Laws/Run.lean ====
section
/-!
SUPPORT. Whole walks (spec/43_encoder_and_tile_walk.md rules R178 to R180, spec/44_decoder.md rules R200 to R205): from a walk
just launched, the state after any number of its tile steps and at its end.
-/

namespace Sys2Proof.Machine
variable {s t u : State} {k q : Nat}

/-- The state with the cursor at tile `k` of the walk (R179). -/
def State.atTile (s : State) (k : Nat) : State :=
  { s with bitcnt := BitVec.ofNat 32 k, row := BitVec.ofNat 16 (s.tilePos k).1, col := BitVec.ofNat 16 (s.tilePos k).2 }

/-- A walk just launched (R176, R201): at tile 0, its tiles counted, its stride a stride. -/
structure State.Launched (s : State) : Prop where
  scan : s.phase = .scan
  channelsGe : 1 ≤ s.channels.toNat
  tilesEq : s.tiles.toNat = s.capacityAt s.stride.toNat
  headerFits : 1024 ≤ s.tiles.toNat
  strideGe : 1 ≤ s.stride.toNat
  noError : s.err = 0#8
  bitcntZero : s.bitcnt = 0#32
  rowZero : s.row = 0#16
  colZero : s.col = 0#16

theorem State.Launched.atTile_zero (h : s.Launched) : s.atTile 0 = s := by
  have key : ∀ b r c, s.bitcnt = b → s.row = r → s.col = c → { s with bitcnt := b, row := r, col := c } = s := by
    rintro _ _ _ rfl rfl rfl
    rfl
  have e : s.tilePos 0 = (0, 0) := by simp [State.tilePos, Machine.tilePos]
  rw [State.atTile, e]
  exact key _ _ _ h.bitcntZero h.rowZero h.colZero

theorem State.Launched.bounds (h : s.Launched) (hk : k < s.tiles.toNat) :
    k + 1 < 2 ^ 32 ∧ (s.tilePos k).1 < 2 ^ 16 ∧ (s.tilePos k).2 < 2 ^ 16 := by
  have h0 := s.capacityAt_lt s.stride.toNat
  rw [h.tilesEq] at hk
  have hg := tilePos_inGrid hk
  have h1 := s.height.isLt
  have h2 := s.width.isLt
  have h4 := h.strideGe
  unfold State.tilePos
  omega

theorem State.Launched.walkOk (h : s.Launched) (hk : k < s.tiles.toNat)
    (he : s.mode = .enc → k < 1024 + s.len.toNat ∧ 1024 + s.len.toNat ≤ s.tiles.toNat)
    (hd : s.mode = .dec → 1024 ≤ k → k < 1024 + s.len.toNat ∧ 1024 + s.len.toNat ≤ s.tiles.toNat) :
    (s.atTile k).WalkOk := by
  obtain ⟨h1, h2, h3⟩ := h.bounds hk
  have e : (s.atTile k).bitcnt.toNat = k := toNat_ofNat_lt (by omega)
  refine ⟨h.channelsGe, h.tilesEq, h.headerFits, by rw [e]; exact hk, ?_, h.noError, fun hm => by rw [e]; exact he hm,
    fun hm => by rw [e]; exact hd hm⟩
  rw [e]
  exact congrArg₂ Prod.mk (toNat_ofNat_lt h2) (toNat_ofNat_lt h3)

theorem run_concat {n : Nat} (h1 : run n s = .next u) (h2 : step u = .next t) : run (n + 1) s = .next t := by
  rw [run_add_of_run h1, run_succ_of_step h2]
  rfl

/-! ### ENCODE -/

/-- The grid after tiles `0` to `k - 1` of the walk of `s` have been written, `u` against `s` (R153, R180). -/
structure State.Wrote (s : State) (k : Nat) (u : State) : Prop where
  inside : ∀ i, i < k → ∀ a, s.InTile s.stride.toNat i a → u.gmemAt a = setParity (s.gmemAt a) (s.stream i)
  outside : ∀ a, (∀ i, i < k → ¬ s.InTile s.stride.toNat i a) → u.gmemAt a = s.gmemAt a

theorem State.Launched.wrote_succ (h : s.Launched) (hk : k < s.tiles.toNat) (hw : s.Wrote k u)
    (h1 : ∀ a, s.InTile s.stride.toNat k a → t.gmemAt a = setParity (u.gmemAt a) (s.stream k))
    (h2 : ∀ a, ¬ s.InTile s.stride.toNat k a → t.gmemAt a = u.gmemAt a) : s.Wrote (k + 1) t := by
  rw [h.tilesEq] at hk
  refine ⟨fun i hi a ha => ?_, fun a ha => ?_⟩
  · by_cases hik : i = k
    · rw [hik] at ha ⊢
      rw [h1 a ha, hw.outside a]
      intro j hj hin
      exact absurd (tile_disjoint (Nat.lt_trans hj hk) hk hin ha) (Nat.ne_of_lt hj)
    · rw [h2 a, hw.inside i (by omega) a ha]
      intro hin
      exact hik (tile_disjoint (h := s.height.toNat) (Nat.lt_of_lt_of_le (show i < k by omega) (Nat.le_of_lt hk)) hk ha hin)
  · rw [h2 a (ha k (by omega)), hw.outside a fun i hi => ha i (by omega)]

/-- An ENCODE walk after `k` of its tile steps, the last one excepted. -/
structure State.EncodeAt (s : State) (k : Nat) (u : State) : Prop where
  frame : u = { s.atTile k with gmem := u.gmem }
  wrote : s.Wrote k u

/-- One tile step of an ENCODE walk (R178). -/
theorem State.Launched.encode_step (h : s.Launched) (hm : s.mode = .enc) (hs : s.SequencerMoves)
    (hk : k < 1024 + s.len.toNat) (hN : 1024 + s.len.toNat ≤ s.tiles.toNat) (hu : s.EncodeAt k u) :
    (k + 1 < 1024 + s.len.toNat → ∃ t, step u = .next t ∧ s.EncodeAt (k + 1) t) ∧
    (k + 1 = 1024 + s.len.toNat → ∃ t, step u = .next t ∧ s.Wrote (k + 1) t ∧
      t = { s.atTile k with gmem := t.gmem, bitcnt := BitVec.ofNat 32 (k + 1), phase := .done }) := by
  have hkt : k < s.tiles.toNat := by omega
  obtain ⟨b1, b2, b3⟩ := h.bounds hkt
  obtain ⟨hf, hwr⟩ := hu
  have hw : u.WalkOk := by
    have := h.walkOk hkt (fun _ => ⟨hk, hN⟩) (fun hd => by rw [hm] at hd; cases hd)
    rw [hf]
    exact ⟨this.1, this.2, this.3, this.4, this.5, this.6, this.7, this.8⟩
  have e1 : u.bitcnt.toNat = k := by rw [hf]; exact toNat_ofNat_lt (by omega)
  have e2 : u.row.toNat = (s.tilePos k).1 := by rw [hf]; exact toNat_ofNat_lt b2
  have e3 : u.col.toNat = (s.tilePos k).2 := by rw [hf]; exact toNat_ofNat_lt b3
  have e4 : u.stride = s.stride := by rw [hf]; rfl
  have e5 : u.len = s.len := by rw [hf]; rfl
  have e6 : u.tiles = s.tiles := by rw [hf]; rfl
  have e7 : u.width = s.width := by rw [hf]; rfl
  have e8 : u.channels = s.channels := by rw [hf]; rfl
  have e9 : u.stream k = s.stream k := by rw [hf]; rfl
  have e10 : u.tilePos (k + 1) = s.tilePos (k + 1) := by rw [hf]; rfl
  have ht : step u = encodeTileStep u := by
    rw [step_tile (show u.SequencerMoves by rw [hf]; exact hs), tileStep, show u.mode = .enc by rw [hf]; exact hm]
  have hfr := encodeBitIntoGroup_frame u.row.toNat u.col.toNat u.stride.toNat (u.stream u.bitcnt.toNat) u
  have hin : ∀ a, s.InTile s.stride.toNat k a →
      (encodeBitIntoGroup u.row.toNat u.col.toNat u.stride.toNat (u.stream u.bitcnt.toNat) u).gmemAt a =
        setParity (u.gmemAt a) (s.stream k) := by
    intro a ha
    rw [gmemAt_encodeBitIntoGroup_mem, e1, e9]
    rw [e2, e3, e4, e7, e8]
    exact ha
  have hout : ∀ a, ¬ s.InTile s.stride.toNat k a →
      (encodeBitIntoGroup u.row.toNat u.col.toNat u.stride.toNat (u.stream u.bitcnt.toNat) u).gmemAt a =
        u.gmemAt a := by
    intro a ha
    rw [gmemAt_encodeBitIntoGroup_not_mem]
    rw [e2, e3, e4, e7, e8]
    exact ha
  refine ⟨fun hl => ?_, fun hl => ?_⟩
  · have hst := encodeTile_more hw (by rw [e4]; exact h.strideGe) (by unfold State.encodeLast; rw [e1, e5]; omega)
      (by rw [e1, e6]; omega)
    refine ⟨_, ht.trans hst, ?_, h.wrote_succ hkt hwr hin hout⟩
    rw [hfr]
    simp only [e1, e10]
    generalize (encodeBitIntoGroup u.row.toNat u.col.toNat u.stride.toNat (u.stream k) u).gmem = g
    rw [hf]
    rfl
  · have hst := encodeTile_last hw (by unfold State.encodeLast; rw [e1, e5]; omega)
    refine ⟨_, ht.trans hst, h.wrote_succ hkt hwr hin hout, ?_⟩
    rw [hfr]
    simp only [e1]
    generalize (encodeBitIntoGroup u.row.toNat u.col.toNat u.stride.toNat (u.stream k) u).gmem = g
    rw [hf]

/-- `k` tile steps of an ENCODE walk, fewer than it takes (R178, R180). -/
theorem State.Launched.encode_run (h : s.Launched) (hm : s.mode = .enc) (hs : s.SequencerMoves)
    (hN : 1024 + s.len.toNat ≤ s.tiles.toNat) (hk : k < 1024 + s.len.toNat) :
    ∃ t, run k s = .next t ∧ s.EncodeAt k t := by
  induction k with
  | zero => exact ⟨s, rfl, by rw [h.atTile_zero], ⟨fun _ hi => absurd hi (Nat.not_lt_zero _), fun _ _ => rfl⟩⟩
  | succ k ih =>
    obtain ⟨u, hr, hu⟩ := ih (by omega)
    obtain ⟨t, hst, ht⟩ := (h.encode_step hm hs (by omega) hN hu).1 hk
    exact ⟨t, run_concat hr hst, ht⟩

/-- A whole ENCODE walk (R178, R180). -/
theorem State.Launched.encode_run_all (h : s.Launched) (hm : s.mode = .enc) (hs : s.SequencerMoves)
    (hN : 1024 + s.len.toNat ≤ s.tiles.toNat) :
    ∃ t, run (1024 + s.len.toNat) s = .next t ∧ s.Wrote (1024 + s.len.toNat) t ∧
      t = { s.atTile (1023 + s.len.toNat) with
            gmem := t.gmem, bitcnt := BitVec.ofNat 32 (1024 + s.len.toNat), phase := .done } := by
  obtain ⟨u, hr, hu⟩ := h.encode_run hm hs hN (show 1023 + s.len.toNat < 1024 + s.len.toNat by omega)
  have e : 1023 + s.len.toNat + 1 = 1024 + s.len.toNat := by omega
  obtain ⟨t, hst, hw, ht⟩ := (h.encode_step hm hs (by omega) hN hu).2 e
  rw [e] at hw ht
  exact ⟨t, by rw [← e]; exact run_concat hr hst, hw, ht⟩


/-! ### DECODE -/

theorem State.tileBit_congr {i : Nat} (e1 : u.width = s.width) (e2 : u.channels = s.channels)
    (e3 : u.gmem = s.gmem) (e4 : u.gmemUnset = s.gmemUnset) : u.tileBit q i = s.tileBit q i := by
  rw [State.tileBit, State.tileBit, e1]
  refine decodeBitFromGroup_congr e1 e2 ?_
  rw [State.gmemAt, State.gmemAt, e3, e4]

/-- A DECODE walk after `k` tile steps of its header pass, fewer than 1024. -/
structure State.HeaderAt (s : State) (k : Nat) (u : State) : Prop where
  frame : u = { s.atTile k with hdr := u.hdr }
  bits : ∀ j, j < k → u.hdrAt j = s.tileBit s.stride.toNat j

/-- What a DECODE tile step at tile `k` of the walk of `s` reads (R200). -/
theorem State.visitBit_eq (e1 : u.width = s.width) (e2 : u.channels = s.channels) (e3 : u.gmem = s.gmem)
    (e4 : u.gmemUnset = s.gmemUnset) (e5 : u.row.toNat = (s.tilePos k).1) (e6 : u.col.toNat = (s.tilePos k).2) :
    u.visitBit = s.tileBit s.stride.toNat k := by
  rw [State.visitBit, e5, e6, ← State.tileBit_congr e1 e2 e3 e4, State.tileBit, e1]
  rfl

/-- A tile step of the header pass: the bit stored and counted (R203). -/
theorem State.Launched.header_visited (h : s.Launched) (hk : k < 1024) (hu : s.HeaderAt k u) :
    u.visited = { s.atTile k with hdr := u.visited.hdr, bitcnt := BitVec.ofNat 32 (k + 1) } ∧
      ∀ j, j < k + 1 → u.visited.hdrAt j = s.tileBit s.stride.toNat j := by
  obtain ⟨b1, b2, b3⟩ := h.bounds (Nat.lt_of_lt_of_le hk h.headerFits)
  obtain ⟨hf, hb⟩ := hu
  have e1 : u.bitcnt.toNat = k := by rw [hf]; exact toNat_ofNat_lt (by omega)
  have hv : u.visitBit = s.tileBit s.stride.toNat k := by
    rw [hf]
    exact State.visitBit_eq rfl rfl rfl rfl (toNat_ofNat_lt b2) (toNat_ofNat_lt b3)
  have hd := State.visited_header (s := u) (by omega)
  rw [e1] at hd
  refine ⟨?_, fun j hj => ?_⟩
  · rw [hd]
    generalize setHdrBit u.hdr k u.visitBit = x
    rw [hf]
  · rw [hd]
    show (setHdrBit u.hdr k u.visitBit).getMsbD j = _
    rw [getMsbD_setHdrBit _ _ _ _ hk (by omega)]
    by_cases hjk : j = k
    · rw [if_pos hjk, hv, hjk]
    · rw [if_neg hjk]
      exact hb j (by omega)

theorem State.Launched.header_step_eq (h : s.Launched) (hm : s.mode = .dec) (hs : s.SequencerMoves) (hk : k < 1024)
    (hu : s.HeaderAt k u) : step u = .next (decodeTile u) := by
  have hw : u.WalkOk := by
    have := h.walkOk (Nat.lt_of_lt_of_le hk h.headerFits) (fun he => by rw [hm] at he; cases he) (fun _ hc => by omega)
    rw [hu.frame]
    exact ⟨this.1, this.2, this.3, this.4, this.5, this.6, this.7, this.8⟩
  rw [step_tile (show u.SequencerMoves by rw [hu.frame]; exact hs), tileStep, show u.mode = .dec by rw [hu.frame]; exact hm]
  exact decodeTileStep_eq hw (by rw [hu.frame]; exact h.strideGe)

/-- A tile step of the header pass that does not complete the header (R203). -/
theorem State.Launched.header_step (h : s.Launched) (hm : s.mode = .dec) (hs : s.SequencerMoves) (hk : k + 1 < 1024)
    (hu : s.HeaderAt k u) : ∃ t, step u = .next t ∧ s.HeaderAt (k + 1) t := by
  obtain ⟨hv, hb⟩ := h.header_visited (by omega) hu
  obtain ⟨b1, b2, b3⟩ := h.bounds (show k < s.tiles.toNat from Nat.lt_of_lt_of_le (by omega) h.headerFits)
  have e1 : u.visited.bitcnt.toNat = k + 1 := by rw [hv]; exact toNat_ofNat_lt b1
  have hcap : k + 1 < s.capacityAt s.stride.toNat := by rw [← h.tilesEq]; exact Nat.lt_of_lt_of_le hk h.headerFits
  have hn := nextTile_tilePos (h := s.height.toNat) (w := s.width.toNat) h.strideGe hcap
  refine ⟨_, h.header_step_eq hm hs (by omega) hu, ?_⟩
  rw [decodeTile_plain (by omega), decodeNext_more (by omega)]
  refine ⟨?_, fun j hj => hb j hj⟩
  show u.visited.advance = { s.atTile (k + 1) with hdr := u.visited.hdr }
  generalize u.visited.hdr = x at hv
  rw [hv]
  simp only [State.advance, State.atTile, toNat_ofNat_lt b2, toNat_ofNat_lt b3]
  simp only [State.tilePos, hn]

/-- The header pass up to its last tile step (R203). -/
theorem State.Launched.header_run (h : s.Launched) (hm : s.mode = .dec) (hs : s.SequencerMoves) (hk : k < 1024) :
    ∃ t, run k s = .next t ∧ s.HeaderAt k t := by
  induction k with
  | zero => exact ⟨s, rfl, by rw [h.atTile_zero], fun _ hi => absurd hi (Nat.not_lt_zero _)⟩
  | succ k ih =>
    obtain ⟨u, hr, hu⟩ := ih (by omega)
    obtain ⟨t, hst, ht⟩ := h.header_step hm hs hk hu
    exact ⟨t, run_concat hr hst, ht⟩

/-- The walk of `s` with the header register holding `x`. -/
def State.withHdr (s : State) (x : BitVec 1024) : State := { s with hdr := x }

/-- The walk of `s` with `x` collected as its header and read as `(l, o, m)` (R204). -/
def State.headed (s : State) (x : BitVec 1024) (l : Nat) (o : List Byte) (m : Nat) : State := (s.withHdr x).setParsed l o m

theorem State.Launched.headed (h : s.Launched) (x : BitVec 1024) (l : Nat) (o : List Byte) (m : Nat) :
    (s.headed x l o m).Launched :=
  ⟨h.1, h.2, h.3, h.4, h.5, h.6, h.7, h.8, h.9⟩

theorem State.length_tileBits (a n : Nat) : (s.tileBits q a n).length = n := by simp [State.tileBits]

/-- The 1024 bits of the header pass, as the register holds them (R203). -/
theorem State.hdrBits_of_bits {x : BitVec 1024} (h : ∀ j, j < 1024 → x.getMsbD j = s.tileBit q j) :
    (s.withHdr x).hdrBits = s.tileBits q 0 1024 := by
  refine List.ext_getElem? fun i => ?_
  rw [State.getElem?_hdrBits]
  by_cases hi : i < 1024
  · have e : (s.withHdr x).hdrAt i = x.getMsbD i := rfl
    simp [State.tileBits, hi, e, h i hi]
  · simp [State.tileBits, hi]

/-- The step that completes the header: `HeaderComplete()` of the 1024 bits read (R203, R204). -/
theorem State.Launched.header_end (h : s.Launched) (hm : s.mode = .dec) (hs : s.SequencerMoves) :
    ∃ x u v, (s.withHdr x).hdrBits = s.tileBits s.stride.toNat 0 1024 ∧ run 1024 s = .next (decodeTile u) ∧
      v = u.visited ∧ v.bitcnt.toNat = 1024 ∧ v = { (s.withHdr x).atTile 1023 with bitcnt := 1024#32 } := by
  obtain ⟨u, hr, hu⟩ := h.header_run hm hs (show 1023 < 1024 by omega)
  obtain ⟨hv, hb⟩ := h.header_visited (by omega) hu
  have hst := run_concat hr (h.header_step_eq hm hs (by omega) hu)
  have hx : (s.withHdr u.visited.hdr).hdrBits = s.tileBits s.stride.toNat 0 1024 := State.hdrBits_of_bits hb
  have hc : u.visited.bitcnt.toNat = 1024 := by rw [hv]; rfl
  refine ⟨u.visited.hdr, u, u.visited, hx, hst, rfl, hc, ?_⟩
  generalize u.visited.hdr = x at hv
  rw [hv]
  rfl

/-- A whole header pass that fails: the header is malformed (R204). -/
theorem State.Launched.header_malformed (h : s.Launched) (hm : s.mode = .dec) (hs : s.SequencerMoves)
    (hp : parseHeader (s.tileBits s.stride.toNat 0 1024) = none) :
    ∃ x, (s.withHdr x).hdrBits = s.tileBits s.stride.toNat 0 1024 ∧
      run 1024 s = .next { (s.withHdr x).atTile 1023 with bitcnt := 1024#32, err := 3#8, phase := .done } := by
  obtain ⟨x, u, v, hx, hr, hv, hc, he⟩ := h.header_end hm hs
  rw [← hx, ← State.hdrBits_congr (s := v) (by rw [he]; rfl)] at hp
  have hh : headerComplete v = raise .malformedHeader v := by
    rcases headerComplete_cases v with ⟨_, e⟩ | ⟨_, _, _, e, _⟩ | ⟨_, _, _, e, _⟩
    · exact e
    · rw [hp] at e; cases e
    · rw [hp] at e; cases e
  refine ⟨x, hx, ?_⟩
  rw [hr, decodeTile_headerFails (by rw [← hv]; exact hc) (by rw [← hv, hh]; rfl), ← hv, hh, he]
  rfl

/-- A whole header pass that fails: the declared payload does not fit (R204). -/
theorem State.Launched.header_tooLong (h : s.Launched) (hm : s.mode = .dec) (hs : s.SequencerMoves)
    {l : Nat} {o : List Byte} {m : Nat} (hp : parseHeader (s.tileBits s.stride.toNat 0 1024) = some (l, o, m))
    (hl : s.tiles.toNat < 1024 + l) :
    ∃ x, (s.withHdr x).hdrBits = s.tileBits s.stride.toNat 0 1024 ∧
      run 1024 s = .next { (s.headed x l o m).atTile 1023 with bitcnt := 1024#32, err := 1#8, phase := .done } := by
  obtain ⟨x, u, v, hx, hr, hv, hc, he⟩ := h.header_end hm hs
  rw [← hx, ← State.hdrBits_congr (s := v) (by rw [he]; rfl)] at hp
  have htl : v.tiles = s.tiles := by rw [he]; rfl
  have hh : headerComplete v = raise .insufficientCapacity (v.setParsed l o m) := by
    rcases headerComplete_cases v with ⟨e, _⟩ | ⟨_, _, _, e, _, e'⟩ | ⟨_, _, _, e, hf, _⟩
    · rw [hp] at e; cases e
    · rw [hp] at e; cases e; exact e'
    · rw [hp] at e; cases e; rw [htl] at hf; omega
  refine ⟨x, hx, ?_⟩
  rw [hr, decodeTile_headerFails (by rw [← hv]; exact hc) (by rw [← hv, hh]; rfl), ← hv, hh, he]
  rfl

/-- A whole header pass of a grid that declares an empty payload (R204, R205). -/
theorem State.Launched.header_empty (h : s.Launched) (hm : s.mode = .dec) (hs : s.SequencerMoves)
    {o : List Byte} {m : Nat} (hp : parseHeader (s.tileBits s.stride.toNat 0 1024) = some (0, o, m)) :
    ∃ x, (s.withHdr x).hdrBits = s.tileBits s.stride.toNat 0 1024 ∧
      run 1024 s = .next (finalise { (s.headed x 0 o m).atTile 1023 with bitcnt := 1024#32 }) := by
  obtain ⟨x, u, v, hx, hr, hv, hc, he⟩ := h.header_end hm hs
  rw [← hx, ← State.hdrBits_congr (s := v) (by rw [he]; rfl)] at hp
  have htl : v.tiles = s.tiles := by rw [he]; rfl
  have hfit := h.headerFits
  have hh : headerComplete v = v.setParsed 0 o m := by
    rcases headerComplete_cases v with ⟨e, _⟩ | ⟨_, _, _, e, hf, _⟩ | ⟨_, _, _, e, _, e'⟩
    · rw [hp] at e; cases e
    · rw [hp] at e; cases e; rw [htl] at hf; omega
    · rw [hp] at e; cases e; exact e'
  have hpv : v.phase = .scan := by rw [he]; exact h.scan
  refine ⟨x, hx, ?_⟩
  rw [hr, decodeTile_headerOk (by rw [← hv]; exact hc) (by rw [← hv, hh, State.setParsed_phase, hpv]; decide), ← hv, hh,
    decodeNext_last (by rw [State.setParsed_bitcnt, hc]) (by rw [State.setParsed_bitcnt, hc]; rfl), he]
  rfl

/-- A DECODE walk whose header has been read, after `k` tile steps in all, the last one excepted: `s` is the walk with its
header read (R203). -/
structure State.PayloadAt (s : State) (k : Nat) (u : State) : Prop where
  frame : u = { s.atTile k with bbuf := u.bbuf }
  bits : ∀ i, 1024 + i < k → u.bbufAt i = s.tileBit s.stride.toNat (1024 + i)
  others : ∀ i, k ≤ 1024 + i → u.bbufAt i = s.bbufAt i

/-- A whole header pass of a grid that declares a payload that fits (R204). -/
theorem State.Launched.header_ok (h : s.Launched) (hm : s.mode = .dec) (hs : s.SequencerMoves)
    {l : Nat} {o : List Byte} {m : Nat} (hp : parseHeader (s.tileBits s.stride.toNat 0 1024) = some (l, o, m))
    (hl : 1024 + l ≤ s.tiles.toNat) (hz : l ≠ 0) :
    ∃ x, (s.withHdr x).hdrBits = s.tileBits s.stride.toNat 0 1024 ∧
      run 1024 s = .next ((s.headed x l o m).atTile 1024) := by
  obtain ⟨x, u, v, hx, hr, hv, hc, he⟩ := h.header_end hm hs
  rw [← hx, ← State.hdrBits_congr (s := v) (by rw [he]; rfl)] at hp
  have htl : v.tiles = s.tiles := by rw [he]; rfl
  have hfit := h.headerFits
  have hh : headerComplete v = v.setParsed l o m := by
    rcases headerComplete_cases v with ⟨e, _⟩ | ⟨_, _, _, e, hf, _⟩ | ⟨_, _, _, e, _, e'⟩
    · rw [hp] at e; cases e
    · rw [hp] at e; cases e; rw [htl] at hf; omega
    · rw [hp] at e; cases e; exact e'
  have hpv : v.phase = .scan := by rw [he]; exact h.scan
  have htl32 := s.tiles.isLt
  have hlen : (v.setParsed l o m).len.toNat = l := by rw [State.setParsed_len]; exact toNat_ofNat_lt (by omega)
  obtain ⟨b1, b2, b3⟩ := h.bounds (show 1023 < s.tiles.toNat by omega)
  have hcap : 1023 + 1 < s.capacityAt s.stride.toNat := by rw [← h.tilesEq]; omega
  have hn := nextTile_tilePos (h := s.height.toNat) (w := s.width.toNat) h.strideGe hcap
  refine ⟨x, hx, ?_⟩
  rw [hr, decodeTile_headerOk (by rw [← hv]; exact hc) (by rw [← hv, hh, State.setParsed_phase, hpv]; decide), ← hv, hh,
    decodeNext_more (by rw [State.setParsed_bitcnt, hc, hlen]; omega)]
  refine congrArg Host.Outcome.next ?_
  have e2 : v.row.toNat = (s.tilePos 1023).1 := by rw [he]; exact toNat_ofNat_lt b2
  have e3 : v.col.toNat = (s.tilePos 1023).2 := by rw [he]; exact toNat_ofNat_lt b3
  have e4 : v.width = s.width := by rw [he]; rfl
  have e5 : v.stride = s.stride := by rw [he]; rfl
  simp only [State.advance, State.setParsed_row, State.setParsed_col, State.setParsed_width, State.setParsed_stride, e2, e3,
    e4, e5]
  simp only [State.tilePos, hn]
  rw [he]
  rfl

/-- A tile step of the payload pass (R203). -/
theorem State.Launched.payload_step (h : s.Launched) (hm : s.mode = .dec) (hs : s.SequencerMoves) (h1 : 1024 ≤ k)
    (hk : k < 1024 + s.len.toNat) (hN : 1024 + s.len.toNat ≤ s.tiles.toNat) (hu : s.PayloadAt k u) :
    ∃ b, (∀ i, 1024 + i < k + 1 → State.bbufAt { s with bbuf := b } i = s.tileBit s.stride.toNat (1024 + i)) ∧
      (∀ i, k + 1 ≤ 1024 + i → State.bbufAt { s with bbuf := b } i = s.bbufAt i) ∧
      step u = .next (if k + 1 = 1024 + s.len.toNat
        then finalise { s.atTile k with bbuf := b, bitcnt := BitVec.ofNat 32 (k + 1) }
        else { s.atTile (k + 1) with bbuf := b }) := by
  have hkt : k < s.tiles.toNat := by omega
  obtain ⟨b1, b2, b3⟩ := h.bounds hkt
  obtain ⟨hf, hb, ho⟩ := hu
  have hw : u.WalkOk := by
    have := h.walkOk hkt (fun he => by rw [hm] at he; cases he) (fun _ _ => ⟨hk, hN⟩)
    rw [hf]
    exact ⟨this.1, this.2, this.3, this.4, this.5, this.6, this.7, this.8⟩
  have e1 : u.bitcnt.toNat = k := by rw [hf]; exact toNat_ofNat_lt (by omega)
  have hvb : u.visitBit = s.tileBit s.stride.toNat k := by
    rw [hf]
    exact State.visitBit_eq rfl rfl rfl rfl (toNat_ofNat_lt b2) (toNat_ofNat_lt b3)
  have hst : step u = .next (decodeTile u) := by
    rw [step_tile (show u.SequencerMoves by rw [hf]; exact hs), tileStep, show u.mode = .dec by rw [hf]; exact hm]
    exact decodeTileStep_eq hw (by rw [hf]; exact h.strideGe)
  have hd := State.visited_payload (s := u) (by omega)
  rw [e1] at hd
  have hv : u.visited = { s.atTile k with
      bbuf := u.bbuf.write (k - 1024) u.visitBit, bitcnt := BitVec.ofNat 32 (k + 1) } := by
    rw [hd]
    generalize u.bbuf.write (k - 1024) u.visitBit = x
    rw [hf]
  have hbb : ∀ i, State.bbufAt { s with bbuf := u.bbuf.write (k - 1024) u.visitBit } i =
      if i = k - 1024 then u.visitBit else u.bbufAt i := by
    intro i
    have := Memory.read_write (Config.resetBbuf s.epoch) u.bbuf (k - 1024) i u.visitBit
    rw [State.bbufAt, State.bbufAt, show u.epoch = s.epoch by rw [hf]; rfl]
    exact this
  refine ⟨u.bbuf.write (k - 1024) u.visitBit, fun i hi => ?_, fun i hi => ?_, ?_⟩
  · rw [hbb]
    by_cases hik : i = k - 1024
    · rw [if_pos hik, hvb, show 1024 + i = k by omega]
    · rw [if_neg hik]
      exact hb i (by omega)
  · rw [hbb, if_neg (by omega)]
    exact ho i (by omega)
  · have hc : u.visited.bitcnt.toNat = k + 1 := by rw [hv]; exact toNat_ofNat_lt b1
    have hl : u.visited.len = s.len := by rw [hv]; rfl
    rw [hst, decodeTile_plain (by omega)]
    by_cases hlast : k + 1 = 1024 + s.len.toNat
    · rw [if_pos hlast, decodeNext_last (by omega) (by rw [hc, hl]; exact hlast), hv]
    · have hcap : k + 1 < s.capacityAt s.stride.toNat := by rw [← h.tilesEq]; omega
      have hn := nextTile_tilePos (h := s.height.toNat) (w := s.width.toNat) h.strideGe hcap
      rw [if_neg hlast, decodeNext_more (by rw [hc, hl]; omega), hv]
      simp only [State.advance, State.atTile, toNat_ofNat_lt b2, toNat_ofNat_lt b3]
      simp only [State.tilePos, hn]

/-- The payload pass up to its last tile step (R203). -/
theorem State.Launched.payload_run (h : s.Launched) (hm : s.mode = .dec) (hs : s.SequencerMoves)
    (hN : 1024 + s.len.toNat ≤ s.tiles.toNat) {n : Nat} (hn : n < s.len.toNat) :
    ∃ t, run n (s.atTile 1024) = .next t ∧ s.PayloadAt (1024 + n) t := by
  induction n with
  | zero => exact ⟨_, rfl, rfl, fun i hi => by omega, fun _ _ => rfl⟩
  | succ n ih =>
    obtain ⟨u, hr, hu⟩ := ih (by omega)
    obtain ⟨b, hb1, hb2, hst⟩ := h.payload_step hm hs (by omega) (by omega) hN hu
    rw [if_neg (by omega)] at hst
    exact ⟨_, run_concat hr hst, rfl, hb1, hb2⟩

/-- A whole payload pass (R203, R205). -/
theorem State.Launched.payload_run_all (h : s.Launched) (hm : s.mode = .dec) (hs : s.SequencerMoves)
    (hN : 1024 + s.len.toNat ≤ s.tiles.toNat) (hz : s.len.toNat ≠ 0) :
    ∃ b, (∀ i, i < s.len.toNat → State.bbufAt { s with bbuf := b } i = s.tileBit s.stride.toNat (1024 + i)) ∧
      (∀ i, s.len.toNat ≤ i → State.bbufAt { s with bbuf := b } i = s.bbufAt i) ∧
      run s.len.toNat (s.atTile 1024) =
        .next (finalise { s.atTile (1023 + s.len.toNat) with
          bbuf := b, bitcnt := BitVec.ofNat 32 (1024 + s.len.toNat) }) := by
  obtain ⟨u, hr, hu⟩ := h.payload_run hm hs hN (show s.len.toNat - 1 < s.len.toNat by omega)
  obtain ⟨b, hb1, hb2, hst⟩ := h.payload_step hm hs (by omega) (by omega) hN hu
  have e : 1024 + (s.len.toNat - 1) = 1023 + s.len.toNat := by omega
  have e' : 1023 + s.len.toNat + 1 = 1024 + s.len.toNat := by omega
  rw [e, e', if_pos rfl] at hst
  refine ⟨b, fun i hi => hb1 i (by omega), fun i hi => hb2 i (by omega), ?_⟩
  have e2 : s.len.toNat = s.len.toNat - 1 + 1 := by omega
  have hrun : run (s.len.toNat - 1 + 1) (s.atTile 1024) = _ := run_concat hr hst
  rw [← e2] at hrun
  exact hrun

end Sys2Proof.Machine
end

