-- ==== Sys2Proof/Laws/BigStep.lean ====
section
/-!
SUPPORT. From a state at rest to the walk: the launch that `run ENCODE` or `run DECODE` (R99) makes, as a launched
state (Laws/Run.lean), and the runs around it. What the big-step statements (R181, R206) start from.
-/

namespace Sys2Proof.Machine

theorem step_runLines {s : State} {rest : List HostAction} (i : Instr) (hp : s.phase ≠ .scan)
    (hs : s.script = runLines i ++ rest) :
    step s = exec i { s with script := .wait :: rest, cmd := encode i } := by
  have e : s.script = .wr .cmd (encode i).toNat :: (.wait :: rest) := hs
  rw [step_launch hp e]
  have e2 : BitVec.ofNat 8 (encode i).toNat = encode i := by simp
  have e3 : decode (encode i) = .ok i := by
    cases i with
    | putBit f => cases f <;> rfl
    | bits2bytes f => cases f <;> rfl
    | _ => rfl
  rw [e2, launch, e3]

theorem encodeStart_launched {s : State} {h : List Bit} (hf : s.EncodeFits) :
    let u := encodeStart (8 * s.plen.toNat) h
      ((s.setStride (isqrt s.groupSize.toNat)).setTiles (s.capacityAt (isqrt s.groupSize.toNat)))
    u.Launched ∧ u.mode = .enc ∧ u.len.toNat = 8 * s.plen.toNat ∧ u.stride.toNat = isqrt s.groupSize.toNat ∧
        u.tiles.toNat = s.capacityAt (isqrt s.groupSize.toNat) := by
  have h1 : (BitVec.ofNat 16 (isqrt s.groupSize.toNat)).toNat = isqrt s.groupSize.toNat :=
    toNat_ofNat_lt (isqrt_lt s.groupSize.isLt)
  have h2 : (BitVec.ofNat 32 (s.capacityAt (isqrt s.groupSize.toNat))).toNat = s.capacityAt (isqrt s.groupSize.toNat) :=
    toNat_ofNat_lt (s.capacityAt_lt _)
  have hp := s.plen.isLt
  have h3 : (BitVec.ofNat 213 (8 * s.plen.toNat)).toNat = 8 * s.plen.toNat := toNat_ofNat_lt (by omega)
  have hc := hf.fits
  refine ⟨⟨rfl, hf.channelsGe, ?_, ?_, ?_, rfl, rfl, rfl, rfl⟩, rfl, h3, h1, h2⟩
  · simp only [encodeStart_eq, State.setTiles_tiles, State.setTiles_stride, State.setStride_stride, h1, h2]; rfl
  · simp only [encodeStart_eq, State.setTiles_tiles, h2]; omega
  · simp only [encodeStart_eq, State.setTiles_stride, State.setStride_stride, h1]; exact isqrt_pos hf.groupSizeOk.1

theorem decodeStart_launched {s : State} (hf : s.DecodeStarts) :
    let u := decodeStart ((s.setStride (isqrt s.groupSize.toNat)).setTiles (s.capacityAt (isqrt s.groupSize.toNat)))
    u.Launched ∧ u.mode = .dec ∧ u.stride.toNat = isqrt s.groupSize.toNat ∧
        u.tiles.toNat = s.capacityAt (isqrt s.groupSize.toNat) := by
  have h1 : (BitVec.ofNat 16 (isqrt s.groupSize.toNat)).toNat = isqrt s.groupSize.toNat :=
    toNat_ofNat_lt (isqrt_lt s.groupSize.isLt)
  have h2 : (BitVec.ofNat 32 (s.capacityAt (isqrt s.groupSize.toNat))).toNat = s.capacityAt (isqrt s.groupSize.toNat) :=
    toNat_ofNat_lt (s.capacityAt_lt _)
  have hc := hf.fits
  refine ⟨⟨rfl, hf.channelsGe, ?_, ?_, ?_, rfl, rfl, rfl, rfl⟩, rfl, h1, h2⟩
  · simp only [decodeStart_eq, State.setTiles_tiles, State.setTiles_stride, State.setStride_stride, h1, h2]; rfl
  · simp only [decodeStart_eq, State.setTiles_tiles, h2]; omega
  · simp only [decodeStart_eq, State.setTiles_stride, State.setStride_stride, h1]; exact isqrt_pos hf.groupSizeOk.1

theorem run_two {s t u : State} (h1 : step s = .next t) (h2 : step t = .next u) : run 2 s = .next u := by
  rw [run_succ_of_step h1, run_succ_of_step h2]; rfl

theorem run_sandwich {s a b c : State} {n : Nat} (h1 : step s = .next a) (h2 : run n a = .next b)
    (h3 : step b = .next c) :
    run (n + 2) s = .next c := by
  rw [run_succ_of_step h1]
  exact run_concat h2 h3

theorem root_of_groupSize {s : State} {q : Nat} (hv : ValidGroupSize s.groupSize.toNat)
    (hq : s.groupSize.toNat = q * q) : isqrt s.groupSize.toNat = q ∧ 1 ≤ q := by
  have h1 : 1 ≤ q := by
    rcases Nat.eq_zero_or_pos q with h | h
    · rw [h] at hq; have := hv.1; omega
    · exact h
  exact ⟨(root_of_square h1 hq).2, h1⟩

theorem encode_launched {s : State} {rest : List HostAction} {q : Nat} (hp : s.phase ≠ .scan)
    (hs : s.script = runLines .encode ++ rest)
    (hf : s.EncodeFits) (hq : s.groupSize.toNat = q * q) :
    ∃ s2 : State, s2.Launched ∧ s2.mode = .enc ∧ s2.SequencerMoves ∧ step s = .next s2 ∧
        s2.len.toNat = 8 * s.plen.toNat ∧
      s2.stride.toNat = q ∧ s2.tiles.toNat = s.capacityAt q ∧
      (∀ i, i < 1024 + 8 * s.plen.toNat → s2.stream i = s.fullStream.getD i false) ∧
      s2.blen.toNat = 8 * s.plen.toNat ∧
      (∀ i, i < 8 * s.plen.toNat → s2.bbufAt i = (s.pbufAt (i / 8)).getLsbD (7 - i % 8)) ∧
      (∀ i, i < 1024 → s2.hdrAt i = s.fullStream.getD i false) ∧
      s2 = { s with
          script := .wait :: rest, cmd := 0x01#8, err := 0#8, phase := .scan, mode := .enc,
          stride := s2.stride, tiles := s2.tiles, len := s2.len, blen := s2.blen, bbuf := s2.bbuf, hdr := s2.hdr,
          bitcnt := 0#32, row := 0#16, col := 0#16 } := by
  obtain ⟨hr, hq1⟩ := root_of_groupSize hf.groupSizeOk hq
  have hst := step_runLines .encode hp hs
  obtain ⟨s1, hs1⟩ : ∃ s1, s1 = ({ s with script := .wait :: rest, cmd := encode .encode } : State) := ⟨_, rfl⟩
  rw [← hs1] at hst
  have hf1 : s1.EncodeFits := by rw [hs1]; exact ⟨hf.1, hf.2, hf.3⟩
  have epl : s1.plen = s.plen := by rw [hs1]
  have egs : s1.groupSize = s.groupSize := by rw [hs1]
  have ecap : ∀ x, s1.capacityAt x = s.capacityAt x := by intro x; rw [hs1]; rfl
  have hpl := s.plen.isLt
  rcases encodeLaunch_cases s1 with ⟨h', e⟩ | ⟨h', hv', e⟩ | ⟨h', _, ht, e⟩ | ⟨h', _, ht, hd, hb, e⟩
  · exact absurd hf1.1 h'
  · exact absurd hf1.2 hv'
  · exact absurd hf1.3 (Nat.not_le.2 ht)
  · obtain ⟨l1, l2, l3, l4, l5⟩ := encodeStart_launched (h := hd) hf1
    have hlen := length_buildHeader hb
    have hbb : ∀ i, i < 8 * s.plen.toNat → (encodeLaunch s1).bbufAt i = (s.pbufAt (i / 8)).getLsbD (7 - i % 8) := by
      intro i hi
      rw [e]
      have : (encodeStart (8 * s1.plen.toNat) hd ((s1.setStride (isqrt s1.groupSize.toNat)).setTiles
          (s1.capacityAt (isqrt s1.groupSize.toNat)))).bbufAt i =
          (s1.setBitbuf (bytesToBits (s1.payload s1.plen.toNat))).bbufAt i := rfl
      rw [this, State.bbufAt_setBitbuf, getElem?_bytesToBits, State.getElem?_payload, epl, if_pos (by omega)]
      rw [hs1]; rfl
    have hfs : s.fullStream = hd ++ bytesToBits (s.payload s.plen.toNat) := by
      rw [epl] at hb; rw [State.fullStream, hb]; rfl
    have hhd : ∀ i, i < 1024 → (encodeLaunch s1).hdrAt i = s.fullStream.getD i false := by
      intro i hi
      rw [e, hfs]
      have : (encodeStart (8 * s1.plen.toNat) hd ((s1.setStride (isqrt s1.groupSize.toNat)).setTiles
          (s1.capacityAt (isqrt s1.groupSize.toNat)))).hdrAt i = (hdrOfBits hd).getMsbD i := rfl
      rw [this, getMsbD_hdrOfBits hlen hi]
      simp [List.getD_eq_getElem?_getD, List.getElem?_append_left, hlen, hi]
    refine ⟨encodeLaunch s1, by rw [e]; exact l1, by rw [e]; exact l2, ⟨by rw [e]; rfl, .inr ⟨rest, by rw [e, hs1]; rfl⟩⟩,
      hst, by rw [e, l3, epl], by rw [e, l4, egs, hr], by rw [e, l5, egs, hr, ecap], ?_, ?_,
      hbb, hhd, ?_⟩
    · intro i hi
      unfold State.stream
      by_cases h : i < 1024
      · rw [if_pos (show i < Config.hdrBits from h)]; exact hhd i h
      · rw [if_neg (show ¬ i < Config.hdrBits from h), show Config.hdrBits = 1024 from rfl, hbb _ (by omega), hfs]
        rw [List.getD_eq_getElem?_getD, List.getElem?_append_right (by omega), hlen, getElem?_bytesToBits,
            State.getElem?_payload, if_pos (by omega)]
        rfl
    · rw [e]; show (BitVec.ofNat 32 (8 * s1.plen.toNat)).toNat = _
      rw [toNat_ofNat_lt, epl]
      have := hf1.3; have h2 := s1.capacityAt_lt (isqrt s1.groupSize.toNat); omega
    · rw [e, hs1]; rfl

theorem decode_launched {s : State} {rest : List HostAction} {q : Nat} (hp : s.phase ≠ .scan)
    (hs : s.script = runLines .decode ++ rest)
    (hf : s.DecodeStarts) (hq : s.groupSize.toNat = q * q) :
    ∃ s2 : State, s2.Launched ∧ s2.mode = .dec ∧ s2.SequencerMoves ∧ step s = .next s2 ∧
      s2.stride.toNat = q ∧ s2.tiles.toNat = s.capacityAt q ∧ (∀ a n, s2.tileBits q a n = s.tileBits q a n) ∧
      (∀ i, s2.tilePos i = Machine.tilePos s.width.toNat q i) ∧
      s2 = { s with
          script := .wait :: rest, cmd := 0x02#8, err := 0#8, phase := .scan, mode := .dec,
          stride := s2.stride, tiles := s2.tiles, bitcnt := 0#32, row := 0#16, col := 0#16 } := by
  obtain ⟨hr, hq1⟩ := root_of_groupSize hf.groupSizeOk hq
  have hst := step_runLines .decode hp hs
  obtain ⟨s1, hs1⟩ : ∃ s1, s1 = ({ s with script := .wait :: rest, cmd := encode .decode } : State) := ⟨_, rfl⟩
  rw [← hs1] at hst
  have hf1 : s1.DecodeStarts := by rw [hs1]; exact ⟨hf.1, hf.2, hf.3⟩
  have egs : s1.groupSize = s.groupSize := by rw [hs1]
  have ecap : ∀ x, s1.capacityAt x = s.capacityAt x := by intro x; rw [hs1]; rfl
  rcases decodeLaunch_cases s1 with ⟨h', e⟩ | ⟨h', hv', e⟩ | ⟨h', _, ht, e⟩ | ⟨h', _, ht, e⟩
  · exact absurd hf1.1 h'
  · exact absurd hf1.2 hv'
  · exact absurd hf1.3 (Nat.not_le.2 ht)
  · obtain ⟨l1, l2, l4, l5⟩ := decodeStart_launched hf1
    have hstr : (decodeLaunch s1).stride.toNat = q := by rw [e, l4, egs, hr]
    refine ⟨decodeLaunch s1, by rw [e]; exact l1, by rw [e]; exact l2, ⟨by rw [e]; rfl, .inr ⟨rest, by rw [e, hs1]; rfl⟩⟩,
      hst, hstr, by rw [e, l5, egs, hr, ecap], ?_, ?_, ?_⟩
    · intro a n
      refine List.map_congr_left fun i _ => ?_
      refine State.tileBit_congr ?_ ?_ ?_ ?_ <;> rw [e, hs1] <;> rfl
    · intro i
      unfold State.tilePos; rw [hstr, show (decodeLaunch s1).width = s.width by rw [e, hs1]; rfl]
    · rw [e, hs1]; rfl

end Sys2Proof.Machine
end

