-- ==== Sys2Proof/Laws/Frame.lean ====
section
/-!
SUPPORT. What each part of a tile step writes and what it leaves (spec/10_state.md rule R43), said once for both walks.
-/

namespace Sys2Proof.Machine

/-- What an ENCODE tile step writes (R178). -/
theorem encodeTile_frame (s : State) : ∃ p r c g, encodeTile s = { s with
    phase := p, row := r, col := c, bitcnt := BitVec.ofNat 32 (s.bitcnt.toNat + 1), gmem := g } := by
  have hf := encodeBitIntoGroup_frame s.row.toNat s.col.toNat s.stride.toNat (s.stream s.bitcnt.toNat) s
  rcases encodeTile_cases s with ⟨-, e⟩ | ⟨-, e⟩
  · rw [e, hf]
    exact ⟨_, _, _, _, rfl⟩
  · rw [e, hf]
    exact ⟨_, _, _, _, rfl⟩

/-- What the end of a DECODE tile step writes (R203, R205). -/
theorem decodeNext_frame (u : State) : ∃ p r c pl bl pb, decodeNext u = { u with
    phase := p, row := r, col := c, plen := pl, blen := bl, pbuf := pb } := by
  unfold decodeNext
  split
  · exact ⟨_, _, _, _, _, _, rfl⟩
  · exact ⟨_, _, _, _, _, _, rfl⟩

/-- What `HeaderComplete()` writes (R204). -/
theorem headerComplete_frame (u : State) : ∃ e p l o m, headerComplete u = { u with
    err := e, phase := p, len := l, opt := o, optlen := m } := by
  rcases headerComplete_cases u with ⟨_, e⟩ | ⟨_, _, _, _, _, e⟩ | ⟨_, _, _, _, _, e⟩ <;> rw [e]
  · exact ⟨_, _, _, _, _, rfl⟩
  · exact ⟨_, _, _, _, _, rfl⟩
  · exact ⟨_, _, _, _, _, rfl⟩

/-- What storing and counting a bit writes (R203). -/
theorem visited_frame (s : State) : ∃ h b, s.visited = { s with
    hdr := h, bbuf := b, bitcnt := BitVec.ofNat 32 (s.bitcnt.toNat + 1) } := by
  rcases Nat.lt_or_ge s.bitcnt.toNat 1024 with hb | hb
  · exact ⟨_, _, State.visited_header hb⟩
  · exact ⟨_, _, State.visited_payload hb⟩

/-- What a DECODE tile step writes (R203 to R205). -/
theorem decodeTile_frame (s : State) : ∃ e p r c l pl bl o m h pb bb, decodeTile s = { s with
      err := e, phase := p, row := r, col := c, bitcnt := BitVec.ofNat 32 (s.bitcnt.toNat + 1), len := l, plen := pl,
      blen := bl, opt := o, optlen := m, hdr := h, pbuf := pb, bbuf := bb } := by
  obtain ⟨h, b, hv⟩ := visited_frame s
  by_cases hc : s.visited.bitcnt.toNat = 1024
  · obtain ⟨a1, a2, a3, a4, a5, hh⟩ := headerComplete_frame s.visited
    by_cases hd : (headerComplete s.visited).phase = .done
    · rw [decodeTile_headerFails hc hd, hh, hv]
      exact ⟨_, _, _, _, _, _, _, _, _, _, _, _, rfl⟩
    · obtain ⟨b1, b2, b3, b4, b5, b6, hn⟩ := decodeNext_frame (headerComplete s.visited)
      rw [decodeTile_headerOk hc hd, hn, hh, hv]
      exact ⟨_, _, _, _, _, _, _, _, _, _, _, _, rfl⟩
  · obtain ⟨b1, b2, b3, b4, b5, b6, hn⟩ := decodeNext_frame s.visited
    rw [decodeTile_plain hc, hn, hv]
    exact ⟨_, _, _, _, _, _, _, _, _, _, _, _, rfl⟩

/-- A tile step that does not fault is the one of the walk's mode (R178, R203). -/
theorem tileStep_next {s t : State} (h : tileStep s = .next t) :
    (s.mode = .enc ∧ t = encodeTile s) ∨ (s.mode = .dec ∧ t = decodeTile s) := by
  unfold tileStep at h
  cases hm : s.mode <;> rw [hm] at h <;> dsimp only at h
  · unfold encodeTileStep at h
    split at h
    · cases h
      exact .inl ⟨rfl, rfl⟩
    · cases h
  · unfold decodeTileStep at h
    split at h
    · cases h
      exact .inr ⟨rfl, rfl⟩
    · cases h

/-- Each tile step counts one bit, and leaves CMD and the host alone (R22, R30). -/
theorem tileStep_bitcnt {s t : State} (h : tileStep s = .next t) :
    t.bitcnt = BitVec.ofNat 32 (s.bitcnt.toNat + 1) ∧ t.script = s.script ∧ t.cmd = s.cmd := by
  rcases tileStep_next h with ⟨_, rfl⟩ | ⟨_, rfl⟩
  · obtain ⟨_, _, _, _, e⟩ := encodeTile_frame s
    rw [e]
    exact ⟨rfl, rfl, rfl⟩
  · obtain ⟨_, _, _, _, _, _, _, _, _, _, _, _, e⟩ := decodeTile_frame s
    rw [e]
    exact ⟨rfl, rfl, rfl⟩

end Sys2Proof.Machine
end

