-- ==== Sys2Proof/Laws/PerInstr.lean ====
section
/-!
SUPPORT. Statements about every command as syntax, one lemma per constructor.
-/

namespace Sys2Proof.Laws.EncodeLegal

/-- The word of a command is cut back into the fields it was built from (R91), and those fields pass R95's checks. -/
def Statement (i : Instr) : Prop := C8.ofWord (encode i) = i.fields ∧ (C8.ofWord (encode i)).wellFormed = true

theorem nop : Statement .nop := ⟨by decide, by decide⟩
theorem encode : Statement .encode := ⟨by decide, by decide⟩
theorem decode : Statement .decode := ⟨by decide, by decide⟩
theorem hdrBuild : Statement .hdrBuild := ⟨by decide, by decide⟩
theorem hdrParse : Statement .hdrParse := ⟨by decide, by decide⟩
theorem putBit (f : Bit) : Statement (.putBit f) := by cases f <;> exact ⟨by decide, by decide⟩
theorem getBit : Statement .getBit := ⟨by decide, by decide⟩
theorem bytes2bits : Statement .bytes2bits := ⟨by decide, by decide⟩
theorem bits2bytes (f : Bit) : Statement (.bits2bytes f) := by cases f <;> exact ⟨by decide, by decide⟩

end Sys2Proof.Laws.EncodeLegal
end

