-- ==== Sys2Proof/Laws/Phase.lean ====
section
/-!
SUPPORT. Which phase a launch, a tile step or a host access leaves, and small facts about the payload store and the cursor.
-/

namespace Sys2Proof.Machine

theorem tileStep_phase {s t : State} (hp : s.phase = .scan) (h : tileStep s = .next t) :
    t.phase = .scan ∨ t.phase = .done := by
  rcases tileStep_next h with ⟨_, rfl⟩ | ⟨_, rfl⟩
  · rcases encodeTile_cases s with ⟨-, e⟩ | ⟨-, e⟩ <;> rw [e]
    · exact .inr rfl
    · rw [encodeBitIntoGroup_frame]; exact .inl hp
  · have hn : ∀ u : State, (decodeNext u).phase = .done ∨ (decodeNext u).phase = u.phase := by
      intro u; unfold decodeNext; split
      · exact .inl rfl
      · exact .inr rfl
    obtain ⟨h, b, hv⟩ := visited_frame s
    have hvp : s.visited.phase = .scan := by rw [hv]; exact hp
    by_cases hc : s.visited.bitcnt.toNat = 1024
    · by_cases hd : (headerComplete s.visited).phase = .done
      · rw [decodeTile_headerFails hc hd]; exact .inr hd
      · rw [decodeTile_headerOk hc hd]
        rcases hn (headerComplete s.visited) with h1 | h1
        · exact .inr h1
        · rcases headerComplete_cases s.visited with ⟨_, e⟩ | ⟨_, _, _, _, _, e⟩ | ⟨_, _, _, _, _, e⟩
          · rw [e] at hd; exact absurd rfl hd
          · rw [e] at hd; exact absurd rfl hd
          · rw [e] at h1; exact .inl (by rw [e]; exact h1.trans (by simpa using hvp))
    · rw [decodeTile_plain hc]
      rcases hn s.visited with h1 | h1
      · exact .inr h1
      · exact .inl (h1.trans hvp)

theorem exec_phase (i : Instr) (s t : State) (h : exec i s = .next t) :
    t.phase = .done ∨ (t.phase = .scan ∧ t.bitcnt = 0#32 ∧ (i = .encode ∨ i = .decode)) := by
    cases i <;> cases h
    · exact .inl rfl
    · rcases encodeLaunch_cases s with ⟨_, e⟩ | ⟨_, _, e⟩ | ⟨_, _, _, e⟩ | ⟨_, _, _, _, _, e⟩ <;> rw [e] <;>
          simp [encodeStart_eq]
    · rcases decodeLaunch_cases s with ⟨_, e⟩ | ⟨_, _, e⟩ | ⟨_, _, _, e⟩ | ⟨_, _, _, e⟩ <;> rw [e] <;>
          simp [decodeStart_eq]
    · rcases hdrBuild_cases s with ⟨_, e⟩ | ⟨_, _, _, e⟩ <;> rw [e] <;> simp
    · rcases hdrParse_cases s with ⟨_, e⟩ | ⟨_, _, _, _, e⟩ <;> rw [e] <;> simp
    · rcases putBit_cases s ‹_› with ⟨_, e⟩ | ⟨_, _, e⟩ | ⟨_, _, _, e⟩ | ⟨_, _, _, e⟩ <;> rw [e] <;> simp
    · rcases getBit_cases s with ⟨_, e⟩ | ⟨_, e⟩ <;> rw [e] <;> simp
    · rcases bytes2bits_cases s with ⟨_, e⟩ | ⟨_, e⟩ <;> rw [e] <;> simp
    · rename_i f
      cases f
      · rcases bits2bytes_min_cases s with ⟨_, e⟩ | ⟨_, e⟩ <;> rw [e] <;> simp
      · rw [bits2bytes_fix]; simp

theorem hostAccess_phase {a : HostAction} {s t : State} (h : hostAccess a s = .next t) :
    t.phase = s.phase ∨ (a = .reset ∧ t.phase = .idle) := by
  cases a <;> simp only [hostAccess] at h
  case wr r v => cases h; cases r <;> exact .inl rfl
  case reset => cases h; exact .inr ⟨rfl, State.resetEvent_phase s⟩
  all_goals first | (cases h; exact .inl rfl) | (split at h <;> cases h; exact .inl rfl)

theorem succeed_storePayload_reads (s : State) (bs : List Byte) (hb : bs.length < 2^32) :
   (succeed (s.storePayload bs)).plen.toNat = bs.length ∧
   (∀ j, (succeed (s.storePayload bs)).pbufAt j = (bs[j]?).getD (s.pbufAt j)) := by
  refine ⟨?_, fun j => State.pbufAt_setPayload s bs j⟩
  simp only [State.succeed_plen, State.storePayload_plen]
  exact toNat_ofNat_lt hb

theorem getElem?_natToBytes (n v j : Nat) :
    (natToBytes n v)[j]? = if j < n then some (BitVec.ofNat 8 (v / 2 ^ (8 * (n - 1 - j)))) else none := by
  by_cases h : j < n <;> simp [natToBytes, h]

theorem bitWidth_unique {v k : Nat} (h : v = 0 ∧ k = 0 ∨ 1 ≤ k ∧ 2^(k-1) ≤ v ∧ v < 2^k) : bitWidth v = k := by
  obtain ⟨h1, h2⟩ := bitWidth_spec v
  rcases h with ⟨rfl, rfl⟩ | ⟨ha, hb, hc⟩
  · rfl
  · have hle := bitWidth_le hc
    have hv : v ≠ 0 := by have := Nat.two_pow_pos (k-1); omega
    by_contra hn
    have : 2 ^ bitWidth v ≤ 2^(k-1) := Nat.pow_le_pow_right (by omega) (by omega)
    omega

theorem advance_of_tile {s v : State} (ht : s.TileInGrid s.row.toNat s.col.toNat s.stride.toNat)
    (e1 : v.row = s.row) (e2 : v.col = s.col) (e3 : v.width = s.width) (e4 : v.stride = s.stride) :
    (s.col.toNat + 2 * s.stride.toNat ≤ s.width.toNat → v.advance.row = s.row ∧
        v.advance.col.toNat = s.col.toNat + s.stride.toNat) ∧
    (s.width.toNat < s.col.toNat + 2 * s.stride.toNat → v.advance.row.toNat = s.row.toNat + s.stride.toNat ∧
        v.advance.col = 0#16) := by
  have hh := s.height.isLt
  have hw := s.width.isLt
  simp only [State.advance_row, State.advance_col, e1, e2, e3, e4]
  refine ⟨fun h => ?_, fun h => ?_⟩
  · rw [nextTile_right h]
    have := ht.2
    exact ⟨by simp, toNat_ofNat_lt (by omega)⟩
  · rw [nextTile_wrap (Nat.not_le.2 h)]
    have := ht.1
    exact ⟨toNat_ofNat_lt (by omega), rfl⟩

theorem step_decodeTile {s : State} (hs : s.SequencerMoves) (hm : s.mode = .dec)
    (hi : s.InGrid s.row.toNat s.col.toNat 0) : step s = .next (decodeTile s) := by
  rw [step_tile hs, tileStep, hm]; exact if_pos hi

theorem gmemAt_encodeBitIntoGroup_above {s : State} {r c t : Nat} {b : Bit} (ht : s.TileInGrid r c t) {a : Nat}
    (ha : s.height.toNat * s.width.toNat * s.channels.toNat ≤ a) :
    (encodeBitIntoGroup r c t b s).gmemAt a = s.gmemAt a :=
  gmemAt_encodeBitIntoGroup_not_mem fun h => by have := tileAddrs_lt ht.1 ht.2 h; omega

end Sys2Proof.Machine
end

