-- ==== Sys2Proof/Tests/Slice0.lean ====
section
/-!
SUPPORT. Small tests of the model. Expected values come from the spec: the words of spec/30_encoding.md, the vectors of
spec/95_test_vectors.md (named in each theorem's comment), the reset values of spec/10_state.md. Then one witness theorem
for every obligation that has hypotheses (`witness_<Obligation>`): concrete states and operands that meet them.
-/

set_option Elab.async false

namespace Sys2Proof.Tests

open Sys2Proof.Machine

/-- At rest, every register at a written-out value. -/
def base : State := { State.reset with hdr := 0#1024, opt := 0#512, phase := .done }

/-- A next state of which `p` holds. -/
def next (o : Host.Outcome State Fault Refusal) (p : State → Bool) : Bool :=
  match o with
  | .next t => p t
  | .fault _ => false
  | .refused _ => false

/-! ## Syntax and decoding -/

/-- The check of reserved bits refuses an ill-formed word (R95 a). -/
theorem test_wellFormed_rsv : (C8.mk 1#3 false 0#4).wellFormed = false := by decide

/-- The check of the opcode refuses an ill-formed word (R95 b). -/
theorem test_wellFormed_op : (C8.mk 0#3 false 9#4).wellFormed = false := by decide

/-- The check of the flag refuses an ill-formed word (R95 c). -/
theorem test_wellFormed_flag : (C8.mk 0#3 true 1#4).wellFormed = false := by decide

/-- What passes the three checks: NOP's fields, and PUT_BIT's with the flag. -/
theorem test_wellFormed_ok : (C8.mk 0#3 false 0#4).wellFormed = true ∧ (C8.mk 0#3 true 5#4).wellFormed = true := by
  decide

/-- R92, `000fpppp`, the commands without a flag. -/
theorem test_decode_plain :
    decode 0b00000000#8 = .ok .nop ∧ decode 0b00000001#8 = .ok .encode ∧ decode 0b00000010#8 = .ok .decode ∧
    decode 0b00000011#8 = .ok .hdrBuild ∧ decode 0b00000100#8 = .ok .hdrParse ∧ decode 0b00000110#8 = .ok .getBit ∧
    decode 0b00000111#8 = .ok .bytes2bits := by decide

/-- R92, R94, the two commands with a flag. -/
theorem test_decode_flag :
    decode 0b00000101#8 = .ok (.putBit false) ∧ decode 0b00010101#8 = .ok (.putBit true) ∧
    decode 0b00001000#8 = .ok (.bits2bytes false) ∧ decode 0b00011000#8 = .ok (.bits2bytes true) := by decide

/-- Y2, Y3: the flag on a command without one. -/
theorem test_decode_illegal_flag : ∀ w ∈ [0x10#8, 0x11#8, 0x12#8, 0x13#8, 0x14#8, 0x16#8, 0x17#8],
    decode w = .error .flagNotTaken := by decide

/-- Y6: reserved opcodes. -/
theorem test_decode_illegal_op : ∀ w ∈ [0x09#8, 0x0A#8, 0x0F#8, 0x19#8, 0x1F#8], decode w = .error .reservedOpcode := by
  decide

/-- Y7: reserved bits. -/
theorem test_decode_illegal_rsv : ∀ w ∈ [0x20#8, 0x21#8, 0x40#8, 0x80#8, 0xFF#8], decode w = .error .reservedBits := by
  decide

/-- R96 checks the reserved bits first. -/
theorem test_decode_order : decode 0x39#8 = .error .reservedBits ∧ decode 0x19#8 = .error .reservedOpcode := by decide

/-- What the host asks: a word of the table, and a number that is no 8-bit word. -/
theorem test_decodeTableWord : decodeTableWord 8 0x15 = some (.putBit true) ∧ decodeTableWord 8 0x26 = none ∧
    decodeTableWord 16 0x101 = none := by decide

/-! ## Reset and the host -/

/-- R42: after reset GROUP_SIZE and STRIDE are 1, STATUS is 0x00, HEIGHT and LEN are 0. -/
theorem test_reset : State.reset.groupSize = 1#32 ∧ State.reset.stride = 1#16 ∧ State.reset.status = 0x00#8 ∧
    State.reset.height = 0#16 ∧ State.reset.len = 0#213 := by decide

/-- R23: 0x05 is SCAN with MODE = DEC, 0x02 DONE with MODE = ENC. -/
theorem test_status : State.status { base with phase := .scan, mode := .dec } = 0x05#8 ∧ base.status = 0x02#8 := by decide

/-- R41 (c), (a): a write keeps the low bits, and TILES is read-only. -/
theorem test_writeReg : (base.writeReg .height 0x12345).height = 0x2345#16 ∧ (base.writeReg .tiles 7).tiles = 0#32 := by
  decide

/-- R21: register 0x0D is LEN, and there is no register 0x13. -/
theorem test_regNumbers : Reg.ofNumber 0x0D = some .len ∧ Reg.ofNumber 0x13 = none ∧
    (Reg.all.map Reg.number) = List.range 19 := by decide

/-- A walk in progress, in the grid of S1 with its first pixel 255: 32 rows, 32 columns, one channel, LEN = 0. The header
register holds 30 as its first byte (stream bits `00110000`). -/
def walk : State :=
  { base with phase := .scan, height := 32#16, width := 32#16, channels := 1#8, tiles := 1024#32, cmd := 0x01#8,
              hdr := 0x30#1024 <<< 1016, gmem := [(0, 255#8), (2, 255#8), (31, 255#8), (1023, 255#8)] }

/-- A walk over a grid of 2 by 2 by 1, with a cell of it and a cell above it written. -/
def small : State := { walk with height := 2#16, width := 2#16, channels := 1#8, gmem := [(1, 7#8), (4, 9#8)] }

/-- S2: in a walk `wr CMD, 0x02`, `wr HEIGHT, 1` and `gw 0,0,0,77` are ignored. -/
theorem test_scan_writes :
    next (step { walk with script := [.wr .cmd 2] }) (· == walk) ∧
    next (step { walk with script := [.wr .height 1] }) (· == walk) ∧
    next (step { walk with script := [.gw 0 0 0 77#8] }) (· == walk) := by decide +kernel

/-- R71 (b): a register read in a walk returns the current value. -/
theorem test_scan_read :
    next (step { walk with bitcnt := 7#32, script := [.rd .bitcnt] }) (fun t => t.readLog == [7]) := by decide +kernel

/-- R260, R263: a reset in a walk keeps the grid's cells (below 2*2*1) and no other. -/
theorem test_reset_in_walk :
    next (step { small with script := [.reset] }) fun t =>
      t.phase == .idle && t.bitcnt == 0#32 && t.height == 0#16 && t.gmem == [(1, 7#8)] && t.kept == [(4, 0)] &&
        eraOf t.epoch 3 t.kept == 0 && eraOf t.epoch 4 t.kept == 1 := by decide +kernel

/-- R262: a reset at rest keeps no cell. -/
theorem test_reset_at_rest :
    next (step { small with phase := .done, script := [.reset] }) fun t => t.gmem == [] && t.kept == [] := by decide +kernel

/-- R71: the host's GMEM write at rest, by the address function (R62), and the read of it. -/
theorem test_gmem_access :
    next (step { base with height := 2#16, width := 3#16, channels := 2#8, script := [.gw 1 2 1 9#8] })
      (fun t => t.gmem == [(11, 9#8)]) ∧
    next (step { base with height := 2#16, width := 3#16, channels := 2#8, gmem := [(11, 9#8)], script := [.gr 1 2 1] })
      (fun t => t.readLog == [9]) := by decide +kernel

/-! ## The commands -/

/-- Y1, R220: the word 0x00 written to CMD clears ERR and ends in DONE. -/
theorem test_nop : next (step { base with err := 1#8, phase := .idle, script := [.wr .cmd 0x00] }) (· == base) := by
  decide +kernel

/-- Program P5: the illegal word 0x26 gives ERR = 7 and stays in CMD. -/
theorem test_illegal : next (step { base with script := [.wr .cmd 0x26] }) (· == { base with cmd := 0x26#8, err := 7#8 }) := by
  decide +kernel

/-- B6: 48 69 gives sixteen bits, most significant first. -/
theorem test_bytes2bits : next (exec .bytes2bits { base with plen := 2#32, pbuf := [(0, 0x48#8), (1, 0x69#8)] }) fun t =>
    t.blen == 16#32 && t.bitbuf 16 ==
      [false, true, false, false, true, false, false, false, false, true, true, false, true, false, false, true] := by
  decide +kernel

/-- B10: PLEN = 2^29 is BadOperand. -/
theorem test_bytes2bits_long : next (exec .bytes2bits { base with plen := 0x20000000#32 })
    (· == { base with plen := 0x20000000#32, err := 6#8 }) := by decide +kernel

/-- The bits of K13, thirteen ones, in BBUF. -/
def k13 : State := { base with blen := 13#32, bbuf := (List.range 13).map (·, true) }

/-- The bits of K9, `0000000001101001`, in BBUF. -/
def k9 : State :=
  { base with blen := 16#32, bbuf := (List.range 16).map fun i => (i, i == 9 || i == 10 || i == 12 || i == 15) }

/-- K9, K1: `MIN` loses the leading zero byte, and fails on the empty bitstring. -/
theorem test_bits2bytes_min : next (exec (.bits2bytes false) k9) (fun t => t.plen == 1#32 && t.pbuf == [(0, 0x69#8)]) ∧
    next (exec (.bits2bytes false) base) (· == { base with err := 2#8 }) := by decide +kernel

/-- K13, K9: `FIX` puts zero bits in front, and keeps the leading zero byte. -/
theorem test_bits2bytes_fix :
    next (exec (.bits2bytes true) k13) (fun t => t.plen == 2#32 && t.pbuf == [(0, 0x1F#8), (1, 0xFF#8)]) ∧
    next (exec (.bits2bytes true) k9) (fun t => t.plen == 2#32 && t.pbuf == [(0, 0x00#8), (1, 0x69#8)]) := by
  decide +kernel

/-- H5 and H6: the decimal text of a length. -/
theorem test_decStr64 : (decStr64 12345678901234567890).drop 44 =
    [0x31#8, 0x32#8, 0x33#8, 0x34#8, 0x35#8, 0x36#8, 0x37#8, 0x38#8, 0x39#8, 0x30#8, 0x31#8, 0x32#8, 0x33#8, 0x34#8, 0x35#8,
      0x36#8, 0x37#8, 0x38#8, 0x39#8, 0x30#8] ∧ decStr64 (10 ^ 64 - 1) = List.replicate 64 0x39#8 := by decide +kernel

/-- H8: LEN = 2^213 - 1 is PayloadTooLarge and leaves HDR. -/
theorem test_hdrBuild : next (exec .hdrBuild { base with len := BitVec.allOnes 213 })
    (· == { base with len := BitVec.allOnes 213, err := 4#8 }) := by decide +kernel

/-- Header bytes as a bitstring, the H3 header with its first byte and its options field replaced. -/
def header (b0 : Byte) (opts : List Byte) : List Bit :=
  bytesToBits ([b0] ++ List.replicate 61 0x30#8 ++ [0x31#8, 0x36#8] ++ opts)

/-- Sixty-four spaces. -/
def spaces : List Byte := List.replicate 64 0x20#8

/-- H17 and H22: a first digit 9, and an options field `a b  c` whose inner spaces are kept. -/
theorem test_hdrParse : next (exec .hdrParse { base with hdr := hdrOfBits (header 0x39#8
      ([0x61#8, 0x20#8, 0x62#8, 0x20#8, 0x20#8, 0x63#8] ++ List.replicate 58 0x20#8)) }) fun t =>
    t.err == 0#8 && t.len.toNat == 9 * 10 ^ 63 + 16 && t.optlen == 6#7 && t.optByte 2 == 0x62#8 := by decide +kernel

/-- H9: a `+` in the length field is MalformedHeader and nothing else is written. -/
theorem test_hdrParse_plus : next (exec .hdrParse { base with hdr := hdrOfBits (header 0x2B#8 spaces) })
    (· == { base with hdr := hdrOfBits (header 0x2B#8 spaces), err := 3#8 }) := by decide +kernel

/-- M1, the rows of SetParity. -/
theorem test_setParity :
    [0, 1, 2, 3, 4, 127, 128, 129, 200, 253, 254, 255].map (fun n => (setParity (BitVec.ofNat 8 n) false).toNat) =
      [0, 0, 2, 2, 4, 126, 128, 128, 200, 252, 254, 254] ∧
    [0, 1, 2, 3, 4, 127, 128, 129, 200, 253, 254, 255].map (fun n => (setParity (BitVec.ofNat 8 n) true).toNat) =
      [1, 1, 1, 3, 3, 127, 127, 129, 199, 253, 253, 255] := by decide

/-- The start grid of M2 to M14. -/
def grid23 : State :=
  { base with height := 2#16, width := 3#16, channels := 2#8, groupSize := 4#32,
              gmem := [(0, 8#8), (1, 7#8), (2, 0#8), (3, 255#8), (4, 2#8), (5, 3#8), (6, 9#8), (7, 9#8), (8, 128#8), (9, 1#8),
                (10, 254#8), (11, 100#8)] }

/-- M4: a 2 by 2 group at column 1 made odd. -/
theorem test_putBit : next (exec (.putBit true) { grid23 with col := 1#16 }) fun t =>
    t.err == 0#8 && t.stride == 2#16 && t.gmem == [(0, 8#8), (1, 7#8), (2, 1#8), (3, 255#8), (4, 1#8), (5, 3#8), (6, 9#8),
      (7, 9#8), (8, 127#8), (9, 1#8), (10, 253#8), (11, 99#8)] := by decide +kernel

/-- M7 and M9: a tile past the right edge is BadOperand with STRIDE written, group size 2 is InvalidGroupSize. -/
theorem test_putBit_errors :
    next (exec (.putBit true) { grid23 with col := 2#16 }) (· == { grid23 with col := 2#16, stride := 2#16, err := 6#8 }) ∧
    next (exec (.putBit true) { grid23 with groupSize := 2#32 }) (· == { grid23 with groupSize := 2#32, err := 5#8 }) := by
  decide +kernel

/-- M10 and M6: GET_BIT reads channel 0 of the pixel and does not look at the group size. -/
theorem test_getBit :
    next (exec .getBit { grid23 with groupSize := 2#32, row := 1#16, bitr := false }) (fun t => t.bitr && t.err == 0#8) ∧
    next (exec .getBit { grid23 with bitr := true }) (fun t => !t.bitr && t.err == 0#8) := by decide +kernel

/-- M11 and M12: ROW = HEIGHT, and COL = WIDTH, are BadOperand. -/
theorem test_getBit_outside :
    next (exec .getBit { grid23 with row := 2#16 }) (· == { grid23 with row := 2#16, err := 6#8 }) ∧
    next (exec .getBit { grid23 with col := 3#16 }) (· == { grid23 with col := 3#16, err := 6#8 }) := by decide +kernel

/-- G1: the valid group sizes up to 50. -/
theorem test_validGroupSize : (List.range 51).filter (fun g => ValidGroupSize g) = [1, 4, 9, 16, 25, 36, 49] := by
  decide +kernel

/-- G2, G3: the largest valid group size, and 2^32 - 1. -/
theorem test_isqrt : isqrt 4294836225 = 65535 ∧ ValidGroupSize 4294836225 ∧ isqrt 4294967295 = 65535 ∧
    ¬ ValidGroupSize 4294967295 := by decide +kernel

/-- G4 to G10: capacities. -/
theorem test_capacity : capacity 64 64 1 = 4096 ∧ capacity 64 64 3 = 441 ∧ capacity 65 67 2 = 1056 ∧
    capacity 100 50 3 = 528 ∧ capacity 2 2 3 = 0 ∧ capacity 0 64 1 = 0 := by decide

/-- G11: tile positions. -/
theorem test_tilePos : tilePos 67 2 1 = (0, 2) ∧ tilePos 67 2 32 = (0, 64) ∧ tilePos 67 2 33 = (2, 0) ∧
    tilePos 67 2 1055 = (62, 64) := by decide

/-- G12 to G15: the cursor's advance. -/
theorem test_nextTile : nextTile 5 2 7 0 = (7, 2) ∧ nextTile 5 2 7 2 = (9, 0) ∧ nextTile 4 2 7 2 = (9, 0) ∧
    nextTile 1 1 7 0 = (8, 0) ∧ nextTile 64 1 7 62 = (7, 63) ∧ nextTile 64 1 7 63 = (8, 0) := by decide

/-- The shape of E7: 65 by 67, 2 channels, group size 4. -/
def shape65 : State := { base with height := 65#16, width := 67#16, channels := 2#8, groupSize := 4#32 }

/-- E8: PLEN = 5 does not fit; STRIDE and TILES are written and nothing else. -/
theorem test_encode_capacity : next (exec .encode { shape65 with plen := 5#32 })
    (· == { shape65 with plen := 5#32, stride := 2#16, tiles := 1056#32, err := 1#8 }) := by decide +kernel

/-- E7: PLEN = 4 fits; the walk starts. -/
theorem test_encode_launch : next (exec .encode
      { shape65 with plen := 4#32, pbuf := [(0, 0#8), (1, 0#8), (2, 1#8), (3, 0xFF#8)] }) fun t =>
    t.phase == .scan && t.mode == .enc && t.err == 0#8 && t.tiles == 1056#32 && t.len == 32#213 && t.blen == 32#32 &&
      t.bitbuf 32 == List.replicate 23 false ++ List.replicate 9 true := by decide +kernel

/-- S1, step 1: header bit 0 is 0, so the first sample goes from 255 to 254, and the cursor to (0, 1). -/
theorem test_encode_step : next (step walk)
    (· == { walk with bitcnt := 1#32, col := 1#16, gmem := [(0, 254#8), (2, 255#8), (31, 255#8), (1023, 255#8)] }) := by
  decide +kernel

/-- S1, step 1024: the last tile, after which the cursor stays and PHASE is DONE. -/
theorem test_encode_last : next (step { walk with bitcnt := 1023#32, row := 31#16, col := 31#16 })
    (· == { walk with bitcnt := 1024#32, row := 31#16, col := 31#16, phase := .done,
                      gmem := [(0, 255#8), (2, 255#8), (31, 255#8), (1023, 254#8)] }) := by decide +kernel

/-- X1 and X14: 1023 tiles are too few; no channels is BadOperand. -/
theorem test_decode_launch_errors :
    next (exec .decode { base with height := 31#16, width := 33#16, channels := 1#8 })
      (· == { base with height := 31#16, width := 33#16, channels := 1#8, tiles := 1023#32, err := 1#8 }) ∧
    next (exec .decode { base with height := 64#16, width := 64#16 })
      (· == { base with height := 64#16, width := 64#16, err := 6#8 }) := by decide +kernel

/-- The 1023rd tile of a DECODE walk over a header `h` on the grid of X6, 32 by 33. -/
def atHeaderEnd (h : List Bit) (last : Byte) : State :=
  { base with phase := .scan, mode := .dec, height := 32#16, width := 33#16, channels := 1#8, tiles := 1056#32,
              row := 31#16, bitcnt := 1023#32, hdr := hdrOfBits (h.take 1023 ++ [true]), gmem := [(1023, last)] }

/-- The header of LEN = 33 (H-style, empty options). -/
def hdr33 : List Bit := bytesToBits (List.replicate 62 0x30#8 ++ [0x33#8, 0x33#8] ++ spaces)

/-- The header of LEN = 0. -/
def hdr0 : List Bit := bytesToBits (List.replicate 64 0x30#8 ++ spaces)

/-- X8: LEN = 33 does not fit 1056 tiles; the cursor stays at (31, 0). -/
theorem test_decode_too_long : next (step (atHeaderEnd hdr33 2#8)) fun t =>
    t.err == 1#8 && t.phase == .done && t.len == 33#213 && t.optlen == 0#7 && t.bitcnt == 1024#32 && t.row == 31#16 &&
      t.col == 0#16 && t.hdr == hdrOfBits hdr33 := by decide +kernel

/-- X10: the last payload bit of LEN = 13, `0000000000001`, gives the bytes 00 01. -/
theorem test_decode_finalise : next (step
      { base with phase := .scan, mode := .dec, height := 32#16, width := 33#16, channels := 1#8, tiles := 1056#32,
                  row := 31#16, col := 13#16, bitcnt := 1036#32, len := 13#213,
                  bbuf := (List.range 12).map (·, false), gmem := [(1036, 1#8)] }) fun t =>
    t.err == 0#8 && t.phase == .done && t.blen == 13#32 && t.plen == 2#32 && t.pbuf == [(0, 0x00#8), (1, 0x01#8)] &&
      t.bitcnt == 1037#32 && t.row == 31#16 && t.col == 13#16 := by decide +kernel

/-- The host's way in: a word placed with `withFetchWord` is the next launch, in a walk too. -/
theorem test_withFetchWord :
    next (step (walk.withFetchWord 8 0x06)) (fun t => t.cmd == 0x06#8 && t.phase == .done) ∧
    next (step (State.reset.withFetchWord 8 0x11)) (fun t => t.cmd == 0x11#8 && t.err == 7#8) := by decide +kernel

/-! ## Witnesses -/

theorem next_spec {o : Host.Outcome State Fault Refusal} {p : State → Bool} (h : next o p = true) :
    ∃ t, o = .next t ∧ p t = true := by
  cases o <;> simp_all [next]

/-- 2 is no square. -/
theorem two_no_square : ∀ q, 1 ≤ q → 2 ≠ q * q := by
  intro q _ h
  have : q ≤ 1 ∨ 2 ≤ q := by omega
  rcases this with h1 | h1
  · have : q = 1 := by omega
    subst this; omega
  · have := Nat.mul_le_mul h1 h1; omega

/-- The grid of E1 and S1 at rest, all registers as a host leaves them: an ENCODE of the empty payload fits exactly. -/
def ready : State := { base with height := 32#16, width := 32#16, channels := 1#8 }

/-- The last tile step of the walk. -/
def walkLast : State := { walk with bitcnt := 1023#32, row := 31#16, col := 31#16 }

/-- A DECODE walk over the grid of X6 (32 by 33), in its payload pass, two bits of LEN = 13 collected. -/
def decoding : State :=
  { base with phase := .scan, mode := .dec, height := 32#16, width := 33#16, channels := 1#8, tiles := 1056#32,
              row := 31#16, col := 3#16, bitcnt := 1026#32, len := 13#213, bbuf := [(0, false), (1, true)],
              gmem := [(0, 1#8), (1026, 1#8), (1036, 1#8)] }

/-- The DECODE walk at its first tile. -/
def decodingFirst : State := { decoding with row := 0#16, col := 0#16, bitcnt := 0#32 }

/-- The DECODE walk at the last tile of a row of the header pass. -/
def decodingWrap : State := { decoding with row := 0#16, col := 32#16, bitcnt := 32#32 }

/-- The DECODE walk at the last tile of a payload of 13 bits. -/
def decodingLast : State := { decoding with col := 13#16, bitcnt := 1036#32, bbuf := (List.range 12).map (·, false) }

theorem walk_moves : walk.SequencerMoves := ⟨rfl, .inl rfl⟩
theorem walkLast_moves : walkLast.SequencerMoves := ⟨rfl, .inl rfl⟩
theorem decoding_moves : decoding.SequencerMoves := ⟨rfl, .inl rfl⟩

/-- The ENCODE walk meets the invariant. -/
theorem walk_inv : walk.Inv :=
  ⟨⟨by decide, by decide, by decide, by decide, by decide, by decide, by decide⟩, ⟨by decide, by decide, by decide⟩,
    fun _ => ⟨by decide, by decide, by decide, by decide, by decide, by decide, fun _ => by decide,
      fun h => absurd h (by decide)⟩, fun h => absurd h (by decide)⟩

/-- The DECODE walk meets the invariant. -/
theorem decoding_inv : decoding.Inv :=
  ⟨⟨by decide, by decide, by decide, by decide, by decide, by decide, by decide⟩, ⟨by decide, by decide, by decide⟩,
    fun _ => ⟨by decide, by decide, by decide, by decide, by decide, by decide, fun h => absurd h (by decide),
      fun _ _ => by decide⟩, fun h => absurd h (by decide)⟩

theorem witness_OpcodeMapSelectsRows :
    (0x15#8 &&& 0xEF#8 = 0x05#8 ∧ 0x00#8 &&& 0xFF#8 = 0x00#8) ∧
    (∀ m ∈ [0#8, 1#8, 2#8, 3#8, 4#8, 6#8, 7#8], 0x09#8 &&& 0xFF#8 ≠ m) ∧ 0x09#8 &&& 0xEF#8 ≠ 0x05#8 ∧
    0x09#8 &&& 0xEF#8 ≠ 0x08#8 := by decide

theorem witness_IllegalWordsRaiseIllegalCommand : Instr.bits2bytes true ≠ .nop ∧
    ∃ (s : State) (v : Nat) (tl : List HostAction) (e : Illegal),
      s.phase ≠ .scan ∧ s.script = .wr .cmd v :: tl ∧ decode (BitVec.ofNat 8 v) = .error e :=
  ⟨by decide, { base with script := [.wr .cmd 0x11] }, 0x11, [], .flagNotTaken, by decide, rfl, by decide⟩

theorem witness_DecodeInvertsEncode : (Instr.putBit true).wellFormed = true ∧ decode 0x18#8 = .ok (.bits2bytes true) := by
  decide

theorem witness_CmdWriteLaunchesDecodedCommand :
    (∃ (s : State) (v : Nat) (tl : List HostAction) (i : Instr), s.phase ≠ .scan ∧ s.script = .wr .cmd v :: tl ∧
      decode (BitVec.ofNat 8 v) = .ok i) ∧
    (∃ (s : State) (v : Nat) (tl : List HostAction) (e : Illegal), s.phase ≠ .scan ∧ s.script = .wr .cmd v :: tl ∧
      decode (BitVec.ofNat 8 v) = .error e) ∧
    (∃ t, exec .encode ready = .next t) ∧ ∃ t, exec .nop base = .next t :=
  ⟨⟨{ base with script := [.wr .cmd 0x15] }, 0x15, [], .putBit true, by decide, rfl, by decide⟩,
    ⟨{ base with script := [.wr .cmd 0x26] }, 0x26, [], .reservedBits, by decide, rfl, by decide⟩, ⟨_, rfl⟩, ⟨_, rfl⟩⟩

/-- Each clause: IDLE kept and IDLE by reset, a walk's end, a walk's start, DONE left for SCAN. -/
theorem witness_PhaseMachineMoves :
    next (step State.reset) (·.phase == .idle) ∧
    next (step { base with script := [.reset] }) (·.phase == .idle) ∧
    (walkLast.phase = .scan ∧ next (step walkLast) (·.phase == .done)) ∧
    (ready.phase = .done ∧ next (step { ready with script := [.wr .cmd 1] }) (·.phase == .scan)) ∧
    (State.reset.phase = .idle ∧ next (step { State.reset with script := [.wr .cmd 0] }) (·.phase == .done)) := by
  decide +kernel

theorem witness_CommandsWriteOnlyTheirState :
    (∀ i ∈ [Instr.nop, .encode, .decode, .hdrBuild, .hdrParse, .putBit false, .putBit true, .getBit, .bytes2bits,
      .bits2bytes false, .bits2bytes true], ∃ t, exec i ready = .next t) ∧
    (walk.SequencerMoves ∧ walk.mode = .enc ∧ ∃ t, step walk = .next t) ∧
    (decoding.SequencerMoves ∧ decoding.mode = .dec ∧ ∃ t, step decoding = .next t) := by
  refine ⟨fun i _ => exec_isNext i ready, ⟨walk_moves, rfl, ?_⟩, decoding_moves, rfl, ?_⟩
  · obtain ⟨t, h, _⟩ := next_spec (show next (step walk) (fun _ => true) = true by decide +kernel); exact ⟨t, h⟩
  · obtain ⟨t, h, _⟩ := next_spec (show next (step decoding) (fun _ => true) = true by decide +kernel); exact ⟨t, h⟩

theorem witness_ErrorCodesPerCommand :
    (∃ t, exec .encode ready = .next t) ∧ (∃ t, exec (.bits2bytes false) base = .next t) ∧
    decoding.SequencerMoves ∧ next (step decoding) (fun t => t.err == decoding.err) ∧
    next (step (atHeaderEnd hdr33 2#8)) (fun t => t.err == 1#8) ∧ decode 0x26#8 = .error .reservedBits :=
  ⟨⟨_, rfl⟩, ⟨_, rfl⟩, decoding_moves, by decide +kernel, by decide +kernel, by decide⟩

theorem witness_RaiseWritesErrAndPhaseOnly :
    next (exec .encode { ready with plen := 1#32 }) (fun t => t.err != 0#8) ∧
    next (exec (.putBit true) { grid23 with col := 2#16 }) (fun t => t.err != 0#8) := by decide +kernel

/-- MODE changed by a launch and by reset, a walk of each kind started, PHASE changed by reset, a launch, a walk's end. -/
theorem witness_StatusHoldsPhaseAndMode :
    next (step { ready with script := [.wr .cmd 2] }) (fun t => t.mode != ready.mode) ∧
    next (step { decoding with script := [.reset] }) (fun t => t.mode != decoding.mode && t.phase != decoding.phase) ∧
    next (exec .encode ready) (·.phase == .scan) ∧ next (exec .decode ready) (·.phase == .scan) ∧
    next (step { ready with script := [.wr .cmd 1] }) (fun t => t.phase != ready.phase) ∧
    next (step walkLast) (fun t => t.phase != walkLast.phase) ∧ next (launch 0x01#8 ready) (·.phase == .scan) ∧
    next (launch 0xFF#8 ready) (·.phase == .done) := by decide +kernel

/-- Both sides of the limit 2^29. -/
theorem witness_Bytes2bitsSerialisesPayload :
    (State.plen { base with plen := 0x1FFFFFFF#32 }).toNat < 2 ^ 29 ∧
    2 ^ 29 ≤ (State.plen { base with plen := 0x20000000#32 }).toNat := by decide

/-- The last bit of two bytes. -/
theorem witness_BytesToBitsByPosition : 1 < [0x48#8, 0x69#8].length ∧ 7 < 8 ∧ 15 < 8 * [0x48#8, 0x69#8].length := by
  decide

/-- The empty bitstring, the value 0 (k = 0), the value 1 (k = 1), K9 (k = 7). -/
theorem witness_Bits2bytesDeserialises :
    base.blen.toNat = 0 ∧
    (∃ s : State, 1 ≤ s.blen.toNat ∧ streamValue s.blen.toNat s.bbufAt = 0) ∧
    (∃ s : State, 1 ≤ s.blen.toNat ∧ 2 ^ (1 - 1) ≤ streamValue s.blen.toNat s.bbufAt ∧
      streamValue s.blen.toNat s.bbufAt < 2 ^ 1) ∧
    (1 ≤ k9.blen.toNat ∧ 2 ^ (7 - 1) ≤ streamValue k9.blen.toNat k9.bbufAt ∧
      streamValue k9.blen.toNat k9.bbufAt < 2 ^ 7) :=
  ⟨by decide, ⟨{ base with blen := 1#32, bbuf := [(0, false)] }, by decide, by decide +kernel⟩,
    ⟨{ base with blen := 1#32, bbuf := [(0, true)] }, by decide, by decide +kernel⟩, by decide +kernel⟩

/-- The largest length that fits, and the smallest that does not. -/
theorem witness_HdrBuildWritesLengthAndOptions :
    (State.len { base with len := BitVec.ofNat 213 (10 ^ 64 - 1) }).toNat < 10 ^ 64 ∧
    10 ^ 64 ≤ (State.len { base with len := BitVec.ofNat 213 (10 ^ 64) }).toNat := by decide +kernel

/-- A length field of digits, both ends of their range among them, and one with a `+` (H9). -/
theorem witness_HdrParseReadsLengthAndOptions :
    (∀ j, j < 64 → 0x30 ≤ (State.hdrByte { base with hdr := hdrOfBits (header 0x39#8 spaces) } j).toNat ∧
      (State.hdrByte { base with hdr := hdrOfBits (header 0x39#8 spaces) } j).toNat ≤ 0x39) ∧
    (∃ j, j < 64 ∧ ¬ (0x30 ≤ (State.hdrByte { base with hdr := hdrOfBits (header 0x2B#8 spaces) } j).toNat ∧
      (State.hdrByte { base with hdr := hdrOfBits (header 0x2B#8 spaces) } j).toNat ≤ 0x39)) :=
  ⟨by decide +kernel, 0, by decide, by decide +kernel⟩

theorem witness_HeaderBuildParseRoundTrip : 10 ^ 64 - 1 < 10 ^ 64 ∧ base.len.toNat < 10 ^ 64 := by decide +kernel

/-- No channels, group size 2, a tile past the bottom and past the right edge, a tile that just fits. -/
theorem witness_PutBitSetsTileParity :
    base.channels.toNat = 0 ∧
    (1 ≤ grid23.channels.toNat ∧ ∀ q, 1 ≤ q → (State.groupSize { grid23 with groupSize := 2#32 }).toNat ≠ q * q) ∧
    (grid23.groupSize.toNat = 2 * 2 ∧ grid23.height.toNat < (State.row { grid23 with row := 1#16 }).toNat + 2 ∧
      grid23.width.toNat < (State.col { grid23 with col := 2#16 }).toNat + 2) ∧
    (grid23.row.toNat + 2 ≤ grid23.height.toNat ∧ (State.col { grid23 with col := 1#16 }).toNat + 2 ≤ grid23.width.toNat ∧
      grid23.InGrid 0 2 1 ∧ grid23.InGrid 0 0 0) :=
  ⟨by decide, ⟨by decide, two_no_square⟩, by decide, by decide⟩

/-- Each way to miss the grid, and the last pixel inside it. -/
theorem witness_GetBitReadsAnchorParity :
    base.channels.toNat = 0 ∧ grid23.height.toNat ≤ (State.row { grid23 with row := 2#16 }).toNat ∧
    grid23.width.toNat ≤ (State.col { grid23 with col := 3#16 }).toNat ∧
    (1 ≤ grid23.channels.toNat ∧ (State.row { grid23 with row := 1#16 }).toNat < grid23.height.toNat ∧
      (State.col { grid23 with col := 2#16 }).toNat < grid23.width.toNat) := by decide

theorem witness_GetBitTwiceAgrees : ∃ s u t v : State, s.InGrid s.row.toNat s.col.toNat 0 ∧ exec .getBit s = .next t ∧
    u.row = t.row ∧ u.col = t.col ∧ u.height = t.height ∧ u.width = t.width ∧ u.channels = t.channels ∧
    u.grid u.row.toNat u.col.toNat 0 = t.grid t.row.toNat t.col.toNat 0 ∧ exec .getBit u = .next v :=
  ⟨grid23, getBit grid23, getBit grid23, getBit (getBit grid23), by decide, rfl, rfl, rfl, rfl, rfl, rfl, rfl, rfl⟩

theorem witness_GroupWriteThenRead : ∃ (s u : State) (r c t : Nat) (b : Bit), s.TileInGrid r c t ∧ 1 ≤ t ∧
    1 ≤ s.channels.toNat ∧ u.width = s.width ∧ u.channels = s.channels ∧
    u.grid r c 0 = (encodeBitIntoGroup r c t b s).grid r c 0 :=
  ⟨grid23, encodeBitIntoGroup 0 1 2 true grid23, 0, 1, 2, true, by decide, by decide, by decide, by decide +kernel,
    by decide +kernel, rfl⟩

/-- A tile in the grid, a sample in it, one outside it, and an address outside the grid. -/
theorem witness_GroupWriteTouchesExactlyItsTile : grid23.TileInGrid 0 1 2 ∧ grid23.InGrid 1 2 1 ∧ grid23.InGrid 1 0 1 ∧
    ∀ r c k, grid23.InGrid r c k → 12 ≠ grid23.addr r c k :=
  ⟨by decide, by decide, by decide, fun _ _ _ h e => by
    have := gridAddr_lt h.1 h.2.1 h.2.2
    exact absurd this (by rw [State.addr] at e; rw [← e]; decide)⟩

theorem witness_BitCodecRoundTrips : 1 ≤ 1 ∧ ([0x69#8] : List Byte).head? ≠ some 0#8 ∧
    ([] : List Byte).head? ≠ some 0#8 := by decide

/-- No channels, group size 2, one tile too few (E3), exactly enough (E1). -/
theorem witness_EncodeLaunchChecksThenStarts :
    base.channels.toNat = 0 ∧
    (1 ≤ ready.channels.toNat ∧ ∀ q, 1 ≤ q → (State.groupSize { ready with groupSize := 2#32 }).toNat ≠ q * q) ∧
    (ready.groupSize.toNat = 1 * 1 ∧ 31 / 1 * (33 / 1) < 1024 + 8 * ready.plen.toNat ∧
      (State.height { ready with height := 31#16 }).toNat = 31 ∧ (State.width { ready with width := 33#16 }).toNat = 33) ∧
    1024 + 8 * ready.plen.toNat ≤ ready.height.toNat / 1 * (ready.width.toNat / 1) :=
  ⟨by decide, ⟨by decide, two_no_square⟩, by decide, by decide⟩

/-- The first step, the last tile of a row, the last step, and sample addresses inside and outside the tile. -/
theorem witness_EncodeTileStepWritesOneTile :
    (walk.SequencerMoves ∧ walk.mode = .enc ∧ walk.TileInGrid walk.row.toNat walk.col.toNat walk.stride.toNat ∧
      walk.bitcnt.toNat + 1 < 2 ^ 32 ∧ 0 ∈ tileAddrs 32 1 0 0 1 ∧ 1 ∉ tileAddrs 32 1 0 0 1 ∧
      walk.bitcnt.toNat + 1 ≠ 1024 + walk.len.toNat ∧
      walk.col.toNat + 2 * walk.stride.toNat ≤ walk.width.toNat ∧
      walk.width.toNat < (State.col { walk with col := 31#16 }).toNat + 2 * walk.stride.toNat) ∧
    (walkLast.SequencerMoves ∧ walkLast.mode = .enc ∧
      walkLast.TileInGrid walkLast.row.toNat walkLast.col.toNat walkLast.stride.toNat ∧
      walkLast.bitcnt.toNat + 1 = 1024 + walkLast.len.toNat) ∧
    (walk.Inv ∧ walk.bitcnt.toNat + 1023 < 1024 + walk.len.toNat) :=
  ⟨⟨walk_moves, by decide, by decide, by decide, by decide, by decide, by decide, by decide, by decide⟩,
    ⟨walkLast_moves, by decide, by decide, by decide⟩, walk_inv, by decide⟩

theorem witness_EncodeFailsBeforeAnySample :
    next (exec .encode base) (fun t => t.err != 0#8) ∧
    next (exec .encode { ready with plen := 1#32 }) (fun t => t.err != 0#8) ∧
    (walk.Inv ∧ walk.SequencerMoves ∧ walk.mode = .enc) :=
  ⟨by decide +kernel, by decide +kernel, walk_inv, walk_moves, rfl⟩

/-- ENCODE where it fits exactly. -/
theorem ready_fits (tl : List HostAction) : State.EncodeFits { ready with script := tl } :=
  ⟨(by decide : 1 ≤ 1), (by decide +kernel : ValidGroupSize 1), (by decide +kernel : 1024 ≤ capacity 32 32 (isqrt 1))⟩

/-- A grid without channels, and the grid of E1, with a sample of its first tile and one of its last. -/
theorem witness_EncodeHidesStreamInGrid :
    (∃ s : State, s.phase ≠ .scan ∧ s.script = runLines .encode ++ [] ∧ ¬ s.EncodeFits) ∧
    (∃ s : State, s.phase ≠ .scan ∧ s.script = runLines .encode ++ [] ∧ s.EncodeFits ∧ s.groupSize.toNat = 1 * 1 ∧
      0 < 1024 + 8 * s.plen.toNat ∧ s.InTile 1 0 0 ∧ s.InTile 1 1023 1023) :=
  ⟨⟨{ base with script := runLines .encode }, by decide, by decide, fun h => absurd h.1 (by decide)⟩,
    ⟨{ ready with script := runLines .encode }, by decide, by decide, ready_fits _, by decide, by decide,
      by unfold State.InTile; decide +kernel, by unfold State.InTile; decide +kernel⟩⟩

theorem witness_EncodeLeavesOtherSamples : ∃ s : State, s.phase ≠ .scan ∧ s.script = runLines .encode ++ [] ∧
    s.EncodeFits ∧ s.groupSize.toNat = 1 * 1 :=
  ⟨{ ready with script := runLines .encode }, by decide, by decide, ready_fits _, by decide⟩

theorem witness_EncodeSucceedsExactlyWhenItFits : (∃ t, exec .encode ready = .next t) ∧ 1 ≤ ready.channels.toNat ∧
    ValidGroupSize ready.groupSize.toNat :=
  ⟨⟨_, rfl⟩, by decide, by decide +kernel⟩

/-- No channels, group size 2, 1023 tiles (X1), 1024 tiles. -/
theorem witness_DecodeLaunchChecksThenStarts :
    base.channels.toNat = 0 ∧
    (1 ≤ ready.channels.toNat ∧ ∀ q, 1 ≤ q → (State.groupSize { ready with groupSize := 2#32 }).toNat ≠ q * q) ∧
    (ready.groupSize.toNat = 1 * 1 ∧ 31 / 1 * (33 / 1) < 1024) ∧
    1024 ≤ ready.height.toNat / 1 * (ready.width.toNat / 1) :=
  ⟨by decide, ⟨by decide, two_no_square⟩, by decide, by decide⟩

/-- The header of LEN = 32, which just fits 1056 tiles. -/
def hdr32 : List Bit := bytesToBits (List.replicate 62 0x30#8 ++ [0x33#8, 0x32#8] ++ spaces)

/-- The first header bit, the last tile of a row, a payload bit, the last payload bit, and the bit that completes a malformed
header, a header of LEN = 32 (the walk goes on) and one of LEN = 0 (the walk ends). -/
theorem witness_DecodeTileStepCollectsOneBit :
    (∀ s ∈ [decodingFirst, decodingWrap, decoding, decodingLast, atHeaderEnd [] 2#8, atHeaderEnd hdr32 2#8,
        atHeaderEnd hdr0 2#8],
      s.SequencerMoves ∧ s.mode = .dec ∧ s.InGrid s.row.toNat s.col.toNat 0 ∧ s.bitcnt.toNat + 1 < 2 ^ 32 ∧
      s.TileInGrid s.row.toNat s.col.toNat s.stride.toNat) ∧
    next (step (atHeaderEnd [] 2#8)) (fun t => t.phase == .done && t.err == 3#8) ∧
    next (step (atHeaderEnd hdr32 2#8)) (fun t => t.phase == .scan && t.len == 32#213) ∧
    next (step (atHeaderEnd hdr0 2#8)) (fun t => t.phase == .done && t.err == 0#8) := by
  refine ⟨fun s hs => ?_, by decide +kernel⟩
  simp only [List.mem_cons, List.not_mem_nil, or_false] at hs
  rcases hs with rfl | rfl | rfl | rfl | rfl | rfl | rfl <;>
    exact ⟨⟨rfl, .inl rfl⟩, by decide, by decide, by decide, by decide⟩

theorem atHeaderEnd_nil_inv : (atHeaderEnd [] 2#8).Inv :=
  ⟨⟨by decide, by decide, by decide, by decide, by decide, by decide, by decide⟩, ⟨by decide, by decide, by decide⟩,
    fun _ => ⟨by decide, by decide, by decide, by decide, by decide, by decide, fun h => absurd h (by decide),
      fun _ h => absurd h (by decide)⟩, fun h => absurd h (by decide)⟩

theorem inv_setHdr {s : State} (x : BitVec 1024) (i : s.Inv) : State.Inv { s with hdr := x } :=
  ⟨⟨i.memory.1, i.memory.2, i.memory.3, i.memory.4, i.memory.5, i.memory.6, i.memory.7⟩, ⟨i.ranges.1, i.ranges.2, i.ranges.3⟩,
    fun h => have w := i.walk h; ⟨w.1, w.2, w.3, w.4, w.5, w.6, w.7, w.8⟩,
    fun h => have d := i.idle h; d.congr rfl rfl rfl rfl rfl rfl rfl rfl rfl rfl⟩

theorem atHeaderEnd_inv (h : List Bit) : (atHeaderEnd h 2#8).Inv :=
  inv_setHdr (hdrOfBits (h.take 1023 ++ [true])) atHeaderEnd_nil_inv

theorem decodingLast_inv : decodingLast.Inv :=
  ⟨⟨by decide, by decide, by decide, by decide, by decide, by decide, by decide⟩, ⟨by decide, by decide, by decide⟩,
    fun _ => ⟨by decide, by decide, by decide, by decide, by decide, by decide, fun h => absurd h (by decide),
      fun _ _ => by decide⟩, fun h => absurd h (by decide)⟩

/-- What a DECODE at stream bit 1023 has collected. -/
def collected (s : State) : List Bit := (List.range 1023).map s.hdrAt ++ [odd (s.grid s.row.toNat s.col.toNat 0)]

/-- A malformed header, LEN = 33 in 1056 tiles (X8), LEN = 32 in 1056 tiles (X7), LEN = 0 (X4). -/
theorem witness_DecodeHeaderCompletes : ∀ p ∈ [(List.replicate 1024 false, none), (hdr33, some (33, spaces, 0)),
      (hdr32, some (32, spaces, 0)), (hdr0, some (0, spaces, 0))],
    (atHeaderEnd p.1 2#8).SequencerMoves ∧ (atHeaderEnd p.1 2#8).mode = .dec ∧
    (atHeaderEnd p.1 2#8).InGrid 31 0 0 ∧ (atHeaderEnd p.1 2#8).bitcnt.toNat = 1023 ∧
    parseHeader (collected (atHeaderEnd p.1 2#8)) = p.2 ∧ (atHeaderEnd p.1 2#8).tiles.toNat = 1056 ∧ (atHeaderEnd p.1 2#8).Inv := by
  intro p hp
  refine ⟨⟨rfl, .inl rfl⟩, rfl, (by decide : 31 < 32 ∧ 0 < 33 ∧ 0 < 1), rfl, ?_, rfl, atHeaderEnd_inv _⟩
  simp only [List.mem_cons, List.not_mem_nil, or_false] at hp
  rcases hp with rfl | rfl | rfl | rfl <;> decide +kernel

theorem witness_DecodeFinalisesPayload : decodingLast.SequencerMoves ∧ decodingLast.mode = .dec ∧
    decodingLast.InGrid decodingLast.row.toNat decodingLast.col.toNat 0 ∧ decodingLast.bitcnt.toNat + 1 < 2 ^ 32 ∧
    1024 ≤ decodingLast.bitcnt.toNat ∧ decodingLast.bitcnt.toNat + 1 = 1024 + decodingLast.len.toNat ∧ decodingLast.Inv ∧
    ((atHeaderEnd hdr0 2#8).SequencerMoves ∧ (atHeaderEnd hdr0 2#8).Inv ∧ (atHeaderEnd hdr0 2#8).bitcnt.toNat = 1023 ∧
      1024 ≤ (atHeaderEnd hdr0 2#8).tiles.toNat ∧ parseHeader (collected (atHeaderEnd hdr0 2#8)) = some (0, spaces, 0)) :=
  ⟨⟨rfl, .inl rfl⟩, by decide, by decide, by decide, by decide, by decide, decodingLast_inv, ⟨rfl, .inl rfl⟩,
    atHeaderEnd_inv _, rfl, by decide, by decide +kernel⟩

theorem written?_cells (f : Nat → Byte) : ∀ n a i, a ≤ i → i < a + n →
    Memory.written? ((List.range' a n).map fun j => (j, f j)) i = some (f i)
  | 0, _, _, h1, h2 => by omega
  | n + 1, a, i, h1, h2 => by
    rw [List.range'_succ, List.map_cons, Memory.written?]
    by_cases h : i = a
    · rw [if_pos h, h]
    · rw [if_neg h]; exact written?_cells f n (a + 1) i (by omega) (by omega)

/-- A grid of one channel with stream bit `i` as the sample of tile `i`, and `run DECODE` to come. -/
def coded (h w : BitVec 16) (bits : List Bit) : State :=
  { base with height := h, width := w, channels := 1#8, script := runLines .decode,
              gmem := (List.range' 0 1024).map fun i => (i, if bits.getD i false then 1#8 else 0#8) }

theorem tileBits_coded (h w : BitVec 16) {bits : List Bit} (hb : bits.length = 1024) :
    (coded h w bits).tileBits 1 0 1024 = bits := by
  refine List.ext_getElem (by simp [State.tileBits, hb]) fun i h1 h2 => ?_
  have hi : i < 1024 := by omega
  have ha : (coded h w bits).addr ((i / (w.toNat / 1)) * 1) ((i % (w.toNat / 1)) * 1) 0 = i := by
    show ((i / (w.toNat / 1)) * 1 * w.toNat + (i % (w.toNat / 1)) * 1) * 1 + 0 = i
    have := Nat.div_add_mod' i w.toNat
    simpa using this
  have hg : (coded h w bits).gmemAt i = if bits.getD i false then 1#8 else 0#8 := by
    rw [State.gmemAt, Memory.read, show (coded h w bits).gmem =
      (List.range' 0 1024).map fun i => (i, if bits.getD i false then 1#8 else 0#8) from rfl,
      written?_cells (fun i => if bits.getD i false then 1#8 else 0#8) 1024 0 i (by omega) (by omega)]
    rfl
  simp only [State.tileBits, List.getElem_map, List.getElem_range, Nat.zero_add]
  show odd ((coded h w bits).gmemAt ((coded h w bits).addr (i / (w.toNat / 1) * 1) (i % (w.toNat / 1) * 1) 0)) = _
  rw [ha, hg, List.getD_eq_getElem?_getD, List.getElem?_eq_getElem h2]
  cases bits[i] <;> decide

/-- Every row of R206: no channels, group size 2, too few tiles, and the headers of X2, X8, X4. -/
theorem witness_DecodeRecoversStreamFromGrid :
    (∀ bits, (coded 32#16 33#16 bits).phase ≠ .scan ∧ (coded 32#16 33#16 bits).script = runLines .decode ++ [] ∧
      (coded 32#16 33#16 bits).DecodeStarts ∧ (coded 32#16 33#16 bits).groupSize.toNat = 1 * 1 ∧
      (coded 32#16 33#16 bits).capacityAt 1 = 1056 ∧ (coded 31#16 33#16 bits).capacityAt 1 < 1024) ∧
    base.channels.toNat = 0 ∧
    (∀ q, 1 ≤ q → (State.groupSize { coded 32#16 33#16 [] with groupSize := 2#32 }).toNat ≠ q * q) ∧
    parseHeader ((coded 32#16 33#16 (List.replicate 1024 false)).tileBits 1 0 1024) = none ∧
    parseHeader ((coded 32#16 33#16 hdr33).tileBits 1 0 1024) = some (33, spaces, 0) ∧
    parseHeader ((coded 32#16 33#16 hdr32).tileBits 1 0 1024) = some (32, spaces, 0) ∧
    parseHeader ((coded 32#16 33#16 hdr0).tileBits 1 0 1024) = some (0, spaces, 0) := by
  refine ⟨fun bits => ⟨by simp [coded, base], rfl,
    ⟨(by decide : 1 ≤ 1), (by decide +kernel : ValidGroupSize 1), (by decide +kernel : 1024 ≤ capacity 32 33 (isqrt 1))⟩,
    rfl, (by decide : capacity 32 33 1 = 1056), (by decide : capacity 31 33 1 < 1024)⟩, by decide, two_no_square, ?_, ?_, ?_,
    ?_⟩
  · rw [tileBits_coded _ _ List.length_replicate]; decide +kernel
  · rw [tileBits_coded _ _ (by decide +kernel)]; decide +kernel
  · rw [tileBits_coded _ _ (by decide +kernel)]; decide +kernel
  · rw [tileBits_coded _ _ (by decide +kernel)]; decide +kernel

/-- The ENCODE of E1, and after any end state `t` of it the same machine with `run DECODE` to come. -/
theorem witness_DecodeRecoversEncodedPayload : ∃ s : State, s.phase ≠ .scan ∧ s.script = runLines .encode ++ [] ∧
    s.EncodeFits ∧ s.groupSize.toNat = 1 * 1 ∧
    ∀ t : State, t.phase = .done → ∃ u : State, u.phase ≠ .scan ∧ u.script = runLines .decode ++ [] ∧
      u.height = t.height ∧ u.width = t.width ∧ u.channels = t.channels ∧ u.groupSize = t.groupSize ∧
      ∀ i, i < 1024 + 8 * s.plen.toNat → u.grid (tilePos u.width.toNat 1 i).1 (tilePos u.width.toNat 1 i).2 0 =
        t.grid (tilePos u.width.toNat 1 i).1 (tilePos u.width.toNat 1 i).2 0 :=
  ⟨{ ready with script := runLines .encode }, by decide, by decide, ready_fits _, by decide, fun t ht =>
    ⟨{ t with script := runLines .decode }, by simp [ht], rfl, rfl, rfl, rfl, rfl, fun _ _ => rfl⟩⟩

/-- The same walk with another sample of the grid overwritten, and the anchor's parity kept. -/
theorem witness_DecodeIgnoresRedundantSamples : decoding.SequencerMoves ∧ decoding.mode = .dec ∧
    odd (State.grid { decoding with gmem := [(0, 8#8), (1026, 77#8)] } decoding.row.toNat decoding.col.toNat 0) =
      odd (decoding.grid decoding.row.toNat decoding.col.toNat 0) ∧ ∃ t, step decoding = .next t := by
  refine ⟨decoding_moves, rfl, by decide +kernel, ?_⟩
  obtain ⟨t, h, _⟩ := next_spec (show next (step decoding) (fun _ => true) = true by decide +kernel)
  exact ⟨t, h⟩

theorem witness_InvariantKeptByEveryStep : (walk.Inv ∧ ∃ t, step walk = .next t) ∧
    (decoding.Inv ∧ ∃ t, step decoding = .next t) := by
  obtain ⟨t, h, _⟩ := next_spec (show next (step walk) (fun _ => true) = true by decide +kernel)
  obtain ⟨u, h', _⟩ := next_spec (show next (step decoding) (fun _ => true) = true by decide +kernel)
  exact ⟨⟨walk_inv, t, h⟩, decoding_inv, u, h'⟩

theorem witness_CursorFollowsBitCount : walk.Inv ∧ next (step walk) (·.phase == .scan) := ⟨walk_inv, by decide +kernel⟩

theorem witness_StepsStopOnlyOnUndefinedGridIndex : walk.Inv ∧ State.reset.Inv := ⟨walk_inv, resetWith_inv 0 0 [] []⟩

theorem witness_GmemWritesStayInGrid : (∃ t, exec (.putBit true) grid23 = .next t) ∧
    grid23.height.toNat * grid23.width.toNat * grid23.channels.toNat ≤ 12 ∧
    walk.SequencerMoves ∧ next (step walk) (fun _ => true) :=
  ⟨⟨_, rfl⟩, by decide, walk_moves, by decide +kernel⟩

theorem witness_HostRegisterAccessAtRest :
    (base.phase ≠ .scan ∧ Reg.readOnly .tiles = true) ∧ (Reg.readOnly .height = false ∧ Reg.height ≠ .cmd) ∧
    (State.script { base with script := [.wr .tiles 7] } = .wr .tiles 7 :: []) ∧
    (State.script { base with script := [.wr .height 7] } = .wr .height 7 :: []) ∧
    (State.script { base with script := [.rd .hdr] } = .rd .hdr :: []) := by decide

theorem witness_HostCannotDisturbWalk : (base.phase ≠ .scan ∧ base.script = []) ∧ walk.phase = .scan ∧
    ∀ a ∈ [HostAction.wr .cmd 2, .gw 0 0 0 7#8, .gmw 0 7#8, .pw 0 7#8, .bw 0 true, .rd .bitcnt, .gr 0 0 0, .gmr 0, .pr 0,
      .br 0], State.script { walk with script := [a] } = a :: [] := ⟨⟨by decide, rfl⟩, rfl, fun _ _ => rfl⟩

theorem witness_HostMemoryAccessAtRest : grid23.phase ≠ .scan ∧ grid23.InGrid 1 2 1 ∧
    ∀ a ∈ [HostAction.gw 1 2 1 7#8, .gr 1 2 1, .gmw 99 7#8, .gmr 99, .pw 0 7#8, .pr 0, .bw 0 true, .br 0],
      State.script { grid23 with script := [a] } = a :: [] := ⟨by decide, by decide, fun _ _ => rfl⟩

theorem witness_ResetSetsRegisters : State.script { walk with script := [.reset] } = .reset :: [] := rfl

theorem witness_ErrIsNotSticky :
    next (exec .encode ready) (fun t => t.phase == .scan) ∧
    next (step { base with script := [.wr .cmd 0x26] }) (fun t => t.err != base.err) ∧
    next (step (atHeaderEnd hdr33 2#8)) (fun t => t.err != (atHeaderEnd hdr33 2#8).err) ∧
    next (step { base with err := 1#8, script := [.reset] }) (fun t => t.err != 1#8) := by decide +kernel

theorem witness_BitrWrittenByGetBitOnly :
    next (step { grid23 with row := 1#16, script := [.wr .cmd 6] }) (fun t => t.bitr != grid23.bitr) ∧
    next (step { base with bitr := true, script := [.reset] }) (fun t => t.bitr != true) := by decide +kernel

theorem witness_StrideWrittenByValidLaunchOnly :
    next (step { grid23 with script := [.wr .cmd 0x15] }) (fun t => t.stride != grid23.stride) ∧
    next (step { grid23 with stride := 2#16, script := [.reset] }) (fun t => t.stride != 2#16) ∧
    next (exec .encode shape65) (fun _ => true) ∧ 1 ≤ shape65.channels.toNat ∧ shape65.groupSize.toNat = 2 * 2 := by
  decide +kernel

theorem witness_ShapeWrittenByHostOnly :
    next (step { base with script := [.wr .height 7] }) (fun t => t.height != base.height) ∧
    next (step { grid23 with script := [.reset] }) (fun t => t.groupSize != grid23.groupSize) := by decide +kernel

/-- The shape of E7 at stride 2: its first and last tile, the last pixel of the last tile, and a pixel of no tile. -/
theorem witness_TilesPartitionCoveredArea : 1 ≤ 2 ∧ 0 < capacity 65 67 2 ∧ 1055 < capacity 65 67 2 ∧
    (63 < 65 / 2 * 2 ∧ 65 < 67 / 2 * 2) ∧ ¬ 64 < 65 / 2 * 2 ∧
    ((tilePos 67 2 1055).1 ≤ 63 ∧ 63 < (tilePos 67 2 1055).1 + 2 ∧ (tilePos 67 2 1055).2 ≤ 65 ∧
      65 < (tilePos 67 2 1055).2 + 2) := by decide

theorem witness_WalkAlwaysEnds : (walk.Inv ∧ walk.SequencerMoves) ∧ (decoding.Inv ∧ decoding.SequencerMoves) :=
  ⟨⟨walk_inv, walk_moves⟩, decoding_inv, decoding_moves⟩

theorem witness_ResetDuringWalkKeepsGrid :
    (walk.phase = .scan ∧ State.script { walk with script := [.reset] } = .reset :: []) ∧
    ∃ s : State, s.phase ≠ .scan ∧ s.script = runLines .encode ++ [] ∧ s.EncodeFits ∧ s.groupSize.toNat = 1 * 1 ∧
      1023 < 1024 + 8 * s.plen.toNat ∧ s.InTile 1 1022 1022 ∧
      1023 < s.height.toNat * s.width.toNat * s.channels.toNat ∧ ∀ i, i < 1023 → ¬ s.InTile 1 i 1023 :=
  ⟨⟨rfl, rfl⟩, { ready with script := runLines .encode }, by decide, by decide, ready_fits _, by decide, by decide,
    by unfold State.InTile; decide +kernel, by decide, by unfold State.InTile; decide +kernel⟩

end Sys2Proof.Tests
end

section
/-!
PROOFS. The host's side of a step (spec/00_scope.md rule R11, spec/20_memory.md rules R60, R66, spec/30_encoding.md rule R98):
which steps stop (O42), and what an access to a memory at rest does (O46).
-/

namespace Sys2Proof.Machine

variable {s : State} {a : HostAction} {rest : List HostAction}

/-! ### What a step at rest runs -/

/-- At rest, an action that neither waits nor writes CMD is a host access (R71, R98). -/
theorem step_hostAccess (hp : s.phase ≠ .scan) (hs : s.script = a :: rest) (hwait : a ≠ .wait := by simp)
    (hcmd : ∀ v, a ≠ .wr .cmd v := by simp) : step s = hostAccess a { s with script := rest } := by
  rw [step_of_rest hp, stepAtRest, hs]
  split
  next h => exact nomatch h
  next h => exact absurd (List.cons.inj h).1 hwait
  next h => exact absurd (List.cons.inj h).1 (hcmd _)
  next h =>
    cases h
    rfl

/-- `wait` at rest answers a next state, whether or not it ends (R98). -/
theorem step_wait_isNext (hp : s.phase ≠ .scan) (hs : s.script = .wait :: rest) : ∃ t, step s = .next t := by
  by_cases hd : s.phase = .done
  · exact ⟨_, step_wait_done hd hs⟩
  · exact ⟨s, by rw [step_of_rest hp]; simp [stepAtRest, hs, hd]⟩

/-! ### Where a step stops -/

/-- A host access at rest stops only at a sample that does not exist (R11). -/
theorem hostAccess_isNext_or_outside (a : HostAction) (s : State) :
    (∃ t, hostAccess a s = .next t) ∨
    (hostAccess a s = .fault .gridIndexOutsideGrid ∧
      ∃ r c k, ¬ s.InGrid r c k ∧ ((∃ v, a = .gw r c k v) ∨ a = .gr r c k)) := by
  cases a
  case gw r c k v =>
    by_cases hi : s.InGrid r c k
    · exact .inl ⟨_, if_pos hi⟩
    · exact .inr ⟨if_neg hi, r, c, k, hi, .inl ⟨v, rfl⟩⟩
  case gr r c k =>
    by_cases hi : s.InGrid r c k
    · exact .inl ⟨_, if_pos hi⟩
    · exact .inr ⟨if_neg hi, r, c, k, hi, .inr rfl⟩
  all_goals exact .inl ⟨_, rfl⟩

/-- No step of a walk stops (R71, R179). -/
theorem step_isNext_of_scan (h : s.Inv) (hp : s.phase = .scan) : ∃ t, step s = .next t := by
  have tile : ∀ r, ∃ t, tileStep { s with script := r } = .next t := fun r =>
    (tileStep_inv (h.script r) hp).imp fun _ ht => ht.1
  rw [step_of_scan hp, stepInScan]
  split
  · exact tile s.script
  · exact tile s.script
  · exact tile _
  · exact ⟨_, rfl⟩

/-- Settles O42: a walk's step is `step_isNext_of_scan`, and at rest the host's next action decides. -/
theorem stepsStopOnlyOnUndefinedGridIndex : Obligations.StepsStopOnlyOnUndefinedGridIndex := by
  intro s h
  by_cases hp : s.phase = .scan
  · exact .inl (step_isNext_of_scan h hp)
  cases hs : s.script with
  | nil => exact .inl ⟨s, by rw [step_of_rest hp]; simp [stepAtRest, hs]⟩
  | cons a rest =>
    by_cases hwait : a = .wait
    · exact .inl (step_wait_isNext hp (hwait ▸ hs))
    by_cases hcmd : ∃ v, a = .wr .cmd v
    · obtain ⟨v, rfl⟩ := hcmd
      rw [step_launch hp hs]
      exact .inl (launch_isNext _ _)
    rw [step_hostAccess hp hs hwait (not_exists.1 hcmd)]
    rcases hostAccess_isNext_or_outside a { s with script := rest } with hn | ⟨hf, r, c, k, hi, ha⟩
    · exact .inl hn
    · refine .inr ⟨hp, hf, r, c, k, rest, hi, ?_⟩
      simpa using ha

/-! ### The cells -/

/-- Different samples of the grid have different addresses (R62). -/
theorem State.addr_ne {r c k r' c' k' : Nat} (h : s.InGrid r c k) (h' : s.InGrid r' c' k')
    (hne : (r', c', k') ≠ (r, c, k)) : s.addr r' c' k' ≠ s.addr r c k := by
  intro e
  obtain ⟨rfl, rfl, rfl⟩ := gridAddr_inj h'.2.1 h'.2.2 h.2.1 h.2.2 e
  exact hne rfl

/-- Settles O46: at rest each line is its `hostAccess`, and the memory laws say what one written cell does. -/
theorem hostMemoryAccessAtRest : Obligations.HostMemoryAccessAtRest := by
  intro s rest hp
  refine ⟨fun r c k v hs hi => ?gw, fun r c k hs hi => ?gr, fun x v hs => ?gmw, fun x hs => ?gmr, fun i v hs => ?pw,
    fun i hs => ?pr, fun i b hs => ?bw, fun i hs => ?br⟩
  case gw =>
    have other : ∀ a, a ≠ s.addr r c k → (s.setGmem (s.addr r c k) v).gmemAt a = s.gmemAt a := fun a ha =>
      Memory.read_write_of_ne _ _ _ ha
    exact ⟨_, (step_hostAccess hp hs).trans (if_pos hi), Memory.read_write_self _ _ _ _,
      fun r' c' k' hi' hne => other _ (State.addr_ne hi hi' hne), other, rfl⟩
  case gr => exact (step_hostAccess hp hs).trans (if_pos hi)
  case gmw =>
    exact ⟨_, step_hostAccess hp hs, Memory.read_write_self _ _ _ _, fun _ ha => Memory.read_write_of_ne _ _ _ ha, rfl⟩
  case pw =>
    exact ⟨_, step_hostAccess hp hs, Memory.read_write_self _ _ _ _, fun _ hj => Memory.read_write_of_ne _ _ _ hj, rfl⟩
  case bw =>
    exact ⟨_, step_hostAccess hp hs, Memory.read_write_self _ _ _ _, fun _ hj => Memory.read_write_of_ne _ _ _ hj, rfl⟩
  case gmr | pr | br => exact step_hostAccess hp hs

end Sys2Proof.Machine
end

section
/-!
PROOFS. Who writes which register (spec/10_state.md): what each command and each tile step may write (R43: O7), and from that
the rules of STATUS (R23: O10), ERR (R24: O48), BITR (R25: O49), STRIDE (R28: O50) and the shape registers (R26, R27: O51);
then the host's register accesses at rest (R41: O44) and the invariant after reset (O39).
-/

namespace Sys2Proof.Machine

variable {s t : State} {i : Instr} {a : HostAction} {rest : List HostAction}

/-! ### What a launch writes -/

theorem exec_nop_frame (h : exec .nop s = .next t) : t = { s with err := t.err, phase := t.phase } := by
  cases h
  rfl

theorem exec_encode_frame (h : exec .encode s = .next t) : t = { s with
    err := t.err, phase := t.phase, mode := t.mode, stride := t.stride, row := t.row, col := t.col, bitcnt := t.bitcnt,
    tiles := t.tiles, len := t.len, blen := t.blen, hdr := t.hdr, bbuf := t.bbuf } := by
  cases h
  rcases encodeLaunch_cases s with ⟨_, e⟩ | ⟨_, _, e⟩ | ⟨_, _, _, e⟩ | ⟨_, _, _, _, _, e⟩ <;> rw [e] <;> rfl

theorem exec_decode_frame (h : exec .decode s = .next t) : t = { s with
    err := t.err, phase := t.phase, mode := t.mode, stride := t.stride, row := t.row, col := t.col, bitcnt := t.bitcnt,
    tiles := t.tiles } := by
  cases h
  rcases decodeLaunch_cases s with ⟨_, e⟩ | ⟨_, _, e⟩ | ⟨_, _, _, e⟩ | ⟨_, _, _, e⟩ <;> rw [e] <;> rfl

theorem exec_hdrBuild_frame (h : exec .hdrBuild s = .next t) :
    t = { s with err := t.err, phase := t.phase, hdr := t.hdr } := by
  cases h
  rcases hdrBuild_cases s with ⟨_, e⟩ | ⟨_, _, _, e⟩ <;> rw [e] <;> rfl

theorem exec_hdrParse_frame (h : exec .hdrParse s = .next t) :
    t = { s with err := t.err, phase := t.phase, len := t.len, opt := t.opt, optlen := t.optlen } := by
  cases h
  rcases hdrParse_cases s with ⟨_, e⟩ | ⟨_, _, _, _, e⟩ <;> rw [e] <;> rfl

theorem exec_putBit_frame {f : Bit} (h : exec (.putBit f) s = .next t) :
    t = { s with err := t.err, phase := t.phase, stride := t.stride, gmem := t.gmem } := by
  cases h
  rcases putBit_cases s f with ⟨_, e⟩ | ⟨_, _, e⟩ | ⟨_, _, _, e⟩ | ⟨_, _, _, e⟩ <;> rw [e]
  case inr.inr.inr =>
    rw [encodeBitIntoGroup_frame]
    rfl
  all_goals rfl

theorem exec_getBit_frame (h : exec .getBit s = .next t) :
    t = { s with err := t.err, phase := t.phase, bitr := t.bitr } := by
  cases h
  rcases getBit_cases s with ⟨_, e⟩ | ⟨_, e⟩ <;> rw [e] <;> rfl

theorem exec_bytes2bits_frame (h : exec .bytes2bits s = .next t) :
    t = { s with err := t.err, phase := t.phase, blen := t.blen, bbuf := t.bbuf } := by
  cases h
  rcases bytes2bits_cases s with ⟨_, e⟩ | ⟨_, e⟩ <;> rw [e] <;> rfl

theorem exec_bits2bytes_frame {f : Bit} (h : exec (.bits2bytes f) s = .next t) :
    t = { s with err := t.err, phase := t.phase, plen := t.plen, pbuf := t.pbuf } := by
  cases h
  cases f
  case true => rfl
  case false => rcases bits2bytes_min_cases s with ⟨_, e⟩ | ⟨_, e⟩ <;> rw [e] <;> rfl

/-- A launch writes CMD, and is then the launch of the decoded command or of the illegal word (R220, R222). -/
theorem launch_cases {w : Word} (h : launch w s = .next t) :
    (∃ i, decode w = .ok i ∧ exec i { s with cmd := w } = .next t) ∨
    t = raise .illegalCommand { s with cmd := w } := by
  unfold launch at h
  split at h
  · rename_i i hd
    exact .inl ⟨i, hd, h⟩
  · cases h
    exact .inr rfl

/-! ### What a tile step writes -/

theorem tileStep_enc_frame (hm : s.mode = .enc) (h : tileStep s = .next t) : t = { s with
    phase := t.phase, row := t.row, col := t.col, bitcnt := t.bitcnt, gmem := t.gmem } := by
  rcases tileStep_next h with ⟨-, rfl⟩ | ⟨hm', -⟩
  · obtain ⟨_, _, _, _, e⟩ := encodeTile_frame s
    rw [e]
  · exact nomatch hm.symm.trans hm'

theorem tileStep_dec_frame (hm : s.mode = .dec) (h : tileStep s = .next t) : t = { s with
    err := t.err, phase := t.phase, row := t.row, col := t.col, bitcnt := t.bitcnt, len := t.len, plen := t.plen,
    blen := t.blen, opt := t.opt, optlen := t.optlen, hdr := t.hdr, pbuf := t.pbuf, bbuf := t.bbuf } := by
  rcases tileStep_next h with ⟨hm', -⟩ | ⟨-, rfl⟩
  · exact nomatch hm.symm.trans hm'
  · obtain ⟨_, _, _, _, _, _, _, _, _, _, _, _, e⟩ := decodeTile_frame s
    rw [e]

/-- What no tile step writes, of either walk (R43). -/
theorem tileStep_frame (h : tileStep s = .next t) : t = { s with
    err := t.err, phase := t.phase, row := t.row, col := t.col, bitcnt := t.bitcnt, len := t.len, plen := t.plen,
    blen := t.blen, opt := t.opt, optlen := t.optlen, hdr := t.hdr, gmem := t.gmem, pbuf := t.pbuf, bbuf := t.bbuf } := by
  rcases tileStep_next h with ⟨hm, -⟩ | ⟨hm, -⟩
  · rw [tileStep_enc_frame hm h]
  · rw [tileStep_dec_frame hm h]

/-- Settles O7: one frame per command and per walk's tile step, each from the cases of its meaning. -/
theorem commandsWriteOnlyTheirState : Obligations.CommandsWriteOnlyTheirState :=
  ⟨fun _ _ => exec_nop_frame, fun _ _ => exec_encode_frame, fun _ _ => exec_decode_frame, fun _ _ => exec_hdrBuild_frame,
    fun _ _ => exec_hdrParse_frame, fun _ _ _ => exec_putBit_frame, fun _ _ => exec_getBit_frame,
    fun _ _ => exec_bytes2bits_frame, fun _ _ _ => exec_bits2bytes_frame,
    fun _ _ hs hm h => tileStep_enc_frame hm (step_tile hs ▸ h),
    fun _ _ hs hm h => tileStep_dec_frame hm (step_tile hs ▸ h)⟩

/-! ### What the host writes -/

/-- A host write reaches the writable registers but CMD (R21, R41). -/
theorem State.writeReg_frame (s : State) (r : Reg) (v : Nat) : s.writeReg r v = { s with
    height := (s.writeReg r v).height, width := (s.writeReg r v).width, channels := (s.writeReg r v).channels,
    groupSize := (s.writeReg r v).groupSize, row := (s.writeReg r v).row, col := (s.writeReg r v).col,
    len := (s.writeReg r v).len, plen := (s.writeReg r v).plen, blen := (s.writeReg r v).blen,
    hdr := (s.writeReg r v).hdr } := by
  cases r <;> rfl

/-- A host access at rest is a register write, the reset event, or leaves every register as it was (R41, R66, R260). -/
theorem hostAccess_cases (h : hostAccess a s = .next t) :
    (∃ r v, a = .wr r v ∧ t = s.writeReg r v) ∨ (a = .reset ∧ t = s.resetEvent) ∨
    t = { s with gmem := t.gmem, pbuf := t.pbuf, bbuf := t.bbuf, readLog := t.readLog } := by
  cases a
  case wr r v =>
    cases h
    exact .inl ⟨r, v, rfl, rfl⟩
  case reset =>
    cases h
    exact .inr (.inl ⟨rfl, rfl⟩)
  case gw | gr =>
    simp only [hostAccess] at h
    split at h <;> cases h
    exact .inr (.inr rfl)
  all_goals
    cases h
    exact .inr (.inr rfl)

/-- A host access during a walk is the reset event, or touches nothing but what the host has read (R71). -/
theorem hostAccessInScan_cases (a : HostAction) (s : State) :
    (a = .reset ∧ hostAccessInScan a s = s.resetEvent) ∨
    hostAccessInScan a s = { s with
      readLog := (hostAccessInScan a s).readLog, draws := (hostAccessInScan a s).draws } := by
  cases a
  case reset => exact .inl ⟨rfl, rfl⟩
  all_goals exact .inr rfl

/-- Who writes a register: the reset event, a launch, a tile step, or a host write to a register. Any other step leaves them
all as they were. -/
theorem step_writers (h : step s = .next t) :
    (∃ rest, s.script = .reset :: rest ∧ t = State.resetEvent { s with script := rest }) ∨
    (s.phase ≠ .scan ∧ ∃ v rest, s.script = .wr .cmd v :: rest ∧
      launch (BitVec.ofNat 8 v) { s with script := rest } = .next t) ∨
    (s.phase = .scan ∧ ∃ rest, tileStep { s with script := rest } = .next t) ∨
    (s.phase ≠ .scan ∧ ∃ r v rest, s.script = .wr r v :: rest ∧ t = State.writeReg { s with script := rest } r v) ∨
    t = { s with
      gmem := t.gmem, pbuf := t.pbuf, bbuf := t.bbuf, draws := t.draws, script := t.script, readLog := t.readLog } := by
  rcases step_cases h with ⟨hp, rest, -, ht⟩ | ⟨hp, a, rest, hs, ht⟩ | ⟨hp, v, rest, hs, ht⟩ | ⟨hp, a, rest, hs, -, ht⟩ |
    ⟨hp, ⟨-, rfl⟩ | ⟨rest, -, -, rfl⟩ | ⟨rest, -, -, rfl⟩⟩
  · exact .inr (.inr (.inl ⟨hp, rest, ht⟩))
  · rcases hostAccessInScan_cases a { s with script := rest } with ⟨rfl, e⟩ | e
    · exact .inl ⟨rest, hs, ht.trans e⟩
    · rw [ht, e]
      exact .inr (.inr (.inr (.inr rfl)))
  · exact .inr (.inl ⟨hp, v, rest, hs, ht⟩)
  · rcases hostAccess_cases ht with ⟨r, v, rfl, e⟩ | ⟨rfl, e⟩ | e
    · exact .inr (.inr (.inr (.inl ⟨hp, r, v, rest, hs, e⟩)))
    · exact .inl ⟨rest, hs, e⟩
    · rw [e]
      exact .inr (.inr (.inr (.inr rfl)))
  all_goals exact .inr (.inr (.inr (.inr rfl)))

/-- The registers that no other host write sets (CMD, STATUS, ERR, BITR, STRIDE, BITCNT, TILES, OPTLEN and OPT: R21, R41)
change at a reset, a launch or a tile step only. -/
theorem step_writers_of_readOnly (h : step s = .next t) :
    (∃ rest, s.script = .reset :: rest ∧ t = State.resetEvent { s with script := rest }) ∨
    (s.phase ≠ .scan ∧ ∃ v rest, s.script = .wr .cmd v :: rest ∧
      launch (BitVec.ofNat 8 v) { s with script := rest } = .next t) ∨
    (s.phase = .scan ∧ ∃ rest, tileStep { s with script := rest } = .next t) ∨
    t = { t with
      cmd := s.cmd, phase := s.phase, mode := s.mode, err := s.err, bitr := s.bitr, stride := s.stride, bitcnt := s.bitcnt,
      tiles := s.tiles, optlen := s.optlen, opt := s.opt } := by
  rcases step_writers h with hr | hl | ht | ⟨-, r, v, rest, -, e⟩ | e
  · exact .inl hr
  · exact .inr (.inl hl)
  · exact .inr (.inr (.inl ht))
  · rw [e, State.writeReg_frame]
    exact .inr (.inr (.inr rfl))
  · rw [e]
    exact .inr (.inr (.inr rfl))

/-! ### How a launch ends (R220) -/

/-- A launch ends at once with a code of R230 or none and MODE as it was, or it starts the walk of its own mode without
error. -/
def LaunchEnds (i : Instr) (s t : State) : Prop :=
  (t.phase = .done ∧ t.mode = s.mode ∧ (t.err = 0#8 ∨ ∃ e : ErrKind, t.err = e.code)) ∨
  (t.phase = .scan ∧ t.err = 0#8 ∧ ((i = .encode ∧ t.mode = .enc) ∨ (i = .decode ∧ t.mode = .dec)))

theorem LaunchEnds.of_raise (e : ErrKind) {u : State} (hm : u.mode = s.mode) : LaunchEnds i s (raise e u) :=
  .inl ⟨rfl, hm, .inr ⟨e, rfl⟩⟩

theorem LaunchEnds.of_succeed {u : State} (hm : u.mode = s.mode) : LaunchEnds i s (succeed u) :=
  .inl ⟨rfl, hm, .inl rfl⟩

theorem encodeBitIntoGroup_mode (r0 c0 n : Nat) (b : Bit) (s : State) :
    (encodeBitIntoGroup r0 c0 n b s).mode = s.mode := by
  rw [encodeBitIntoGroup_frame]

theorem exec_ends (h : exec i s = .next t) : LaunchEnds i s t := by
  cases i <;> cases h
  case nop => exact .of_succeed rfl
  case encode =>
    rcases encodeLaunch_cases s with ⟨_, e⟩ | ⟨_, _, e⟩ | ⟨_, _, _, e⟩ | ⟨_, _, _, _, _, e⟩ <;> rw [e]
    case inr.inr.inr => exact .inr ⟨rfl, rfl, .inl ⟨rfl, rfl⟩⟩
    all_goals exact .of_raise _ rfl
  case decode =>
    rcases decodeLaunch_cases s with ⟨_, e⟩ | ⟨_, _, e⟩ | ⟨_, _, _, e⟩ | ⟨_, _, _, e⟩ <;> rw [e]
    case inr.inr.inr => exact .inr ⟨rfl, rfl, .inr ⟨rfl, rfl⟩⟩
    all_goals exact .of_raise _ rfl
  case hdrBuild =>
    rcases hdrBuild_cases s with ⟨_, e⟩ | ⟨_, _, _, e⟩ <;> rw [e]
    · exact .of_raise _ rfl
    · exact .of_succeed rfl
  case hdrParse =>
    rcases hdrParse_cases s with ⟨_, e⟩ | ⟨_, _, _, _, e⟩ <;> rw [e]
    · exact .of_raise _ rfl
    · exact .of_succeed rfl
  case putBit f =>
    rcases putBit_cases s f with ⟨_, e⟩ | ⟨_, _, e⟩ | ⟨_, _, _, e⟩ | ⟨_, _, _, e⟩ <;> rw [e]
    case inr.inr.inr => exact .of_succeed (encodeBitIntoGroup_mode _ _ _ _ _)
    all_goals exact .of_raise _ rfl
  case getBit =>
    rcases getBit_cases s with ⟨_, e⟩ | ⟨_, e⟩ <;> rw [e]
    · exact .of_raise _ rfl
    · exact .of_succeed rfl
  case bytes2bits =>
    rcases bytes2bits_cases s with ⟨_, e⟩ | ⟨_, e⟩ <;> rw [e]
    · exact .of_raise _ rfl
    · exact .of_succeed rfl
  case bits2bytes f =>
    cases f
    case true => exact .of_succeed rfl
    case false =>
      rcases bits2bytes_min_cases s with ⟨_, e⟩ | ⟨_, e⟩ <;> rw [e]
      · exact .of_raise _ rfl
      · exact .of_succeed rfl

/-- A launch that enters SCAN is ENCODE's or DECODE's, in its own mode and without error (R176, R201). -/
theorem exec_of_scan (h : exec i s = .next t) (hp : t.phase = .scan) :
    t.err = 0#8 ∧ ((i = .encode ∧ t.mode = .enc) ∨ (i = .decode ∧ t.mode = .dec)) := by
  rcases exec_ends h with ⟨hd, -⟩ | ⟨-, he, hi⟩
  · exact nomatch hp.symm.trans hd
  · exact ⟨he, hi⟩

theorem exec_err_le (h : exec i s = .next t) : t.err.toNat ≤ 7 := by
  rcases exec_ends h with ⟨-, -, e | ⟨k, e⟩⟩ | ⟨-, e, -⟩ <;> rw [e]
  case inl.inr => exact k.code_le
  all_goals decide

theorem launch_phase {w : Word} (h : launch w s = .next t) : t.phase = .done ∨ t.phase = .scan := by
  rcases launch_cases h with ⟨i, -, he⟩ | rfl
  · exact (exec_phase i _ t he).imp_right And.left
  · exact .inl rfl

/-! ### STATUS (R23) -/

theorem State.status_phase (s : State) : s.status.extractLsb' 0 2 = s.phase.code := by
  unfold State.status
  cases s.phase <;> cases s.mode <;> rfl

theorem State.status_mode (s : State) : s.status.getLsbD 2 = decide (s.mode = .dec) := by
  unfold State.status
  cases s.phase <;> cases s.mode <;> rfl

theorem State.status_reserved (s : State) : s.status.extractLsb' 3 5 = 0#5 := by
  unfold State.status
  cases s.phase <;> cases s.mode <;> rfl

/-- MODE changes at a reset and at a launch that enters SCAN only. -/
theorem step_changes_mode (h : step s = .next t) (hne : t.mode ≠ s.mode) :
    (∃ rest, s.script = .reset :: rest) ∨
    (s.phase ≠ .scan ∧ t.phase = .scan ∧ ∃ v rest, s.script = .wr .cmd v :: rest ∧
      ((decode (BitVec.ofNat 8 v) = .ok .encode ∧ t.mode = .enc) ∨
        (decode (BitVec.ofNat 8 v) = .ok .decode ∧ t.mode = .dec))) := by
  rcases step_writers_of_readOnly h with ⟨rest, hs, -⟩ | ⟨hp, v, rest, hs, hl⟩ | ⟨-, rest, ht⟩ | e
  · exact .inl ⟨rest, hs⟩
  · rcases launch_cases hl with ⟨i, hd, he⟩ | rfl
    · rcases exec_ends he with ⟨-, hm, -⟩ | ⟨ht, -, hi⟩
      · exact absurd hm hne
      · refine .inr ⟨hp, ht, v, rest, hs, ?_⟩
        rcases hi with ⟨rfl, hm⟩ | ⟨rfl, hm⟩
        · exact .inl ⟨hd, hm⟩
        · exact .inr ⟨hd, hm⟩
    · exact absurd rfl hne
  · exact absurd (congrArg State.mode (tileStep_frame ht)) hne
  · exact absurd (congrArg State.mode e) hne

/-- PHASE changes at a reset, at a launch and at the end of a walk only. -/
theorem step_changes_phase (h : step s = .next t) (hne : t.phase ≠ s.phase) :
    (∃ rest, s.script = .reset :: rest) ∨ (∃ v rest, s.phase ≠ .scan ∧ s.script = .wr .cmd v :: rest) ∨
    (s.phase = .scan ∧ t.phase = .done ∧ t.bitcnt.toNat = (s.bitcnt.toNat + 1) % 2 ^ 32) := by
  rcases step_writers_of_readOnly h with ⟨rest, hs, -⟩ | ⟨hp, v, rest, hs, -⟩ | ⟨hp, rest, ht⟩ | e
  · exact .inl ⟨rest, hs⟩
  · exact .inr (.inl ⟨v, rest, hp, hs⟩)
  · have hd := (tileStep_phase (s := { s with script := rest }) hp ht).resolve_left fun hs => hne (hs.trans hp.symm)
    refine .inr (.inr ⟨hp, hd, ?_⟩)
    rw [(tileStep_bitcnt ht).1, BitVec.toNat_ofNat]
  · exact absurd (congrArg State.phase e) hne

/-- Settles O10: the fields of STATUS by cases on PHASE and MODE, their writers from `step_writers_of_readOnly`. -/
theorem statusHoldsPhaseAndMode : Obligations.StatusHoldsPhaseAndMode := by
  refine ⟨fun s => ⟨?_, s.status_mode, s.status_reserved, rfl⟩, rfl, fun _ _ => step_changes_mode, fun s t h hp => ?_,
    fun s t h hp => ?_, fun _ _ _ => launch_phase, fun _ _ => step_changes_phase⟩
  · rw [s.status_phase]
    cases s.phase <;> rfl
  · exact (exec_of_scan h hp).2.elim And.right fun hi => nomatch hi.1
  · exact (exec_of_scan h hp).2.elim (fun hi => nomatch hi.1) And.right

/-! ### ERR (R24) -/

/-- The group write does not look at ERR (R153). -/
theorem setParityAt_err (b : Bit) (as : List Nat) (s : State) (e : BitVec 8) :
    setParityAt b as { s with err := e } = { setParityAt b as s with err := e } := by
  induction as generalizing s with
  | nil => rfl
  | cons a as ih => exact ih (s.setGmem a (setParity (s.gmemAt a) b))

theorem encodeBitIntoGroup_err (r0 c0 n : Nat) (b : Bit) (s : State) (e : BitVec 8) :
    encodeBitIntoGroup r0 c0 n b { s with err := e } = { encodeBitIntoGroup r0 c0 n b s with err := e } :=
  setParityAt_err b _ s e

/-- No launch looks at ERR, and every one overwrites it. -/
theorem exec_err (i : Instr) (s : State) (e : BitVec 8) : exec i { s with err := e } = exec i s := by
  cases i
  case putBit f =>
    have hs : ∀ t, succeed (encodeBitIntoGroup s.row.toNat s.col.toNat t f (State.setStride { s with err := e } t)) =
        succeed (encodeBitIntoGroup s.row.toNat s.col.toNat t f (s.setStride t)) := fun t =>
      (congrArg succeed (encodeBitIntoGroup_err s.row.toNat s.col.toNat t f (s.setStride t) e) :)
    simp only [exec, execPutBit, putBit]
    rw [hs]
    rfl
  all_goals rfl

theorem launch_err (w : Word) (s : State) (e : BitVec 8) : launch w { s with err := e } = launch w s := by
  unfold launch
  cases decode w with
  | ok i => exact exec_err i { s with cmd := w } e
  | error _ => rfl

/-- A tile step changes ERR only where DECODE completes the header (R203, R204). -/
theorem tileStep_changes_err (h : tileStep s = .next t) (hne : t.err ≠ s.err) :
    s.mode = .dec ∧ s.bitcnt.toNat = 1023 := by
  cases hm : s.mode with
  | enc => exact absurd (congrArg State.err (tileStep_enc_frame hm h)) hne
  | dec =>
    refine ⟨rfl, ?_⟩
    obtain ⟨_, _, hv⟩ := visited_frame s
    by_cases hc : s.visited.bitcnt.toNat = 1024
    · have hlt := s.bitcnt.isLt
      rw [hv, BitVec.toNat_ofNat] at hc
      omega
    · obtain ⟨-, rfl⟩ := (tileStep_next h).resolve_left fun h' => nomatch hm.symm.trans h'.1
      obtain ⟨_, _, _, _, _, _, hn⟩ := decodeNext_frame s.visited
      rw [decodeTile_plain hc, hn, hv] at hne
      exact absurd rfl hne

/-- Settles O48: launches overwrite ERR (`exec_err`, `exec_ends`), and between them only the header's end writes it. -/
theorem errIsNotSticky : Obligations.ErrIsNotSticky := by
  refine ⟨exec_err, launch_err, fun i s t h => ⟨exec_err_le h, fun hp => (exec_of_scan h hp).1⟩, fun s t h hne => ?_, rfl⟩
  rcases step_writers_of_readOnly h with ⟨rest, hs, e⟩ | ⟨hp, v, rest, hs, -⟩ | ⟨hp, rest, ht⟩ | e
  · exact .inr (.inr ⟨e ▸ State.resetEvent_err _, rest, hs⟩)
  · exact .inl ⟨hp, v, rest, hs⟩
  · exact .inr (.inl ⟨hp, tileStep_changes_err (s := { s with script := rest }) ht hne⟩)
  · exact absurd (congrArg State.err e) hne

/-! ### BITR (R25) -/

/-- A launch that changes BITR is a GET_BIT that succeeds (R158). -/
theorem exec_changes_bitr (h : exec i s = .next t) (hne : t.bitr ≠ s.bitr) :
    i = .getBit ∧ t.err = 0#8 ∧ t.bitr = odd (s.grid s.row.toNat s.col.toNat 0) := by
  cases i with
  | nop => exact absurd (congrArg State.bitr (exec_nop_frame h)) hne
  | encode => exact absurd (congrArg State.bitr (exec_encode_frame h)) hne
  | decode => exact absurd (congrArg State.bitr (exec_decode_frame h)) hne
  | hdrBuild => exact absurd (congrArg State.bitr (exec_hdrBuild_frame h)) hne
  | hdrParse => exact absurd (congrArg State.bitr (exec_hdrParse_frame h)) hne
  | putBit f => exact absurd (congrArg State.bitr (exec_putBit_frame h)) hne
  | bytes2bits => exact absurd (congrArg State.bitr (exec_bytes2bits_frame h)) hne
  | bits2bytes f => exact absurd (congrArg State.bitr (exec_bits2bytes_frame h)) hne
  | getBit =>
    cases h
    rcases getBit_cases s with ⟨-, e⟩ | ⟨-, e⟩ <;> rw [e] at hne ⊢
    · exact absurd rfl hne
    · exact ⟨rfl, rfl, rfl⟩

/-- Settles O49: of the steps that can write BITR, only GET_BIT's launch and the reset do. -/
theorem bitrWrittenByGetBitOnly : Obligations.BitrWrittenByGetBitOnly := by
  refine ⟨fun s t h hne => ?_, rfl⟩
  rcases step_writers_of_readOnly h with ⟨rest, hs, e⟩ | ⟨hp, v, rest, hs, hl⟩ | ⟨-, rest, ht⟩ | e
  · exact .inr ⟨e ▸ State.resetEvent_bitr _, rest, hs⟩
  · rcases launch_cases hl with ⟨i, hd, he⟩ | rfl
    · obtain ⟨rfl, herr, hb⟩ := exec_changes_bitr he hne
      exact .inl ⟨hp, herr, hb, v, rest, hs, hd⟩
    · exact absurd rfl hne
  · exact absurd (congrArg State.bitr (tileStep_frame ht)) hne
  · exact absurd (congrArg State.bitr e) hne

/-! ### STRIDE (R28) -/

/-- The commands that check GROUP_SIZE (R170). -/
def ChecksGroupSize (i : Instr) : Prop := i = .encode ∨ i = .decode ∨ ∃ f, i = .putBit f

/-- The launch found channels and a valid group size, and left its root. -/
structure RootLeft (s t : State) : Prop where
  channelsGe : 1 ≤ s.channels.toNat
  groupSizeOk : ValidGroupSize s.groupSize.toNat
  errNe : t.err ≠ 5#8
  strideEq : t.stride = BitVec.ofNat 16 (isqrt s.groupSize.toNat)

theorem RootLeft.stride_toNat (h : RootLeft s t) : t.stride.toNat = isqrt s.groupSize.toNat := by
  rw [h.strideEq]
  exact (stride_ok h.groupSizeOk).1

theorem encodeBitIntoGroup_stride (r0 c0 n : Nat) (b : Bit) (s : State) :
    (encodeBitIntoGroup r0 c0 n b s).stride = s.stride := by
  rw [encodeBitIntoGroup_frame]

/-- A launch that checks GROUP_SIZE leaves the root, or the check fails and STRIDE is as before (R157, R176, R201). -/
theorem exec_stride (hi : ChecksGroupSize i) (h : exec i s = .next t) :
    RootLeft s t ∨ (¬ (1 ≤ s.channels.toNat ∧ ValidGroupSize s.groupSize.toNat) ∧ t.stride = s.stride) := by
  rcases hi with rfl | rfl | ⟨f, rfl⟩ <;> cases h
  · rcases encodeLaunch_cases s with ⟨hc, e⟩ | ⟨_, hv, e⟩ | ⟨hc, hv, _, e⟩ | ⟨hc, hv, _, _, _, e⟩ <;> rw [e]
    · exact .inr ⟨fun h => hc h.1, rfl⟩
    · exact .inr ⟨fun h => hv h.2, rfl⟩
    · exact .inl ⟨hc, hv, (by decide : 1#8 ≠ 5#8), rfl⟩
    · exact .inl ⟨hc, hv, (by decide : 0#8 ≠ 5#8), rfl⟩
  · rcases decodeLaunch_cases s with ⟨hc, e⟩ | ⟨_, hv, e⟩ | ⟨hc, hv, _, e⟩ | ⟨hc, hv, _, e⟩ <;> rw [e]
    · exact .inr ⟨fun h => hc h.1, rfl⟩
    · exact .inr ⟨fun h => hv h.2, rfl⟩
    · exact .inl ⟨hc, hv, (by decide : 1#8 ≠ 5#8), rfl⟩
    · exact .inl ⟨hc, hv, (by decide : 0#8 ≠ 5#8), rfl⟩
  · rcases putBit_cases s f with ⟨hc, e⟩ | ⟨_, hv, e⟩ | ⟨hc, hv, _, e⟩ | ⟨hc, hv, _, e⟩ <;> rw [e]
    · exact .inr ⟨fun h => hc h.1, rfl⟩
    · exact .inr ⟨fun h => hv h.2, rfl⟩
    · exact .inl ⟨hc, hv, (by decide : 6#8 ≠ 5#8), rfl⟩
    · exact .inl ⟨hc, hv, (by decide : 0#8 ≠ 5#8), encodeBitIntoGroup_stride _ _ _ _ _⟩

/-- A launch that changes STRIDE checks GROUP_SIZE. -/
theorem checksGroupSize_of_stride_ne (h : exec i s = .next t) (hne : t.stride ≠ s.stride) : ChecksGroupSize i := by
  cases i with
  | encode => exact .inl rfl
  | decode => exact .inr (.inl rfl)
  | putBit f => exact .inr (.inr ⟨f, rfl⟩)
  | nop => exact absurd (congrArg State.stride (exec_nop_frame h)) hne
  | hdrBuild => exact absurd (congrArg State.stride (exec_hdrBuild_frame h)) hne
  | hdrParse => exact absurd (congrArg State.stride (exec_hdrParse_frame h)) hne
  | getBit => exact absurd (congrArg State.stride (exec_getBit_frame h)) hne
  | bytes2bits => exact absurd (congrArg State.stride (exec_bytes2bits_frame h)) hne
  | bits2bytes f => exact absurd (congrArg State.stride (exec_bits2bytes_frame h)) hne

/-- A launch that changes STRIDE leaves the root in it. -/
theorem rootLeft_of_stride_ne (h : exec i s = .next t) (hne : t.stride ≠ s.stride) : RootLeft s t :=
  (exec_stride (checksGroupSize_of_stride_ne h hne) h).resolve_right fun hf => hne hf.2

/-- Settles O50: a launch that changes STRIDE leaves the root (`rootLeft_of_stride_ne`), and the root squares to
GROUP_SIZE. -/
theorem strideWrittenByValidLaunchOnly : Obligations.StrideWrittenByValidLaunchOnly := by
  refine ⟨fun s t h hne => ?_, fun i s t q hi h hc hq hg => ?_, rfl⟩
  · rcases step_writers_of_readOnly h with ⟨rest, hs, e⟩ | ⟨hp, v, rest, hs, hl⟩ | ⟨-, rest, ht⟩ | e
    · exact .inr ⟨e ▸ State.resetEvent_stride _, rest, hs⟩
    · rcases launch_cases hl with ⟨i, hd, he⟩ | rfl
      · have hr := rootLeft_of_stride_ne he hne
        refine .inl ⟨hp, hr.channelsGe, hr.errNe, ?_, ?_, v, rest, hs, ?_⟩
        · rw [hr.stride_toNat]
          exact isqrt_pos hr.groupSizeOk.1
        · rw [hr.stride_toNat]
          exact hr.groupSizeOk.2
        · rw [hd]
          rcases checksGroupSize_of_stride_ne he hne with rfl | rfl | ⟨f, rfl⟩
          · exact .inl rfl
          · exact .inr (.inl rfl)
          · exact .inr (.inr ⟨f, rfl⟩)
      · exact absurd rfl hne
    · exact absurd (congrArg State.stride (tileStep_frame ht)) hne
    · exact absurd (congrArg State.stride e) hne
  · obtain ⟨hv, hroot⟩ := root_of_square hq hg
    have hr := (exec_stride hi h).resolve_right fun hf => hf.1 ⟨hc, hv⟩
    exact hr.stride_toNat.trans hroot

/-! ### HEIGHT, WIDTH, CHANNELS and GROUP_SIZE (R26, R27) -/

/-- The registers that only the host writes. -/
def State.shape (s : State) : BitVec 16 × BitVec 16 × BitVec 8 × BitVec 32 := (s.height, s.width, s.channels, s.groupSize)

theorem State.shape_ne
    (h : t.height ≠ s.height ∨ t.width ≠ s.width ∨ t.channels ≠ s.channels ∨ t.groupSize ≠ s.groupSize) :
    t.shape ≠ s.shape := by
  intro e
  simp only [State.shape, Prod.mk.injEq] at e
  obtain ⟨h1, h2, h3, h4⟩ := e
  rcases h with h | h | h | h
  · exact h h1
  · exact h h2
  · exact h h3
  · exact h h4

/-- No launch writes the shape (R43). -/
theorem exec_shape (h : exec i s = .next t) : t.shape = s.shape := by
  cases i with
  | nop => exact (congrArg State.shape (exec_nop_frame h) :)
  | encode => exact (congrArg State.shape (exec_encode_frame h) :)
  | decode => exact (congrArg State.shape (exec_decode_frame h) :)
  | hdrBuild => exact (congrArg State.shape (exec_hdrBuild_frame h) :)
  | hdrParse => exact (congrArg State.shape (exec_hdrParse_frame h) :)
  | putBit f => exact (congrArg State.shape (exec_putBit_frame h) :)
  | getBit => exact (congrArg State.shape (exec_getBit_frame h) :)
  | bytes2bits => exact (congrArg State.shape (exec_bytes2bits_frame h) :)
  | bits2bytes f => exact (congrArg State.shape (exec_bits2bytes_frame h) :)

theorem launch_shape {w : Word} (h : launch w s = .next t) : t.shape = s.shape := by
  rcases launch_cases h with ⟨i, -, he⟩ | rfl
  · exact exec_shape (s := { s with cmd := w }) he
  · rfl

/-- A host write to another register leaves the shape. -/
theorem State.writeReg_changes_shape {r : Reg} {v : Nat} (hne : (s.writeReg r v).shape ≠ s.shape) :
    r = .height ∨ r = .width ∨ r = .channels ∨ r = .groupSize := by
  cases r
  case height => exact .inl rfl
  case width => exact .inr (.inl rfl)
  case channels => exact .inr (.inr (.inl rfl))
  case groupSize => exact .inr (.inr (.inr rfl))
  all_goals exact absurd rfl hne

/-- Settles O51: of the writers of registers, launches and tile steps leave the shape. -/
theorem shapeWrittenByHostOnly : Obligations.ShapeWrittenByHostOnly := by
  intro s t h hch
  have hne := State.shape_ne hch
  rcases step_writers h with ⟨rest, hs, -⟩ | ⟨-, v, rest, -, hl⟩ | ⟨-, rest, ht⟩ | ⟨hp, r, v, rest, hs, rfl⟩ | e
  · exact .inr ⟨rest, hs⟩
  · exact absurd (launch_shape hl) hne
  · exact absurd (congrArg State.shape (tileStep_frame ht)) hne
  · exact .inl ⟨hp, r, v, rest, hs, State.writeReg_changes_shape (s := { s with script := rest }) hne⟩
  · exact absurd (congrArg State.shape e) hne

/-! ### Host register access at rest (R41) -/

theorem State.writeReg_of_readOnly {r : Reg} (h : r.readOnly = true) (s : State) (v : Nat) : s.writeReg r v = s := by
  cases r
  case status | err | bitr | stride | bitcnt | tiles | optlen | opt => rfl
  all_goals exact nomatch h

/-- `BitVec.toNat_ofNat` with the width named twice, so that no proof evaluates HDR's modulus. -/
theorem toNat_ofNat_of_width_eq {w n : Nat} (h : w = n) (v : Nat) : (BitVec.ofNat w v).toNat = v % 2 ^ n := by
  subst h
  exact BitVec.toNat_ofNat v w

/-- What a register reads as after a host write, register by register in the table of R21: the low bits where it is the one
written, and what it was where it is another (R41 (c)). -/
theorem State.readReg_writeReg (s : State) {r : Reg} (hro : r.readOnly = false) (hcmd : r ≠ .cmd) (v : Nat) (r' : Reg) :
    (s.writeReg r v).readReg r' = if r' = r then v % 2 ^ r.bits else s.readReg r' := by
  cases r
  case cmd => exact absurd rfl hcmd
  case status | err | bitr | stride | bitcnt | tiles | optlen | opt => exact nomatch hro
  case hdr =>
    cases r'
    case hdr => exact (toNat_ofNat_of_width_eq (w := 1024) (n := Reg.bits .hdr) rfl v).trans (if_pos rfl).symm
    all_goals rfl
  all_goals cases r' <;> rfl

theorem Reg.ne_cmd_of_readOnly {r : Reg} (h : r.readOnly = true) : r ≠ .cmd := fun e => nomatch e ▸ h

/-- A host write at rest to a register other than CMD (R41). -/
theorem step_writeReg {r : Reg} {v : Nat} (hp : s.phase ≠ .scan) (hcmd : r ≠ .cmd) (hs : s.script = .wr r v :: rest) :
    step s = .next (State.writeReg { s with script := rest } r v) :=
  step_hostAccess hp hs (by simp) (by simp [hcmd])

/-- Settles O44: at rest a `wr` is `writeReg` and a `rd` is `returns`, whose effects the lemmas above say. -/
theorem hostRegisterAccessAtRest : Obligations.HostRegisterAccessAtRest := by
  intro s r v rest hp
  refine ⟨fun hs hro => ?_, fun hs hro hcmd => ⟨_, step_writeReg hp hcmd hs, ?_, fun r' hne => ?_, ?_⟩, fun hs => ?_,
    s.status_reserved⟩
  · rw [step_writeReg hp (Reg.ne_cmd_of_readOnly hro) hs, State.writeReg_of_readOnly hro]
  · rw [State.readReg_writeReg _ hro hcmd, if_pos rfl]
  · rw [State.readReg_writeReg _ hro hcmd, if_neg hne]
    cases r' <;> rfl
  · exact State.writeReg_frame { s with script := rest } r v
  · exact step_hostAccess hp hs

/-! ### The invariant after reset (R42) -/

/-- Settles O39: `State.reset` is the state after a reset with the host's side empty. -/
theorem invariantHoldsAtReset : Obligations.InvariantHoldsAtReset := resetWith_inv 0 0 [] []

end Sys2Proof.Machine
end

section
/-!
PROOFS. The memory map's promises (spec/20_memory.md): no command and no tile step writes GMEM outside the grid (R63: O43),
the host cannot disturb a walk (R71, R223: O45), and the walk's tiles cut up the area they cover (R65, R172: O52).
-/

namespace Sys2Proof.Machine

variable {s t : State} {i : Instr} {a : HostAction} {rest : List HostAction}

/-! ### GMEM above the grid (R63) -/

/-- Of the commands only PUT_BIT writes GMEM (R43), and it writes the cells of a tile that it has checked (R157). -/
theorem exec_gmemAt_above (h : exec i s = .next t) {x : Nat}
    (hx : s.height.toNat * s.width.toNat * s.channels.toNat ≤ x) : t.gmemAt x = s.gmemAt x := by
  cases i
  case nop => rw [exec_nop_frame h]; rfl
  case encode => rw [exec_encode_frame h]; rfl
  case decode => rw [exec_decode_frame h]; rfl
  case hdrBuild => rw [exec_hdrBuild_frame h]; rfl
  case hdrParse => rw [exec_hdrParse_frame h]; rfl
  case getBit => rw [exec_getBit_frame h]; rfl
  case bytes2bits => rw [exec_bytes2bits_frame h]; rfl
  case bits2bytes f => rw [exec_bits2bytes_frame h]; rfl
  case putBit f =>
    cases h
    rcases putBit_cases s f with ⟨-, e⟩ | ⟨-, -, e⟩ | ⟨-, -, -, e⟩ | ⟨-, -, ht, e⟩ <;> rw [e]
    case inr.inr.inr => exact gmemAt_encodeBitIntoGroup_above (s := s.setStride _) ht hx
    all_goals rfl

/-- An ENCODE tile step that answers a next state is on a tile in the grid (R153, R178). -/
theorem tileInGrid_of_encodeTileStep (h : encodeTileStep s = .next t) :
    s.TileInGrid s.row.toNat s.col.toNat s.stride.toNat := by
  by_contra hout
  exact nomatch (if_neg hout).symm.trans h

/-- The GMEM that an ENCODE tile step leaves is the one its group write leaves (R178). -/
theorem gmemAt_encodeTile (s : State) (x : Nat) : (encodeTile s).gmemAt x =
    (encodeBitIntoGroup s.row.toNat s.col.toNat s.stride.toNat (s.stream s.bitcnt.toNat) s).gmemAt x := by
  rcases encodeTile_cases s with ⟨-, e⟩ | ⟨-, e⟩ <;> rw [e] <;> rfl

theorem tileStep_gmemAt_above (h : tileStep s = .next t) {x : Nat}
    (hx : s.height.toNat * s.width.toNat * s.channels.toNat ≤ x) : t.gmemAt x = s.gmemAt x := by
  rcases tileStep_next h with ⟨hm, rfl⟩ | ⟨hm, -⟩
  · have ht : s.TileInGrid s.row.toNat s.col.toNat s.stride.toNat := by
      rw [tileStep, hm] at h
      exact tileInGrid_of_encodeTileStep h
    rw [gmemAt_encodeTile, gmemAt_encodeBitIntoGroup_above ht hx]
  · rw [tileStep_dec_frame hm h]
    rfl

/-- Settles O43: the launches and the sequencer's tile steps each leave every cell above the grid alone. -/
theorem gmemWritesStayInGrid : Obligations.GmemWritesStayInGrid :=
  ⟨fun _ _ _ h _ => exec_gmemAt_above h, fun _ _ hs h _ => tileStep_gmemAt_above (step_tile hs ▸ h)⟩

/-! ### The host during a walk (R71) -/

/-- With nothing for the host to do, HIP at rest stays as it is (R71). -/
theorem step_rest_nil (hp : s.phase ≠ .scan) (hs : s.script = []) : step s = .next s := by
  rw [step_of_rest hp, stepAtRest, hs]

/-- During a walk, an action that does not leave the step to the sequencer is a host access of R71. -/
theorem step_hostAccessInScan (hp : s.phase = .scan) (hs : s.script = a :: rest) (hwait : a ≠ .wait := by simp)
    (hpause : a ≠ .pause := by simp) : step s = .next (hostAccessInScan a { s with script := rest }) := by
  rw [step_of_scan hp, stepInScan, hs]
  split
  next h => exact nomatch h
  next h => exact absurd (List.cons.inj h).1 hwait
  next h => exact absurd (List.cons.inj h).1 hpause
  next h =>
    cases h
    rfl

/-- Settles O45: each access of R71 is its arm of `hostAccessInScan`. -/
theorem hostCannotDisturbWalk : Obligations.HostCannotDisturbWalk := by
  refine ⟨fun _ => step_rest_nil, fun s rest hp => ⟨fun _ _ => step_hostAccessInScan hp,
    fun _ _ _ _ => step_hostAccessInScan hp, fun _ _ => step_hostAccessInScan hp, fun _ _ => step_hostAccessInScan hp,
    fun _ _ => step_hostAccessInScan hp, fun _ => step_hostAccessInScan hp, ?cellRead⟩⟩
  rintro a ⟨hs, ⟨r, c, k, rfl⟩ | ⟨x, rfl⟩ | ⟨j, rfl⟩ | ⟨j, rfl⟩⟩ <;> exact ⟨_, _, step_hostAccessInScan hp hs⟩

/-! ### The tiles of a walk (R172) -/

/-- The `q`-th interval of length `n` holds `x` exactly when `q` is `x div n`. -/
theorem mem_interval_iff {n q x : Nat} (hn : 1 ≤ n) : q * n ≤ x ∧ x < q * n + n ↔ q = x / n := by
  rw [← Nat.succ_mul, eq_comm, ← Nat.le_div_iff_mul_le hn, ← Nat.div_lt_iff_lt_mul hn]
  omega

/-- Tile `i` holds pixel `(r, c)` exactly when `i` names the pixel's tile row and tile column (R172). -/
theorem tilePos_holds_iff {w n i r c : Nat} (hn : 1 ≤ n) :
    ((tilePos w n i).1 ≤ r ∧ r < (tilePos w n i).1 + n ∧ (tilePos w n i).2 ≤ c ∧ c < (tilePos w n i).2 + n) ↔
      i / (w / n) = r / n ∧ i % (w / n) = c / n := by
  rw [← mem_interval_iff hn, ← mem_interval_iff hn, and_assoc]
  rfl

/-- Some tile below the capacity stands in tile row `q` and tile column `p` exactly when the grid has that row and that column
of full tiles (R171, R172). -/
theorem tileRow_tileCol_iff {h w n q p : Nat} :
    q < h / n ∧ p < w / n ↔ ∃ i, i < capacity h w n ∧ i / (w / n) = q ∧ i % (w / n) = p := by
  constructor
  · rintro ⟨hq, hp⟩
    have hw : 0 < w / n := Nat.zero_lt_of_lt hp
    obtain ⟨hdiv, hmod⟩ := (Nat.div_mod_unique hw).2 ⟨rfl, hp⟩
    refine ⟨p + w / n * q, ?_, hdiv, hmod⟩
    rwa [capacity, ← Nat.div_lt_iff_lt_mul hw, hdiv]
  · rintro ⟨i, hi, rfl, rfl⟩
    have hw : 0 < w / n := Nat.pos_of_lt_mul_left hi
    exact ⟨(Nat.div_lt_iff_lt_mul hw).2 hi, Nat.mod_lt i hw⟩

/-- Settles O52: a pixel's tile is the one of its tile row and tile column, so there is one exactly in the covered area, and
no other tile holds the pixel. -/
theorem tilesPartitionCoveredArea : Obligations.TilesPartitionCoveredArea := by
  intro h w n r c hn
  refine ⟨fun _ => tilePos_inGrid, ?covered, ?disjoint⟩
  case covered =>
    simp only [tilePos_holds_iff hn, ← Nat.div_lt_iff_lt_mul hn]
    exact tileRow_tileCol_iff
  case disjoint =>
    intro i j _ _ hi1 hi2 hi3 hi4 hj1 hj2 hj3 hj4
    obtain ⟨hir, hic⟩ := (tilePos_holds_iff hn).1 ⟨hi1, hi2, hi3, hi4⟩
    obtain ⟨hjr, hjc⟩ := (tilePos_holds_iff hn).1 ⟨hj1, hj2, hj3, hj4⟩
    exact Nat.ext_div_mod (hir.trans hjr.symm) (hic.trans hjc.symm)

end Sys2Proof.Machine
end

section
/-!
PROOFS. The command words (spec/30_encoding.md): decoding and encoding are inverse (R91, R92, R96: O3, O4), the rows of the
opcode map (R92: O1), and the illegal words with what launching one does (R95, R222: O2).
-/

namespace Sys2Proof

/-! ### Fields and words (R91) -/

/-- A word is put together again from its fields. -/
theorem C8.toWord_ofWord (w : Word) : (C8.ofWord w).toWord = w := by
  ext k hk
  simp only [C8.toWord, C8.ofWord]
  grind

theorem C8.eq_iff {c d : C8} : c = d ↔ c.rsv = d.rsv ∧ c.f = d.f ∧ c.op = d.op := by
  cases c
  cases d
  simp

theorem C8.ofWord_injective : Function.Injective C8.ofWord := Function.LeftInverse.injective C8.toWord_ofWord

/-- Every command has the statement of `Laws.EncodeLegal`. -/
theorem encodeLegal : ∀ i, Laws.EncodeLegal.Statement i
  | .nop => Laws.EncodeLegal.nop
  | .encode => Laws.EncodeLegal.encode
  | .decode => Laws.EncodeLegal.decode
  | .hdrBuild => Laws.EncodeLegal.hdrBuild
  | .hdrParse => Laws.EncodeLegal.hdrParse
  | .putBit f => Laws.EncodeLegal.putBit f
  | .getBit => Laws.EncodeLegal.getBit
  | .bytes2bits => Laws.EncodeLegal.bytes2bits
  | .bits2bytes f => Laws.EncodeLegal.bits2bytes f

/-- The word of a command is cut back into the command's fields. -/
theorem ofWord_encode (i : Instr) : C8.ofWord (encode i) = i.fields := (encodeLegal i).1

theorem eq_encode_iff {w : Word} {i : Instr} : w = encode i ↔ C8.ofWord w = i.fields := by
  rw [← ofWord_encode, C8.ofWord_injective.eq_iff]

/-! ### Decoding and encoding (R96) -/

theorem plain_eq_ok_iff {f : Bit} {i j : Instr} : plain f i = .ok j ↔ f = false ∧ i = j := by
  cases f <;> simp [plain]

/-- The look-up finds the command of a flag and an opcode. -/
theorem decodeOp_eq_ok_iff {f : Bit} {op : BitVec 4} {i : Instr} :
    decodeOp f op = .ok i ↔ f = i.flag ∧ op = i.opcode := by
  constructor
  · intro h
    unfold decodeOp at h
    split at h
    case h_6 hop | h_9 hop =>
      cases h
      exact ⟨rfl, BitVec.eq_of_toNat_eq hop⟩
    case h_10 => cases h
    all_goals
      rename_i hop
      obtain ⟨rfl, rfl⟩ := plain_eq_ok_iff.1 h
      exact ⟨rfl, BitVec.eq_of_toNat_eq hop⟩
  · rintro ⟨rfl, rfl⟩
    cases i <;> rfl

theorem decode_eq (w : Word) :
    decode w = if (C8.ofWord w).rsv = 0#3 then decodeOp (C8.ofWord w).f (C8.ofWord w).op else .error .reservedBits := rfl

/-- A word decodes to a command exactly when it is cut into the command's fields. -/
theorem decode_eq_ok_iff_fields {w : Word} {i : Instr} : decode w = .ok i ↔ C8.ofWord w = i.fields := by
  rw [decode_eq]
  split
  case isTrue h => simp [decodeOp_eq_ok_iff, Instr.fields, C8.eq_iff, h]
  case isFalse h => simp [Instr.fields, C8.eq_iff, h]

theorem decode_eq_ok_iff {w : Word} {i : Instr} : decode w = .ok i ↔ w = encode i :=
  decode_eq_ok_iff_fields.trans eq_encode_iff.symm

theorem decode_encode (i : Instr) : decode (encode i) = .ok i := decode_eq_ok_iff.2 rfl

/-- Settles O3: both directions are `decode_eq_ok_iff`. -/
theorem decodeInvertsEncode : Obligations.DecodeInvertsEncode :=
  ⟨fun i _ => decode_encode i, fun _ _ h => (decode_eq_ok_iff.1 h).symm⟩

/-- Settles O4: each of the eleven words is the encoding of its command. -/
theorem wordsDecodeAsTabled : Obligations.WordsDecodeAsTabled :=
  ⟨decode_encode .nop, decode_encode .encode, decode_encode .decode, decode_encode .hdrBuild, decode_encode .hdrParse,
    decode_encode (.putBit false), decode_encode (.putBit true), decode_encode .getBit, decode_encode .bytes2bits,
    decode_encode (.bits2bytes false), decode_encode (.bits2bytes true)⟩

/-! ### The rows of the opcode map (R92) -/

/-- The rows of R92 in order: mask, match, and the command for each value of `w[4]`. -/
def opcodeRows : List (Word × Word × (Bit → Instr)) :=
  [(0xFF#8, 0x00#8, fun _ => .nop), (0xFF#8, 0x01#8, fun _ => .encode), (0xFF#8, 0x02#8, fun _ => .decode),
    (0xFF#8, 0x03#8, fun _ => .hdrBuild), (0xFF#8, 0x04#8, fun _ => .hdrParse), (0xEF#8, 0x05#8, .putBit),
    (0xFF#8, 0x06#8, fun _ => .getBit), (0xFF#8, 0x07#8, fun _ => .bytes2bits), (0xEF#8, 0x08#8, .bits2bytes)]

/-- The mask of a command without a flag keeps the whole word. -/
theorem and_fullMask_eq_encode_iff (w : Word) (i : Instr) : w &&& 0xFF#8 = encode i ↔ decode w = .ok i := by
  rw [decode_eq_ok_iff, show (0xFF#8 : Word) = BitVec.allOnes 8 from rfl, BitVec.and_allOnes]

/-- The mask of a command with a flag clears `f` and keeps the other fields. -/
theorem ofWord_and_flagMask (w : Word) : C8.ofWord (w &&& 0xEF#8) = { C8.ofWord w with f := false } := by
  refine C8.eq_iff.2 ⟨?rsv, ?f, ?op⟩
  case rsv => exact BitVec.extractLsb'_and.trans BitVec.and_allOnes
  case f => simp [C8.ofWord]
  case op => exact BitVec.extractLsb'_and.trans BitVec.and_allOnes

/-- The mask of a command with a flag keeps all of the word but the flag. -/
theorem and_flagMask_eq_encode_iff (w : Word) {g : Bit → Instr}
    (hg : ∀ f, (g f).fields = ⟨0#3, f, (g false).opcode⟩) :
    w &&& 0xEF#8 = encode (g false) ↔ decode w = .ok (g (w.getLsbD 4)) := by
  rw [eq_encode_iff, decode_eq_ok_iff_fields, ofWord_and_flagMask, hg, hg]
  simp [C8.eq_iff, C8.ofWord]

/-- A word selects a row exactly when it decodes to the row's command. -/
theorem row_selects_iff (w : Word) : ∀ r ∈ opcodeRows, (w &&& r.1 = r.2.1 ↔ decode w = .ok (r.2.2 (w.getLsbD 4))) := by
  simp only [opcodeRows, List.forall_mem_cons, List.not_mem_nil, false_imp_iff, implies_true, and_true]
  exact ⟨and_fullMask_eq_encode_iff w .nop, and_fullMask_eq_encode_iff w .encode, and_fullMask_eq_encode_iff w .decode,
    and_fullMask_eq_encode_iff w .hdrBuild, and_fullMask_eq_encode_iff w .hdrParse,
    and_flagMask_eq_encode_iff w (g := .putBit) fun _ => rfl, and_fullMask_eq_encode_iff w .getBit,
    and_fullMask_eq_encode_iff w .bytes2bits, and_flagMask_eq_encode_iff w (g := .bits2bytes) fun _ => rfl⟩

/-- Every command stands in a row, the one its opcode numbers. -/
theorem exists_row_of_instr (i : Instr) : ∃ r ∈ opcodeRows, r.2.2 i.flag = i :=
  ⟨opcodeRows[i.opcode.toNat]'(by cases i <;> simp [Instr.opcode, opcodeRows]), List.getElem_mem _, by cases i <;> rfl⟩

/-- The rows stand for nine different commands, whatever the flag. -/
theorem nodup_row_commands (f : Bit) : (opcodeRows.map fun r => (.ok (r.2.2 f) : Except Illegal Instr)).Nodup := by
  cases f <;> decide

/-- Settles O1: a row selects exactly the words that decode to its command, and the rows' commands are nine. -/
theorem opcodeMapSelectsRows : Obligations.OpcodeMapSelectsRows := by
  refine ⟨fun r hr w => (row_selects_iff w r hr).1, fun w hw => ?illegal, fun w => ?disjoint⟩
  case illegal =>
    cases hd : decode w with
    | error e => exact ⟨e, rfl⟩
    | ok i =>
      obtain ⟨r, hr, hi⟩ := exists_row_of_instr i
      have hf : w.getLsbD 4 = i.flag := congrArg C8.f (decode_eq_ok_iff_fields.1 hd)
      exact absurd ((row_selects_iff w r hr).2 (by rw [hd, hf, hi])) (hw r hr)
  case disjoint =>
    change (opcodeRows.filter _).length ≤ 1
    calc (opcodeRows.filter fun r => w &&& r.1 == r.2.1).length
      _ = opcodeRows.countP fun r => w &&& r.1 == r.2.1 := List.countP_eq_length_filter.symm
      _ = (opcodeRows.map fun r => .ok (r.2.2 (w.getLsbD 4))).count (decode w) := by
        rw [List.count, List.countP_map]
        exact List.countP_congr fun r hr => by
          rw [beq_iff_eq, row_selects_iff w r hr, Function.comp, beq_iff_eq, eq_comm]
      _ ≤ 1 := List.nodup_iff_count_le_one.1 (nodup_row_commands _) _

/-! ### The illegal words (R95, R222) -/

/-- The three checks of R95 passed. -/
theorem C8.wellFormed_iff (c : C8) :
    c.wellFormed = true ↔ c.rsv = 0#3 ∧ c.op.toNat ≤ 8 ∧ (c.f = true → c.op = 5#4 ∨ c.op = 8#4) := by
  cases hf : c.f <;> simp [C8.wellFormed, C8.rsvOk, C8.opOk, C8.flagOk, hf, and_assoc]

/-- One of R95's checks failed, as (a), (b) and (c) say it. -/
theorem C8.wellFormed_eq_false_iff (c : C8) : c.wellFormed = false ↔
    c.rsv ≠ 0#3 ∨ 9 ≤ c.op.toNat ∨ (c.f = true ∧ c.op ≠ 5#4 ∧ c.op ≠ 8#4) := by
  rw [← Bool.not_eq_true, C8.wellFormed_iff, not_and_or, not_and_or, not_le, Nat.lt_iff_add_one_le,
    Classical.not_imp, not_or]

/-- The look-up finds a command for a legal flag and opcode. -/
theorem decodeOp_isOk : ∀ (f : Bit) (op : BitVec 4), (C8.mk 0#3 f op).wellFormed = true →
    (decodeOp f op).isOk = true := by
  decide

/-- The fields of a command pass R95's checks, and fields that pass them are a command's. -/
theorem exists_fields_iff {c : C8} : (∃ i : Instr, i.fields = c) ↔ c.wellFormed = true := by
  constructor
  · rintro ⟨i, rfl⟩
    exact ofWord_encode i ▸ (encodeLegal i).2
  · intro h
    obtain ⟨r, f, op⟩ := c
    obtain rfl : r = 0#3 := ((C8.wellFormed_iff _).1 h).1
    cases hd : decodeOp f op with
    | error e => exact absurd (decodeOp_isOk f op h) (by simp [hd, Except.isOk, Except.toBool])
    | ok i =>
      obtain ⟨rfl, rfl⟩ := decodeOp_eq_ok_iff.1 hd
      exact ⟨i, rfl⟩

/-- A word is illegal exactly when its fields fail a check of R95. -/
theorem decode_error_iff (w : Word) : (∃ e, decode w = .error e) ↔ (C8.ofWord w).wellFormed = false := by
  rw [← Bool.not_eq_true, ← exists_fields_iff]
  simp only [eq_comm (b := C8.ofWord w), ← decode_eq_ok_iff_fields]
  cases decode w <;> simp

/-- The legal words among all numbers of eight bits (R95). -/
theorem filter_decodeTableWord_isSome : ((List.range 256).filter fun n => (decodeTableWord 8 n).isSome) =
    [0x00, 0x01, 0x02, 0x03, 0x04, 0x05, 0x06, 0x07, 0x08, 0x15, 0x18] := by
  decide

theorem length_filter_decodeTableWord_isNone :
    ((List.range 256).filter fun n => (decodeTableWord 8 n).isNone).length = 245 := by
  have h := (List.range 256).length_eq_length_filter_add fun n => (decodeTableWord 8 n).isSome
  simp only [List.length_range, Option.not_isSome, filter_decodeTableWord_isSome, List.length_cons, List.length_nil] at h
  omega

namespace Machine

variable {s : State} {i : Instr}

/-- The launch of an illegal word (R222). -/
theorem launch_of_error {w : Word} {e : Illegal} (h : decode w = .error e) (s : State) :
    launch w s = .next (raise .illegalCommand { s with cmd := w }) := by
  rw [launch, h, execIllegal]

/-! ### No command but NOP does nothing (R95) -/

theorem ErrKind.code_ne_zero (e : ErrKind) : e.code ≠ 0#8 := by cases e <;> decide

/-- A failed launch is not what NOP does. -/
theorem exec_ne_nop_of_raise (e : ErrKind) (h : exec i s = .next (raise e s)) : exec i s ≠ exec .nop s := by
  rw [h]
  exact fun hn => e.code_ne_zero (congrArg State.err (Host.Outcome.next.inj hn))

/-- A state in which every command but NOP fails or changes a register: no grid, LEN and PLEN above what a header and the
bit buffer take, and an empty bitstring. -/
def unready : State := { State.reset with len := BitVec.allOnes 213, plen := BitVec.allOnes 32 }

/-- In `unready` HDR_PARSE fails, or sets LEN to a value below `10^64`. -/
theorem exec_hdrParse_unready : exec .hdrParse unready ≠ exec .nop unready := by
  rcases hdrParse_cases unready with ⟨-, h⟩ | ⟨l, o, m, hp, h⟩
  · exact exec_ne_nop_of_raise .malformedHeader (congrArg Host.Outcome.next h)
  · intro hn
    have hl : l < 10 ^ 64 := (parseHeader_eq_some unready.length_hdrBits hp).1
    have hlen : BitVec.ofNat 213 l = BitVec.allOnes 213 :=
      congrArg State.len (h.symm.trans (Host.Outcome.next.inj hn))
    have := congrArg BitVec.toNat hlen
    rw [BitVec.toNat_ofNat, BitVec.toNat_allOnes] at this
    omega

/-- In `unready` BITS2BYTES FIX sets PLEN to 0. -/
theorem exec_bits2bytes_fix_unready : exec (.bits2bytes true) unready ≠ exec .nop unready := by
  intro hn
  have hplen : (bits2bytes true unready).plen = (succeed unready).plen := congrArg State.plen (Host.Outcome.next.inj hn)
  exact absurd hplen (by decide)

/-- Every command but NOP does in `unready` what NOP does not do. -/
theorem exec_unready_ne_nop (h : i ≠ .nop) : exec i unready ≠ exec .nop unready := by
  cases i
  case nop => exact absurd rfl h
  case encode | decode | putBit => exact exec_ne_nop_of_raise .badOperand (congrArg Host.Outcome.next (if_pos rfl))
  case getBit => exact exec_ne_nop_of_raise .badOperand (congrArg Host.Outcome.next (if_neg (by decide)))
  case bytes2bits => exact exec_ne_nop_of_raise .badOperand (congrArg Host.Outcome.next (if_pos (by decide)))
  case hdrBuild => exact exec_ne_nop_of_raise .payloadTooLarge rfl
  case hdrParse => exact exec_hdrParse_unready
  case bits2bytes f =>
    cases f
    case false => exact exec_ne_nop_of_raise .malformedBitstring rfl
    case true => exact exec_bits2bytes_fix_unready

end Machine

/-- Settles O2: the words are R95's checks failed, the launch is `raise`, and `unready` tells every command from NOP. -/
theorem illegalWordsRaiseIllegalCommand : Obligations.IllegalWordsRaiseIllegalCommand := by
  refine ⟨fun w => ?illegal, ?legalCount, length_filter_decodeTableWord_isNone, fun s v rest e hp hs he => ?launch,
    fun i hi => ⟨Machine.unready, Machine.exec_unready_ne_nop hi⟩⟩
  case illegal => exact (decode_error_iff w).trans (C8.ofWord w).wellFormed_eq_false_iff
  case legalCount => exact congrArg List.length filter_decodeTableWord_isSome
  case launch => exact (Machine.step_launch hp hs).trans (Machine.launch_of_error he _)

end Sys2Proof
end

section
/-!
PROOFS. The Bit Codec (spec/40_bit_codec.md): the bitstring by position (R110, R111: O13), the round-trip laws (R114: O25),
and the commands BYTES2BITS (R115: O12) and BITS2BYTES (R116: O14).
-/

namespace Sys2Proof.Machine

variable {s : State} {i : Instr}

/-! ### The functions -/

/-- Settles O13: both clauses are the position form `getElem?_bytesToBits`. -/
theorem bytesToBitsByPosition : Obligations.BytesToBitsByPosition := by
  refine fun b => ⟨length_bytesToBits b, fun j m _ hm => ?_, fun i _ => getElem?_bytesToBits b i⟩
  have hdiv : (8 * j + m) / 8 = j := by omega
  have hmod : (8 * j + m) % 8 = m := by omega
  rw [getElem?_bytesToBits, hdiv, hmod]

/-- The bytes that have no leading zero byte to drop. -/
theorem dropWhile_zero_eq_self_iff {b : List Byte} : b.dropWhile (· == 0#8) = b ↔ b.head? ≠ some 0#8 := by
  cases b <;> simp [List.dropWhile_eq_self_iff]

/-- R114 (b): of a non-empty byte sequence, minimal width gives back just those without a leading zero byte. -/
theorem bitsToBytesMin_bytesToBits_eq_self_iff {b : List Byte} :
    bitsToBytesMin (bytesToBits b) = some b ↔ ∃ x xs, b = x :: xs ∧ x ≠ 0#8 := by
  cases b with
  | nil => simp [bytesToBits, bitsToBytesMin]
  | cons x xs =>
    rw [bitsToBytesMin_bytesToBits (List.cons_ne_nil x xs), Option.some_inj, dropWhile_zero_eq_self_iff]
    simp

/-- R114 (c): minimal width drops zero bytes put in front. -/
theorem bitsToBytesMin_bytesToBits_zeros_append {z : Nat} {b : List Byte} (hz : 1 ≤ z) (hb : b.head? ≠ some 0#8) :
    bitsToBytesMin (bytesToBits (List.replicate z 0#8 ++ b)) = some b := by
  have hne : List.replicate z 0#8 ++ b ≠ [] :=
    List.append_ne_nil_of_left_ne_nil (List.ne_nil_of_length_pos (by rwa [List.length_replicate])) b
  have hzeros : ∀ x ∈ List.replicate z 0#8, (x == 0#8) = true := fun x hx => beq_iff_eq.2 (List.eq_of_mem_replicate hx)
  rw [bitsToBytesMin_bytesToBits hne, List.dropWhile_append_of_pos hzeros, dropWhile_zero_eq_self_iff.2 hb]

/-- R114 (e): the two bitstrings have the same length and spell the same number. -/
theorem bytesToBits_bitsToBytesFix (s : List Bit) :
    bytesToBits (bitsToBytesFix s) = List.replicate (8 * ceil8 s.length - s.length) false ++ s := by
  refine bitsToNat_inj ?length ?value
  case length =>
    have := le_ceil8 s.length
    rw [length_bytesToBits, length_bitsToBytesFix, List.length_append, List.length_replicate]
    omega
  case value =>
    rw [bitsToNat_bytesToBits, bytesToNat_bitsToBytesFix, bitsToNat_append, bitsToNat_replicate, Nat.mul_zero,
      Nat.zero_add]

/-- Settles O25: the laws (a) to (e), each from what the deserialisers do with a serialised byte sequence. -/
theorem bitCodecRoundTrips : Obligations.BitCodecRoundTrips :=
  ⟨bitsToBytesFix_bytesToBits, fun _ => bitsToBytesMin_bytesToBits_eq_self_iff,
    fun _ _ => bitsToBytesMin_bytesToBits_zeros_append, rfl, bytesToBits_bitsToBytesFix⟩

/-! ### The commands -/

/-- Settles O12: `bytes2bits_cases` gives the check of R115, and the memory laws say what the written run holds. -/
theorem bytes2bitsSerialisesPayload : Obligations.Bytes2bitsSerialisesPayload := by
  intro s
  rcases bytes2bits_cases s with ⟨hge, e⟩ | ⟨hlt, e⟩
  · exact ⟨fun hlt => absurd hge (Nat.not_le.2 hlt), fun _ => congrArg Host.Outcome.next e⟩
  · have hcell := s.bbufAt_setBitbuf (bytesToBits (s.payload s.plen.toNat))
    simp only [getElem?_bytesToBits, State.getElem?_payload] at hcell
    refine ⟨fun _ => ⟨_, congrArg Host.Outcome.next e, toNat_ofNat_lt (by omega), fun i hi => ?written,
      fun i hi => ?kept, rfl⟩, fun hge => absurd hlt (Nat.not_lt.2 hge)⟩
    case written => exact (hcell i).trans (by rw [if_pos (by omega)]; rfl)
    case kept => exact (hcell i).trans (by rw [if_neg (by omega)]; rfl)

/-- A command that stores the `n` bytes of `v` leaves them in PBUF, `n` in PLEN, and all else as it was (R116). -/
theorem exec_stores_value {n v : Nat} (hn : n < 2 ^ 32)
    (h : exec i s = .next (succeed (s.storePayload (natToBytes n v)))) :
    ∃ t, exec i s = .next t ∧ t.plen.toNat = n ∧
      (∀ j, j < n → (t.pbufAt j).toNat = v / 2 ^ (8 * (n - 1 - j)) % 256) ∧
      (∀ j, n ≤ j → t.pbufAt j = s.pbufAt j) ∧
      t = { s with pbuf := t.pbuf, plen := t.plen, err := 0#8, phase := .done } := by
  obtain ⟨hplen, hcell⟩ := succeed_storePayload_reads s (natToBytes n v) (by rwa [length_natToBytes])
  rw [length_natToBytes] at hplen
  simp only [getElem?_natToBytes] at hcell
  refine ⟨_, h, hplen, fun j hj => ?written, fun j hj => ?kept, rfl⟩
  case written => rw [hcell, if_pos hj, Option.getD_some, BitVec.toNat_ofNat]
  case kept => rw [hcell, if_neg (Nat.not_lt.2 hj), Option.getD_none]

/-- Fixed width of BBUF[0..n) as `ceil8(n)` bytes of its value (R112). -/
theorem bitsToBytesFix_bitbuf (s : State) (n : Nat) :
    bitsToBytesFix (s.bitbuf n) = natToBytes (ceil8 n) (streamValue n s.bbufAt) := by
  rw [bitsToBytesFix, s.length_bitbuf, bitsToNat_bitbuf]

theorem exec_bits2bytes_fix : exec (.bits2bytes true) s =
    .next (succeed (s.storePayload (natToBytes (ceil8 s.blen.toNat) (streamValue s.blen.toNat s.bbufAt)))) := by
  rw [← bitsToBytesFix_bitbuf]
  exact congrArg Host.Outcome.next (bits2bytes_fix s)

/-- BITS2BYTES MIN of the empty bitstring (R116). -/
theorem exec_bits2bytes_min_of_empty (h : s.blen.toNat = 0) :
    exec (.bits2bytes false) s = .next (raise .malformedBitstring s) := by
  rcases bits2bytes_min_cases s with ⟨-, e⟩ | ⟨hpos, -⟩
  · exact congrArg Host.Outcome.next e
  · omega

theorem exec_bits2bytes_min (h : 1 ≤ s.blen.toNat) : exec (.bits2bytes false) s =
    .next (succeed (s.storePayload (natToBytes (ceil8 (bitWidth (streamValue s.blen.toNat s.bbufAt)))
      (streamValue s.blen.toNat s.bbufAt)))) := by
  rw [← bitsToNat_bitbuf]
  rcases bits2bytes_min_cases s with ⟨h0, -⟩ | ⟨-, e⟩
  · omega
  · exact congrArg Host.Outcome.next e

/-- The value of BBUF[0..BLEN) has at most BLEN bits. -/
theorem bitWidth_streamValue_le (n : Nat) (s : State) : bitWidth (streamValue n s.bbufAt) ≤ n := by
  rw [← bitsToNat_bitbuf]
  exact (bitWidth_bits_le _).trans (s.length_bitbuf n).le

/-- Settles O14: each completing form stores the bytes of BBUF's value, MIN as many as the value's bits `k` need. -/
theorem bits2bytesDeserialises : Obligations.Bits2bytesDeserialises := by
  have hfits : ∀ (s : State) (n : Nat), n ≤ s.blen.toNat → ceil8 n < 2 ^ 32 := fun s n hn =>
    (ceil8_le_of_le (hn.trans_lt s.blen.isLt)).trans_lt (by decide)
  refine ⟨fun s => exec_stores_value (hfits s _ le_rfl) exec_bits2bytes_fix, fun _ => exec_bits2bytes_min_of_empty,
    fun s k hlen hk => ?_⟩
  obtain rfl := bitWidth_unique hk
  exact exec_stores_value (hfits s _ (bitWidth_streamValue_le _ s)) (exec_bits2bytes_min hlen)

end Sys2Proof.Machine
end

section
/-!
PROOFS. The Header Builder and Parser (spec/41_header.md): HDR_BUILD (R137: O15), HDR_PARSE (R138: O16), and the round trip
of what is built and parsed back (R139: O17).
-/

namespace Sys2Proof.Machine

variable {s : State} {h : List Bit} {l m : Nat} {o : List Byte}

/-! ### What the two commands answer -/

theorem exec_hdrBuild_of_lt (hl : s.len.toNat < 10 ^ 64) : ∃ h, buildHeader s.len.toNat = some h ∧
    exec .hdrBuild s = .next (succeed { s with hdr := hdrOfBits h }) := by
  rcases hdrBuild_cases s with ⟨hge, -⟩ | ⟨-, h, hb, e⟩
  · exact absurd hl (Nat.not_lt.2 hge)
  · exact ⟨h, hb, congrArg Host.Outcome.next e⟩

theorem exec_hdrBuild_of_ge (hl : 10 ^ 64 ≤ s.len.toNat) :
    exec .hdrBuild s = .next (raise .payloadTooLarge s) := by
  rcases hdrBuild_cases s with ⟨-, e⟩ | ⟨hlt, -⟩
  · exact congrArg Host.Outcome.next e
  · exact absurd hl (Nat.not_le.2 hlt)

theorem exec_hdrParse_of_some (hp : parseHeader s.hdrBits = some (l, o, m)) :
    exec .hdrParse s = .next (succeed (s.setParsed l o m)) := by
  rcases hdrParse_cases s with ⟨hn, -⟩ | ⟨l', o', m', hs, e⟩
  · cases hn.symm.trans hp
  · cases hs.symm.trans hp
    exact congrArg Host.Outcome.next e

theorem exec_hdrParse_of_none (hp : parseHeader s.hdrBits = none) :
    exec .hdrParse s = .next (raise .malformedHeader s) := by
  rcases hdrParse_cases s with ⟨-, e⟩ | ⟨_, _, _, hs, -⟩
  · exact congrArg Host.Outcome.next e
  · cases hs.symm.trans hp

/-! ### Round trip -/

theorem parseHeader_buildHeader (hl : l < 10 ^ 64) (hb : buildHeader l = some h) :
    parseHeader h = some (l, optField Config.optPlaceholder, Config.optPlaceholder.length) := by
  obtain rfl := Option.some.inj (hb.symm.trans (buildHeader_of_lt hl))
  exact parseHeader_built hl

/-- The padding of R132 comes after the placeholder, so cutting the field to the placeholder's length removes it. -/
theorem take_optField_optPlaceholder :
    (optField Config.optPlaceholder).take Config.optPlaceholder.length = Config.optPlaceholder := by
  rw [optField_eq length_optPlaceholder_le, List.take_left]

/-- Settles O17: the parser takes back what the builder spells (`parseHeader_buildHeader`), and HDR carries it from
HDR_BUILD to HDR_PARSE bit by bit (`hdrBits_of_hdrOfBits`). -/
theorem headerBuildParseRoundTrip : Obligations.HeaderBuildParseRoundTrip := by
  refine ⟨fun l hl => ?functions, fun s hl => ?commands⟩
  case functions =>
    have hb := buildHeader_of_lt hl
    exact ⟨_, _, _, hb, length_buildHeader hb, parseHeader_buildHeader hl hb, length_optField _,
      take_optField_optPlaceholder⟩
  case commands =>
    obtain ⟨h, hb, hbuild⟩ := exec_hdrBuild_of_lt hl
    have hbits : State.hdrBits { succeed { s with hdr := hdrOfBits h } with len := 0#213 } = h :=
      State.hdrBits_of_hdrOfBits (length_buildHeader hb) rfl
    have hparse := exec_hdrParse_of_some (hbits ▸ parseHeader_buildHeader hl hb)
    refine ⟨_, _, hbuild, hparse, BitVec.ofNat_toNat .., rfl, ?_⟩
    rw [parsed_options (length_optField _) length_optPlaceholder_le rfl rfl, take_optField_optPlaceholder]

/-! ### The commands -/

/-- Settles O15: `hdrByte_built` reads the built header byte by byte. -/
theorem hdrBuildWritesLengthAndOptions : Obligations.HdrBuildWritesLengthAndOptions := by
  refine fun s => ⟨fun hl => ?_, exec_hdrBuild_of_ge⟩
  obtain ⟨h, hb, e⟩ := exec_hdrBuild_of_lt hl
  obtain ⟨hdigits, hoptions⟩ := hdrByte_built (s := succeed { s with hdr := hdrOfBits h }) hb rfl
  exact ⟨_, e, hdigits, hoptions, rfl⟩

theorem lengthField_all_isDigit_iff (s : State) : ((List.range 64).map s.hdrByte).all isDigit = true ↔
    ∀ j, j < 64 → 0x30 ≤ (s.hdrByte j).toNat ∧ (s.hdrByte j).toNat ≤ 0x39 := by
  simp [isDigit_iff]

/-- A completing HDR_PARSE, register by register (R138). -/
theorem exec_hdrParse_reads (hp : parseHeader s.hdrBits = some (l, o, m)) :
    ∃ t, exec .hdrParse s = .next t ∧ t.len.toNat = l ∧ (∀ j, j < 64 → t.optByte j = o.getD j 0#8) ∧ t.optlen.toNat = m ∧
      t = { s with len := t.len, opt := t.opt, optlen := t.optlen, err := 0#8, phase := .done } := by
  obtain ⟨hl, ho, hm⟩ := parseHeader_eq_some s.length_hdrBits hp
  exact ⟨_, exec_hdrParse_of_some hp, toNat_ofNat_lt (hl.trans (by decide)), fun j hj => optByte_getD ho rfl hj,
    toNat_ofNat_lt (hm.trans_lt (by decide)), rfl⟩

/-- The stripped length of a field given byte by byte (R135). -/
theorem stripLen_map_range (n : Nat) (f : Nat → Byte) :
    (stripLen ((List.range n).map f) = 0 ∨ f (stripLen ((List.range n).map f) - 1) ≠ Config.space) ∧
      ∀ j, stripLen ((List.range n).map f) ≤ j → j < n → f j = Config.space := by
  have hget : ∀ j, j < n → ((List.range n).map f)[j]? = some (f j) := fun j hj => by simp [hj]
  have hle := stripLen_le ((List.range n).map f)
  obtain ⟨hlast, hspaces⟩ := stripLen_spec ((List.range n).map f)
  rw [List.length_map, List.length_range] at hle hspaces
  refine ⟨Classical.or_iff_not_imp_left.2 fun hpos hspace => ?_, fun j hj hn => ?_⟩
  · exact hlast.resolve_left hpos ((hget _ (by omega)).trans (congrArg some hspace))
  · exact Option.some.inj ((hget j hn).symm.trans (hspaces j hj hn))

/-- Settles O16: `parseHeader_hdrBits` says what the parser makes of HDR's bytes, and `stripLen_map_range` where the
options string ends. -/
theorem hdrParseReadsLengthAndOptions : Obligations.HdrParseReadsLengthAndOptions := by
  refine fun s => ⟨fun hd => ?digits, fun ⟨j, hj, hnot⟩ => ?malformed⟩
  case digits =>
    have hp := s.parseHeader_hdrBits.trans (if_pos ((lengthField_all_isDigit_iff s).2 hd))
    obtain ⟨-, -, hm⟩ := parseHeader_eq_some s.length_hdrBits hp
    obtain ⟨hlast, hspaces⟩ := stripLen_map_range 64 fun j => s.hdrByte (64 + j)
    obtain ⟨t, e, hlen, hopt, hoptlen, hframe⟩ := exec_hdrParse_reads hp
    rw [← hoptlen] at hm hlast hspaces
    exact ⟨t, e, hlen, fun j hj => (hopt j hj).trans (by simp [hj]), hm, hlast, hspaces, hframe⟩
  case malformed =>
    refine exec_hdrParse_of_none (s.parseHeader_hdrBits.trans (if_neg fun hd => ?_))
    exact hnot ((lengthField_all_isDigit_iff s).1 hd j hj)

end Sys2Proof.Machine
end

section
/-!
PROOFS. The Pixel Group Mapper (spec/42_parity_group_mapper.md): `SetParity` (R150, R151: O18, O19), the group operations
sample by sample (R153, R155: O24, O23), PUT_BIT (R157: O20) and GET_BIT (R158, R159: O21, O22), and what a DECODE tile
step does not see of the grid (R156: O38).
-/

namespace Sys2Proof.Machine

variable {s t : State} {r c k r0 c0 q : Nat} {b f : Bit}

/-! ### SetParity (R150, R151) -/

theorem toNat_mod_two_eq (v : Byte) : v.toNat % 2 = (odd v).toNat := by
  rcases Nat.mod_two_eq_zero_or_one v.toNat with h | h <;> simp [odd, h]

theorem toNat_sub_one {v : Byte} (h : v ≠ 0#8) : (v - 1#8).toNat = v.toNat - 1 := by bv_omega

/-- `SetParity(v, 1)` as a number (R150): only an even sample above 0 is decremented, so nothing wraps. -/
theorem toNat_setParity_true (v : Byte) : (setParity v true).toNat =
    if v.toNat % 2 = 0 then (if v.toNat = 0 then 1 else v.toNat - 1) else v.toNat := by
  by_cases hz : v = 0#8
  · rw [hz]
    rfl
  · have hpos : v.toNat ≠ 0 := fun h => hz (BitVec.eq_of_toNat_eq h)
    rw [if_neg hpos, ← toNat_sub_one hz, ← apply_ite BitVec.toNat]
    simp only [setParity, even_iff, if_neg hz, if_true]

/-- `SetParity(v, 0)` as a number (R151 (e)): an odd sample is not 0, so its decrement does not wrap. -/
theorem toNat_setParity_false (v : Byte) : (setParity v false).toNat = v.toNat - v.toNat % 2 := by
  rcases Nat.mod_two_eq_zero_or_one v.toNat with h | h
  · simp [setParity, odd, h]
  · have hz : v ≠ 0#8 := fun e => by simp [e] at h
    simp [setParity, odd, h, toNat_sub_one hz]

/-- Settles O18: the two bits are `toNat_setParity_true` and `toNat_setParity_false`. -/
theorem setParityByDecrement : Obligations.SetParityByDecrement := by
  intro v b
  cases b with
  | true => simpa using toNat_setParity_true v
  | false =>
    rw [toNat_setParity_false, if_neg Bool.false_ne_true]
    split <;> omega

/-- R151 (d): `SetParity` moves a sample by at most 1. -/
theorem setParity_distance (v : Byte) (b : Bit) :
    (setParity v b).toNat ≤ v.toNat + 1 ∧ v.toNat ≤ (setParity v b).toNat + 1 := by
  cases b with
  | true =>
    rw [toNat_setParity_true]
    split_ifs <;> omega
  | false =>
    rw [toNat_setParity_false]
    omega

/-- R151 (a): `SetParity` raises no sample but 0, to 1. -/
theorem setParity_of_gt {v : Byte} (h : v.toNat < (setParity v b).toNat) : v = 0#8 ∧ setParity v b = 1#8 := by
  cases b with
  | true =>
    rw [toNat_setParity_true] at h
    have hz : v.toNat = 0 := by split_ifs at h <;> omega
    rw [BitVec.eq_of_toNat_eq (y := 0#8) hz]
    exact ⟨rfl, rfl⟩
  | false =>
    rw [toNat_setParity_false] at h
    omega

/-- Settles O19, clause by clause. The table of edge values is evaluated. -/
theorem setParityProperties : Obligations.SetParityProperties :=
  ⟨fun v b => ⟨by rw [toNat_mod_two_eq, odd_setParity], setParity_setParity v b, (setParity_distance v b).1,
    (setParity_distance v b).2, setParity_of_gt, toNat_setParity_false v⟩, by decide, by decide⟩

/-! ### The group operations (R153, R154) -/

/-- The group write leaves the shape registers, so a sample keeps its address. -/
theorem addr_encodeBitIntoGroup (s : State) : (encodeBitIntoGroup r0 c0 q b s).addr r c k = s.addr r c k := by
  rw [encodeBitIntoGroup_frame]
  rfl

/-- `EncodeBitIntoGroup` sample by sample (R153). -/
theorem grid_encodeBitIntoGroup (ht : s.TileInGrid r0 c0 q) (hi : s.InGrid r c k) :
    (encodeBitIntoGroup r0 c0 q b s).grid r c k =
      if r0 ≤ r ∧ r < r0 + q ∧ c0 ≤ c ∧ c < c0 + q then setParity (s.grid r c k) b else s.grid r c k := by
  rw [State.grid, addr_encodeBitIntoGroup, gmemAt_encodeBitIntoGroup]
  simp only [mem_tile_iff ht hi]
  rfl

/-- The cells of a tile in the grid are samples of the grid (R152). -/
theorem exists_inGrid_of_mem_tileAddrs {a : Nat} (ht : s.TileInGrid r0 c0 q)
    (ha : a ∈ tileAddrs s.width.toNat s.channels.toNat r0 c0 q) : ∃ r c k, s.InGrid r c k ∧ a = s.addr r c k := by
  obtain ⟨dr, dc, k, hr, hc, hk, e⟩ := mem_tileAddrs.1 ha
  obtain ⟨hrows, hcols⟩ := ht
  exact ⟨r0 + dr, c0 + dc, k, ⟨by omega, by omega, hk⟩, e⟩

/-- Every sample of the tile has the bit's parity after the group write (R151 (b), R153). -/
theorem odd_grid_encodeBitIntoGroup (ht : s.TileInGrid r0 c0 q) (hi : s.InGrid r c k)
    (h : r0 ≤ r ∧ r < r0 + q ∧ c0 ≤ c ∧ c < c0 + q) : odd ((encodeBitIntoGroup r0 c0 q b s).grid r c k) = b := by
  rw [grid_encodeBitIntoGroup ht hi, if_pos h, odd_setParity]

/-- Settles O24: inside the grid it is `grid_encodeBitIntoGroup`, and the tile has no cell outside the grid. -/
theorem groupWriteTouchesExactlyItsTile : Obligations.GroupWriteTouchesExactlyItsTile := by
  refine fun s r0 c0 q b ht => ⟨fun r c k => grid_encodeBitIntoGroup ht, fun a ha => ?_, fun r c k hi h1 h2 h3 h4 =>
    odd_grid_encodeBitIntoGroup ht hi ⟨h1, h2, h3, h4⟩⟩
  refine gmemAt_encodeBitIntoGroup_not_mem fun hmem => ?_
  obtain ⟨r, c, k, hi, e⟩ := exists_inGrid_of_mem_tileAddrs ht hmem
  exact ha r c k hi e

/-- Settles O23: the anchor is a sample of its tile, so it has the bit's parity after the write. The read looks at nothing
but the anchor. -/
theorem groupWriteThenRead : Obligations.GroupWriteThenRead := by
  intro s u r c t b ht h1 hch _ _ hu
  have hanchor : odd ((encodeBitIntoGroup r c t b s).grid r c 0) = b :=
    odd_grid_encodeBitIntoGroup ht ⟨by omega, by omega, hch⟩ (by omega)
  exact ⟨hanchor, (congrArg odd hu).trans hanchor⟩

/-! ### PUT_BIT (R157) -/

theorem exec_putBit_of_noChannels (h : s.channels.toNat = 0) : exec (.putBit f) s = .next (raise .badOperand s) := by
  rcases putBit_cases s f with ⟨-, e⟩ | ⟨hch, -⟩ | ⟨hch, -⟩ | ⟨hch, -⟩
  · exact congrArg Host.Outcome.next e
  all_goals omega

theorem exec_putBit_of_invalid (hch : 1 ≤ s.channels.toNat) (hv : ¬ ValidGroupSize s.groupSize.toNat) :
    exec (.putBit f) s = .next (raise .invalidGroupSize s) := by
  rcases putBit_cases s f with ⟨hno, -⟩ | ⟨-, -, e⟩ | ⟨-, hv', -⟩ | ⟨-, hv', -⟩
  · exact absurd hch hno
  · exact congrArg Host.Outcome.next e
  all_goals exact absurd hv' hv

theorem exec_putBit_of_outside (hch : 1 ≤ s.channels.toNat) (hq : 1 ≤ q) (hg : s.groupSize.toNat = q * q)
    (ht : ¬ s.TileInGrid s.row.toNat s.col.toNat q) :
    exec (.putBit f) s = .next (raise .badOperand (s.setStride q)) := by
  obtain ⟨hv, rfl⟩ := root_of_square hq hg
  rcases putBit_cases s f with ⟨hno, -⟩ | ⟨-, hv', -⟩ | ⟨-, -, -, e⟩ | ⟨-, -, ht', -⟩
  · exact absurd hch hno
  · exact absurd hv hv'
  · exact congrArg Host.Outcome.next e
  · exact absurd ht' ht

theorem exec_putBit_of_inside (hch : 1 ≤ s.channels.toNat) (hq : 1 ≤ q) (hg : s.groupSize.toNat = q * q)
    (ht : s.TileInGrid s.row.toNat s.col.toNat q) : exec (.putBit f) s =
      .next (succeed (encodeBitIntoGroup s.row.toNat s.col.toNat q f (s.setStride q))) := by
  obtain ⟨hv, rfl⟩ := root_of_square hq hg
  rcases putBit_cases s f with ⟨hno, -⟩ | ⟨-, hv', -⟩ | ⟨-, -, ht', -⟩ | ⟨-, -, -, e⟩
  · exact absurd hch hno
  · exact absurd hv hv'
  · exact absurd ht ht'
  · exact congrArg Host.Outcome.next e

/-- Settles O20: the errors are `putBit_cases`, and the effect is that of the group write. -/
theorem putBitSetsTileParity : Obligations.PutBitSetsTileParity := by
  refine fun f s => ⟨exec_putBit_of_noChannels, fun hch hg => exec_putBit_of_invalid hch (not_valid_of_no_square hg),
    fun q hch hq hg hout => exec_putBit_of_outside hch hq hg (by omega), fun q hch hq hg hrows hcols => ?_⟩
  have ht : (s.setStride q).TileInGrid s.row.toNat s.col.toNat q := ⟨hrows, hcols⟩
  have e := exec_putBit_of_inside (f := f) hch hq hg ht
  have hstride : q < 2 ^ 16 := (root_of_square hq hg).2 ▸ isqrt_lt s.groupSize.isLt
  refine ⟨_, e, ?_, fun r c k => grid_encodeBitIntoGroup ht, fun a =>
    gmemAt_encodeBitIntoGroup_not_mem (s := s.setStride q), exec_putBit_frame e⟩
  rw [State.succeed_stride, encodeBitIntoGroup_stride]
  exact toNat_ofNat_lt hstride

/-! ### GET_BIT (R158) -/

theorem exec_getBit_of_outside (h : ¬ s.InGrid s.row.toNat s.col.toNat 0) :
    exec .getBit s = .next (raise .badOperand s) := by
  rcases getBit_cases s with ⟨-, e⟩ | ⟨hi, -⟩
  · exact congrArg Host.Outcome.next e
  · exact absurd hi h

theorem exec_getBit_of_inGrid (h : s.InGrid s.row.toNat s.col.toNat 0) : exec .getBit s =
    .next (succeed { s with bitr := decodeBitFromGroup s.row.toNat s.col.toNat s }) := by
  rcases getBit_cases s with ⟨hout, -⟩ | ⟨-, e⟩
  · exact absurd h hout
  · exact congrArg Host.Outcome.next e

/-- Settles O21: `A(ROW, COL, 0)` (R62) is the address written out, and its parity is what the group read answers. -/
theorem getBitReadsAnchorParity : Obligations.GetBitReadsAnchorParity :=
  fun s => ⟨fun hout => exec_getBit_of_outside (by omega), fun hch hrow hcol =>
    ⟨_, exec_getBit_of_inGrid ⟨hrow, hcol, hch⟩, rfl, rfl⟩⟩

/-- Settles O22: GET_BIT leaves shape, cursor and grid, so its own anchor is the second one's. -/
theorem getBitTwiceAgrees : Obligations.GetBitTwiceAgrees := by
  intro s u t v hi ht hrow hcol hheight hwidth hchannels hanchor hv
  cases (exec_getBit_of_inGrid hi).symm.trans ht
  have hi' : u.InGrid u.row.toNat u.col.toNat 0 := by
    rw [State.InGrid, hrow, hcol, hheight, hwidth, hchannels]
    exact hi
  cases (exec_getBit_of_inGrid hi').symm.trans hv
  exact ⟨congrArg odd hanchor, rfl⟩

/-! ### What a DECODE tile step does not see (R156) -/

/-- The state with another GMEM, and so another grid (R61). -/
def State.withGmem (s : State) (g : Memory Byte) : State := { s with gmem := g }

section withGmem

variable (s : State) (g : Memory Byte)

theorem collect_withGmem : (s.withGmem g).collect b = (s.collect b).withGmem g :=
  (apply_ite (State.withGmem · g) (s.bitcnt.toNat < Config.hdrBits) (s.setHdr _ b) (s.setBbuf _ b)).symm

/-- The header comes from HDR and the capacity from TILES, not from the grid (R204). -/
theorem headerComplete_withGmem : headerComplete (s.withGmem g) = (headerComplete s).withGmem g := by
  have hbits : (s.withGmem g).hdrBits = s.hdrBits := State.hdrBits_congr rfl
  unfold headerComplete
  rw [hbits]
  cases parseHeader s.hdrBits with
  | none => rfl
  | some p =>
    exact (apply_ite (State.withGmem · g) (s.tiles.toNat < Config.hdrBits + p.1)
      (raise .insufficientCapacity (s.setParsed p.1 p.2.1 p.2.2)) (s.setParsed p.1 p.2.1 p.2.2)).symm

theorem decodeNext_withGmem : decodeNext (s.withGmem g) = (decodeNext s).withGmem g :=
  (apply_ite (State.withGmem · g) (Config.hdrBits ≤ s.bitcnt.toNat ∧ _) (finalise s) s.advance).symm

variable {s g}

theorem visited_withGmem (hb : (s.withGmem g).visitBit = s.visitBit) :
    (s.withGmem g).visited = s.visited.withGmem g := by
  rw [State.visited, hb, collect_withGmem]
  rfl

/-- A DECODE tile step takes one bit from the grid, and leaves the grid as it is (R156, R203). -/
theorem decodeTile_withGmem (hb : (s.withGmem g).visitBit = s.visitBit) :
    decodeTile (s.withGmem g) = (decodeTile s).withGmem g := by
  have hv := visited_withGmem hb
  have hh : headerComplete (s.withGmem g).visited = (headerComplete s.visited).withGmem g := by
    rw [hv, headerComplete_withGmem]
  have hcount : (s.withGmem g).visited.bitcnt = s.visited.bitcnt := by
    rw [hv]
    rfl
  have hphase : (headerComplete (s.withGmem g).visited).phase = (headerComplete s.visited).phase := by
    rw [hh]
    rfl
  by_cases hc : s.visited.bitcnt.toNat = 1024
  · by_cases hd : (headerComplete s.visited).phase = .done
    · rw [decodeTile_headerFails hc hd, decodeTile_headerFails (by rwa [hcount]) (by rwa [hphase]), hh]
    · rw [decodeTile_headerOk hc hd, decodeTile_headerOk (by rwa [hcount]) (by rwa [hphase]), hh, decodeNext_withGmem]
  · rw [decodeTile_plain hc, decodeTile_plain (by rwa [hcount]), hv, decodeNext_withGmem]

end withGmem

/-- A DECODE tile step that answers a next state has its anchor in the grid (R154). -/
theorem anchorInGrid_of_decodeTileStep (h : decodeTileStep s = .next t) : s.InGrid s.row.toNat s.col.toNat 0 := by
  by_contra hout
  exact nomatch (if_neg hout).symm.trans h

/-- Settles O38: both grids give the tile step the same bit, so it is the same (`decodeTile_withGmem`). -/
theorem decodeIgnoresRedundantSamples : Obligations.DecodeIgnoresRedundantSamples := by
  intro s t g hs hm hodd h
  have htile : tileStep s = .next t := step_tile hs ▸ h
  have hi : s.InGrid s.row.toNat s.col.toNat 0 := by
    rw [tileStep, hm] at htile
    exact anchorInGrid_of_decodeTileStep htile
  obtain rfl : t = decodeTile s := Host.Outcome.next.inj (h.symm.trans (step_decodeTile hs hm hi))
  refine ⟨by rw [tileStep_dec_frame hm htile], ?_⟩
  calc step (s.withGmem g) = .next (decodeTile (s.withGmem g)) := step_decodeTile hs hm hi
    _ = .next ((decodeTile s).withGmem g) := congrArg _ (decodeTile_withGmem hodd)

end Sys2Proof.Machine
end

section
/-!
PROOFS. The Encoder and the tile walk (spec/43_encoder_and_tile_walk.md): ENCODE's launch (R176, R177, R182: O26, O28, O31),
its whole run from the launch to the `wait` after it (R180, R181: O29, O30), what every step keeps (R179: O40, O41), a walk's
tile steps and its end (R174, R178: O27, O53), and the phase machine (R174: O6).
-/

namespace Sys2Proof.Machine

variable {s t : State} {rest : List HostAction} {q : Nat}

/-! ### The launch (R176) -/

theorem exec_encode_of_noChannels (h : s.channels.toNat = 0) : exec .encode s = .next (raise .badOperand s) := by
  rcases encodeLaunch_cases s with ⟨-, e⟩ | ⟨hch, -⟩ | ⟨hch, -⟩ | ⟨hch, -⟩
  · exact congrArg Host.Outcome.next e
  all_goals omega

theorem exec_encode_of_invalid (hch : 1 ≤ s.channels.toNat) (hv : ¬ ValidGroupSize s.groupSize.toNat) :
    exec .encode s = .next (raise .invalidGroupSize s) := by
  rcases encodeLaunch_cases s with ⟨hno, -⟩ | ⟨-, -, e⟩ | ⟨-, hv', -⟩ | ⟨-, hv', -⟩
  · exact absurd hch hno
  · exact congrArg Host.Outcome.next e
  all_goals exact absurd hv' hv

theorem exec_encode_of_tooSmall (hch : 1 ≤ s.channels.toNat) (hq : 1 ≤ q) (hg : s.groupSize.toNat = q * q)
    (hcap : s.capacityAt q < 1024 + 8 * s.plen.toNat) :
    exec .encode s = .next (raise .insufficientCapacity ((s.setStride q).setTiles (s.capacityAt q))) := by
  obtain ⟨hv, rfl⟩ := root_of_square hq hg
  rcases encodeLaunch_cases s with ⟨hno, -⟩ | ⟨-, hv', -⟩ | ⟨-, -, -, e⟩ | ⟨-, -, hfits, -⟩
  · exact absurd hch hno
  · exact absurd hv hv'
  · exact congrArg Host.Outcome.next e
  · exact absurd hcap (Nat.not_lt.2 hfits)

/-- The bits of the first `n` payload bytes, written to BBUF from position 0 on (R110, R111). -/
theorem bbufAt_setBitbuf_payload (s : State) (n i : Nat) :
    (s.setBitbuf (bytesToBits (s.payload n))).bbufAt i =
      if i < 8 * n then (s.pbufAt (i / 8)).getLsbD (7 - i % 8) else s.bbufAt i := by
  rw [State.bbufAt_setBitbuf, getElem?_bytesToBits, State.getElem?_payload]
  by_cases h : i < 8 * n
  · rw [if_pos h, if_pos (by omega)]
    rfl
  · rw [if_neg h, if_neg (by omega)]
    rfl

/-- The state in which an ENCODE launch that completes starts its walk, `t` against `s` (R176). -/
structure EncodeStarted (s t : State) : Prop where
  lenEq : t.len.toNat = 8 * s.plen.toNat
  blenEq : t.blen.toNat = 8 * s.plen.toNat
  payloadBits : ∀ i, i < 8 * s.plen.toNat → t.bbufAt i = (s.pbufAt (i / 8)).getLsbD (7 - i % 8)
  otherBits : ∀ i, 8 * s.plen.toNat ≤ i → t.bbufAt i = s.bbufAt i
  header : ∃ h, buildHeader (8 * s.plen.toNat) = some h ∧ t.hdr = hdrOfBits h
  strideEq : t.stride.toNat = isqrt s.groupSize.toNat
  tilesEq : t.tiles.toNat = s.capacityAt (isqrt s.groupSize.toNat)
  frame : t = { s with
    stride := t.stride, tiles := t.tiles, len := t.len, blen := t.blen, bbuf := t.bbuf, hdr := t.hdr,
    row := 0#16, col := 0#16, bitcnt := 0#32, mode := .enc, err := 0#8, phase := .scan }

theorem exec_encode_of_fits (hf : s.EncodeFits) : ∃ t, exec .encode s = .next t ∧ EncodeStarted s t := by
  rcases encodeLaunch_cases s with ⟨hno, -⟩ | ⟨-, hv, -⟩ | ⟨-, -, hcap, -⟩ | ⟨-, -, -, h, hb, e⟩
  · exact absurd hf.channelsGe hno
  · exact absurd hf.groupSizeOk hv
  · exact absurd hf.fits (Nat.not_le.2 hcap)
  · obtain ⟨-, -, hlen, hstride, htiles⟩ := encodeStart_launched (h := h) hf
    have hblen : 8 * s.plen.toNat < 2 ^ 32 := by
      have := hf.fits
      have := s.capacityAt_lt (isqrt s.groupSize.toNat)
      omega
    have hcell := bbufAt_setBitbuf_payload s s.plen.toNat
    exact ⟨_, congrArg Host.Outcome.next e, hlen, toNat_ofNat_lt hblen, fun i hi => (hcell i).trans (if_pos hi),
      fun i hi => (hcell i).trans (if_neg (Nat.not_lt.2 hi)), ⟨h, hb, rfl⟩, hstride, htiles, rfl⟩

/-- Settles O26: the three failing checks are `encodeLaunch_cases`, and what the walk starts from is `EncodeStarted`. -/
theorem encodeLaunchChecksThenStarts : Obligations.EncodeLaunchChecksThenStarts := by
  refine fun s => ⟨exec_encode_of_noChannels, fun hch hg => exec_encode_of_invalid hch (not_valid_of_no_square hg),
    eight_plen_lt s, fun q => exec_encode_of_tooSmall, fun q hch hq hg hfits => ?_⟩
  obtain ⟨hv, rfl⟩ := root_of_square hq hg
  obtain ⟨t, e, ht⟩ := exec_encode_of_fits ⟨hch, hv, hfits⟩
  obtain ⟨h, hb, hhdr⟩ := ht.header
  obtain ⟨hdigits, hoptions⟩ := hdrByte_built hb hhdr
  exact ⟨t, e, ht.strideEq, ht.tilesEq, ht.lenEq, ht.blenEq, ht.payloadBits, ht.otherBits, hdigits, hoptions, ht.frame⟩

/-! ### How the launch ends (R177, R182) -/

theorem raise_err_ne_zero (e : ErrKind) (s : State) : (raise e s).err ≠ 0#8 := e.code_ne_zero

/-- An ENCODE launch starts its walk where the stream fits, and ends with an error where it does not. -/
theorem exec_encode_ends (h : exec .encode s = .next t) :
    (s.EncodeFits ∧ t.phase = .scan ∧ t.err = 0#8) ∨ (¬ s.EncodeFits ∧ t.phase = .done ∧ t.err ≠ 0#8) := by
  cases h
  rcases encodeLaunch_cases s with ⟨hno, e⟩ | ⟨-, hv, e⟩ | ⟨-, -, hcap, e⟩ | ⟨hch, hv, hfits, _, _, e⟩ <;> rw [e]
  · exact .inr ⟨fun hf => hno hf.channelsGe, rfl, raise_err_ne_zero _ _⟩
  · exact .inr ⟨fun hf => hv hf.groupSizeOk, rfl, raise_err_ne_zero _ _⟩
  · exact .inr ⟨fun hf => absurd hf.fits (Nat.not_le.2 hcap), rfl, raise_err_ne_zero _ _⟩
  · exact .inl ⟨⟨hch, hv, hfits⟩, rfl, rfl⟩

theorem exec_encode_err_eq_zero_iff (h : exec .encode s = .next t) : t.err = 0#8 ↔ s.EncodeFits := by
  rcases exec_encode_ends h with ⟨hf, -, he⟩ | ⟨hf, -, he⟩
  · exact iff_of_true he hf
  · exact iff_of_false he hf

/-- Settles O31: the largest payload is R176's capacity check solved for PLEN. -/
theorem encodeSucceedsExactlyWhenItFits : Obligations.EncodeSucceedsExactlyWhenItFits := by
  refine fun s t h => ⟨exec_encode_err_eq_zero_iff h, fun hch hv => (exec_encode_err_eq_zero_iff h).trans ?_⟩
  constructor
  · intro hf
    have := hf.fits
    omega
  · intro hfits
    exact ⟨hch, hv, by omega⟩

/-! ### The whole of ENCODE (R180, R181) -/

/-- `cmd ENCODE`, `wait` where the stream does not fit: the launch ends, and the `wait` with it. -/
theorem run_encode_of_not_fits (hp : s.phase ≠ .scan) (hs : s.script = runLines .encode ++ rest)
    (hf : ¬ s.EncodeFits) : ∃ t, run 2 s = .next t ∧ t.script = rest ∧ t.phase = .done ∧ t.err ≠ 0#8 ∧
      ∀ a, t.gmemAt a = s.gmemAt a := by
  have hstep := step_runLines .encode hp hs
  obtain ⟨t, ht⟩ := exec_isNext .encode { s with script := .wait :: rest, cmd := encode .encode }
  have hframe := exec_encode_frame ht
  obtain ⟨-, hdone, herr⟩ := (exec_encode_ends ht).resolve_left fun ⟨hf', _⟩ =>
    hf ⟨hf'.channelsGe, hf'.groupSizeOk, hf'.fits⟩
  have hwait : t.script = .wait :: rest := by rw [hframe]
  refine ⟨_, run_two (hstep.trans ht) (step_wait_done hdone hwait), rfl, hdone, herr, fun a => ?_⟩
  rw [hframe]
  rfl

/-- The walk `w` that `cmd ENCODE`, `wait` starts at `s`: launched (R176), with the full stream ready (R175). -/
structure EncodeWalk (s : State) (rest : List HostAction) (w : State) : Prop where
  fits : s.EncodeFits
  started : EncodeStarted { s with script := .wait :: rest, cmd := 0x01#8 } w
  launched : w.Launched
  stream : ∀ i, i < 1024 + 8 * s.plen.toNat → w.stream i = s.fullStream.getD i false

theorem exists_encodeWalk (hp : s.phase ≠ .scan) (hs : s.script = runLines .encode ++ rest) (hf : s.EncodeFits) :
    ∃ w, step s = .next w ∧ EncodeWalk s rest w := by
  obtain ⟨w, hl, -, -, hstep, -, -, -, hstream, -⟩ := encode_launched hp hs hf hf.groupSizeOk.2.symm
  obtain ⟨w', hw', hstart⟩ := exec_encode_of_fits (s := { s with script := .wait :: rest, cmd := encode .encode })
    ⟨hf.channelsGe, hf.groupSizeOk, hf.fits⟩
  cases hstep.symm.trans ((step_runLines .encode hp hs).trans hw')
  exact ⟨w, hstep, hf, hstart, hl, hstream⟩

/-- The stream of an ENCODE launched at `s` stands in the first `n` tiles at stride `q`, and nothing else of GMEM has
changed. -/
structure HoldsStream (s : State) (q n : Nat) (u : State) : Prop where
  inside : ∀ i, i < n → ∀ a, s.InTile q i a → u.gmemAt a = setParity (s.gmemAt a) (s.fullStream.getD i false)
  outside : ∀ a, (∀ i, i < n → ¬ s.InTile q i a) → u.gmemAt a = s.gmemAt a

namespace HoldsStream

variable {u : State} {n i a : Nat} (h : HoldsStream s q n u)

include h

theorem odd_gmemAt (hi : i < n) (ha : s.InTile q i a) : odd (u.gmemAt a) = s.fullStream.getD i false := by
  rw [h.inside i hi a ha, odd_setParity]

/-- The later tiles of the walk share no cell with the first `n` (R172). -/
theorem gmemAt_later (hni : n ≤ i) (hi : i < s.capacityAt q) (ha : s.InTile q i a) : u.gmemAt a = s.gmemAt a := by
  refine h.outside a fun j hj hin => ?_
  have hji : j < i := hj.trans_le hni
  exact hji.ne (tile_disjoint (hji.trans hi) hi hin ha)

theorem gmemAt_distance (a : Nat) :
    (u.gmemAt a).toNat ≤ (s.gmemAt a).toNat + 1 ∧ (s.gmemAt a).toNat ≤ (u.gmemAt a).toNat + 1 := by
  by_cases hin : ∃ i, i < n ∧ s.InTile q i a
  · obtain ⟨i, hi, ha⟩ := hin
    rw [h.inside i hi a ha]
    exact setParity_distance _ _
  · rw [h.outside a fun i hi ha => hin ⟨i, hi, ha⟩]
    omega

end HoldsStream

namespace EncodeWalk

variable {w u : State} {k n : Nat} (h : EncodeWalk s rest w)

include h

theorem mode : w.mode = .enc := by
  rw [h.started.frame]

theorem script : w.script = .wait :: rest := by
  rw [h.started.frame]

theorem moves : w.SequencerMoves := ⟨h.launched.scan, .inr ⟨rest, h.script⟩⟩

theorem width : w.width = s.width := by
  rw [h.started.frame]

theorem len_toNat : w.len.toNat = 8 * s.plen.toNat := h.started.lenEq

theorem len_le : 1024 + w.len.toNat ≤ w.tiles.toNat := by
  rw [h.len_toNat, h.started.tilesEq]
  exact h.fits.fits

/-- The launch has left the grid as it was, so what the walk has written is the stream in the grid of `s`. -/
theorem holdsStream (hn : n ≤ 1024 + 8 * s.plen.toNat) (hw : w.Wrote n u) :
    HoldsStream s (isqrt s.groupSize.toNat) n u := by
  have htile : ∀ i a, w.InTile w.stride.toNat i a ↔ s.InTile (isqrt s.groupSize.toNat) i a := fun i a => by
    rw [h.started.strideEq, h.started.frame]
    rfl
  have hcell : ∀ a, w.gmemAt a = s.gmemAt a := fun a => by
    rw [h.started.frame]
    rfl
  refine ⟨fun i hi a ha => ?_, fun a ha => ?_⟩
  · rw [hw.inside i hi a ((htile i a).2 ha), hcell, h.stream i (hi.trans_le hn)]
  · rw [hw.outside a fun i hi hin => ha i hi ((htile i a).1 hin), hcell]

/-- During the walk PHASE is SCAN, and BITCNT counts its tile steps (R178). -/
theorem run_scan (hk : k < 1024 + 8 * s.plen.toNat) :
    ∃ u, run k w = .next u ∧ u.phase = .scan ∧ u.bitcnt.toNat = k := by
  rw [← h.len_toNat] at hk
  obtain ⟨u, hrun, hu⟩ := h.launched.encode_run h.mode h.moves h.len_le hk
  have hlt : k < 2 ^ 32 := Nat.lt_of_succ_lt (h.launched.bounds (hk.trans_le h.len_le)).1
  refine ⟨u, hrun, ?_, ?_⟩
  · rw [hu.frame]
    exact h.launched.scan
  · rw [hu.frame]
    exact toNat_ofNat_lt hlt

/-- The end of the walk: the whole stream in the grid, the cursor on the last tile (R178, R180). -/
theorem run_all : ∃ u, run (1024 + 8 * s.plen.toNat) w = .next u ∧
    HoldsStream s (isqrt s.groupSize.toNat) (1024 + 8 * s.plen.toNat) u ∧
    u.bitcnt.toNat = 1024 + 8 * s.plen.toNat ∧
    (u.row.toNat, u.col.toNat) =
      Machine.tilePos s.width.toNat (isqrt s.groupSize.toNat) (1023 + 8 * s.plen.toNat) ∧
    u = { w with gmem := u.gmem, bitcnt := u.bitcnt, row := u.row, col := u.col, phase := .done } := by
  obtain ⟨u, hrun, hwrote, hu⟩ := h.launched.encode_run_all h.mode h.moves h.len_le
  have hle := h.len_le
  rw [h.len_toNat] at hrun hwrote hu hle
  obtain ⟨hcount, hrow, hcol⟩ := h.launched.bounds (show 1023 + 8 * s.plen.toNat < w.tiles.toNat by omega)
  refine ⟨u, hrun, h.holdsStream le_rfl hwrote, ?_, ?_, ?_⟩
  · rw [hu]
    exact toNat_ofNat_lt (by omega)
  · rw [hu, ← h.width, ← h.started.strideEq]
    exact congrArg₂ Prod.mk (toNat_ofNat_lt hrow) (toNat_ofNat_lt hcol)
  · rw [hu]
    rfl

end EncodeWalk

/-- Settles O29: the launch starts a walk (`exists_encodeWalk`) that writes the stream tile by tile (`EncodeWalk.run_all`),
and the `wait` ends with it. -/
theorem encodeHidesStreamInGrid : Obligations.EncodeHidesStreamInGrid := by
  refine fun s rest hp hs => ⟨run_encode_of_not_fits hp hs, fun q hf hq => ?_⟩
  obtain ⟨rfl, -⟩ := root_of_groupSize hf.groupSizeOk hq
  obtain ⟨w, hstep, hw⟩ := exists_encodeWalk hp hs hf
  refine ⟨fun k hk => ?during, ?after⟩
  case during =>
    obtain ⟨u, hrun, hu⟩ := hw.run_scan hk
    exact ⟨u, (run_succ_of_step hstep).trans hrun, hu⟩
  case after =>
    obtain ⟨u, hrun, hgrid, hcount, hcursor, hu⟩ := hw.run_all
    have hdone : u.phase = .done := by rw [hu]
    have hwait : u.script = .wait :: rest := by
      rw [hu]
      exact hw.script
    have hend := run_sandwich hstep hrun (step_wait_done hdone hwait)
    rw [hu] at hgrid hcount hcursor hend
    have hst := hw.started
    exact ⟨_, hend, hgrid.inside, hgrid.outside, hst.strideEq, hst.tilesEq, hst.lenEq, hst.blenEq, hst.payloadBits,
      hst.otherBits, fun i hi => (if_pos hi).symm.trans (hw.stream i (by omega)), hcount, hcursor, by rw [hst.frame]⟩

/-- Settles O30: each clause is what the grid that `HoldsStream` describes has in one kind of cell. -/
theorem encodeLeavesOtherSamples : Obligations.EncodeLeavesOtherSamples := by
  intro s rest q hp hs hf hq
  obtain ⟨t, hrun, hinside, houtside, -, -, -, -, -, -, -, -, -, hframe⟩ :=
    ((encodeHidesStreamInGrid s rest hp hs).2 q hf hq).2
  have hgrid : HoldsStream s q (1024 + 8 * s.plen.toNat) t := ⟨hinside, houtside⟩
  have hfits := hf.fits
  rw [(root_of_groupSize hf.groupSizeOk hq).1] at hfits
  exact ⟨t, hrun, by rw [hframe], by rw [hframe], fun i hi a => hgrid.odd_gmemAt hi, fun i hni hi a =>
    hgrid.gmemAt_later hni hi, fun a ha => houtside a fun i hi => ha i (hi.trans_le hfits), hgrid.gmemAt_distance⟩

/-! ### What every step keeps (R179) -/

/-- Settles O40: whatever moves in a step (`step_cases`), the invariant's own lemma about it applies. -/
theorem invariantKeptByEveryStep : Obligations.InvariantKeptByEveryStep := by
  intro s t h hst
  rcases step_cases hst with ⟨hp, rest, -, ht⟩ | ⟨-, a, rest, -, rfl⟩ | ⟨-, v, rest, -, hl⟩ | ⟨hp, a, rest, -, -, ha⟩ |
    ⟨-, ⟨-, rfl⟩ | ⟨rest, -, -, rfl⟩ | ⟨rest, -, -, rfl⟩⟩
  case inl =>
    obtain ⟨u, hu, hinv⟩ := tileStep_inv (h.script rest) hp
    cases hu.symm.trans ht
    exact hinv
  case inr.inl => exact hostAccessInScan_inv a (h.script rest)
  case inr.inr.inl => exact launch_inv (h.script rest).memory (h.script rest).ranges hl
  case inr.inr.inr.inl => exact hostAccess_inv (h.script rest) hp ha
  · exact h
  · exact h
  · exact h.script rest

/-- Settles O41: the state after the step has the invariant, whose cursor clause it is. -/
theorem cursorFollowsBitCount : Obligations.CursorFollowsBitCount := by
  intro s t h hst hp
  have hw := (invariantKeptByEveryStep s t h hst).walk hp
  exact ⟨hw.rowEq, hw.colEq, hw.inWalk⟩

/-! ### A walk's tile steps and its end (R174, R178) -/

theorem step_encodeTile (hs : s.SequencerMoves) (hm : s.mode = .enc)
    (ht : s.TileInGrid s.row.toNat s.col.toNat s.stride.toNat) : step s = .next (encodeTile s) := by
  rw [step_tile hs, tileStep, hm]
  exact if_pos ht

/-- The ENCODE tile step that writes the last bit of the stream ends the walk, its cursor where it was (R178). -/
theorem encodeTile_ends (h : (s.bitcnt.toNat + 1) % 2 ^ 32 = 1024 + s.len.toNat) :
    (encodeTile s).phase = .done ∧ (encodeTile s).row = s.row ∧ (encodeTile s).col = s.col := by
  rcases encodeTile_cases s with ⟨-, e⟩ | ⟨hne, -⟩
  · rw [e, encodeBitIntoGroup_frame]
    exact ⟨rfl, rfl, rfl⟩
  · exact absurd h hne

/-- Any other ENCODE tile step goes on to the next tile (R173, R178). -/
theorem encodeTile_advances (ht : s.TileInGrid s.row.toNat s.col.toNat s.stride.toNat)
    (hne : (s.bitcnt.toNat + 1) % 2 ^ 32 ≠ 1024 + s.len.toNat) :
    (encodeTile s).phase = s.phase ∧
    (s.col.toNat + 2 * s.stride.toNat ≤ s.width.toNat → (encodeTile s).row = s.row ∧
      (encodeTile s).col.toNat = s.col.toNat + s.stride.toNat) ∧
    (s.width.toNat < s.col.toNat + 2 * s.stride.toNat → (encodeTile s).row.toNat = s.row.toNat + s.stride.toNat ∧
      (encodeTile s).col = 0#16) := by
  rcases encodeTile_cases s with ⟨h, -⟩ | ⟨-, e⟩
  · exact absurd h hne
  · rw [e, encodeBitIntoGroup_frame]
    exact ⟨rfl, advance_of_tile ht rfl rfl rfl rfl⟩

/-- What the sequencer's step does to a walk with the invariant: it counts one bit, and the walk ends or goes on. -/
theorem step_sequencer (h : s.Inv) (hs : s.SequencerMoves) :
    ∃ t, step s = .next t ∧ t.Inv ∧ t.bitcnt.toNat = s.bitcnt.toNat + 1 ∧ t.tiles = s.tiles ∧
      (t.phase = .done ∨ t.SequencerMoves) := by
  obtain ⟨t, ht, hinv⟩ := tileStep_inv h hs.1
  obtain ⟨hcount, hscript, -⟩ := tileStep_bitcnt ht
  refine ⟨t, (step_tile hs).trans ht, hinv, ?_, by rw [tileStep_frame ht], ?_⟩
  · rw [hcount]
    exact (h.walk hs.1).countBit_toNat
  · refine (tileStep_phase hs.1 ht).symm.imp_right fun hp => ⟨hp, ?_⟩
    rw [hscript]
    exact hs.2

/-- An ENCODE walk's step raises no error, and ends the walk at the end of the stream only (R177, R178). -/
theorem step_sequencer_enc (h : s.Inv) (hs : s.SequencerMoves) (hm : s.mode = .enc) (hst : step s = .next t) :
    t.err = 0#8 ∧ t.mode = .enc ∧ t.len = s.len ∧ (t.phase = .done → s.bitcnt.toNat + 1 = 1024 + s.len.toNat) := by
  have hw := h.walk hs.1
  have hframe := tileStep_enc_frame hm (step_tile hs ▸ hst)
  refine ⟨by rw [hframe]; exact hw.noError, by rw [hframe]; exact hm, by rw [hframe], fun hd => ?_⟩
  cases (step_encodeTile hs hm hw.tileInGrid).symm.trans hst
  by_contra hne
  rw [← Nat.mod_eq_of_lt hw.count_lt] at hne
  exact nomatch hs.1.symm.trans ((encodeTile_advances hw.tileInGrid hne).1.symm.trans hd)

/-- `n` tile steps take the walk from `s` to its end in `t`. Until then PHASE is SCAN, and each step counts one bit. -/
structure State.WalksTo (s : State) (n : Nat) (t : State) : Prop where
  ends : run n s = .next t
  done : t.phase = .done
  count : t.bitcnt.toNat = s.bitcnt.toNat + n
  during : ∀ k, k < n → ∃ u, run k s = .next u ∧ u.phase = .scan ∧ u.bitcnt.toNat = s.bitcnt.toNat + k

theorem State.WalksTo.refl (hd : t.phase = .done) : t.WalksTo 0 t :=
  ⟨rfl, hd, rfl, fun _ hk => absurd hk (Nat.not_lt_zero _)⟩

theorem State.WalksTo.cons {u : State} {n : Nat} (hp : s.phase = .scan) (hst : step s = .next u)
    (hcount : u.bitcnt.toNat = s.bitcnt.toNat + 1) (h : u.WalksTo n t) : s.WalksTo (n + 1) t := by
  refine ⟨(run_succ_of_step hst).trans h.ends, h.done, ?_, fun k hk => ?_⟩
  · have := h.count
    omega
  · cases k with
    | zero => exact ⟨s, rfl, hp, rfl⟩
    | succ k =>
      obtain ⟨v, hrun, hpv, hcv⟩ := h.during k (Nat.lt_of_succ_lt_succ hk)
      exact ⟨v, (run_succ_of_step hst).trans hrun, hpv, by omega⟩

/-- A walk with the invariant ends, by induction on the tiles that BITCNT leaves. An ENCODE's ends without error at the end
of its stream. -/
theorem exists_walksTo {d : Nat} (h : s.Inv) (hs : s.SequencerMoves) (hd : s.tiles.toNat - s.bitcnt.toNat = d) :
    ∃ n t, n ≤ d ∧ s.WalksTo n t ∧ (s.mode = .enc → t.err = 0#8 ∧ t.bitcnt.toNat = 1024 + s.len.toNat) := by
  have hlt := (h.walk hs.1).inWalk
  induction d generalizing s with
  | zero => omega
  | succ d ih =>
    obtain ⟨u, hst, hinv, hcount, htiles, hend⟩ := step_sequencer h hs
    have henc := fun hm => step_sequencer_enc h hs hm hst
    rcases hend with hdone | hmoves
    · refine ⟨1, u, by omega, (State.WalksTo.refl hdone).cons hs.1 hst hcount, fun hm => ?_⟩
      obtain ⟨herr, -, -, hlast⟩ := henc hm
      exact ⟨herr, hcount.trans (hlast hdone)⟩
    · obtain ⟨n, t, hn, hwalk, hstream⟩ :=
        ih hinv hmoves (by rw [htiles, hcount]; omega) (hinv.walk hmoves.1).inWalk
      refine ⟨n + 1, t, by omega, hwalk.cons hs.1 hst hcount, fun hm => ?_⟩
      obtain ⟨-, hmode, hlen, -⟩ := henc hm
      rw [← hlen]
      exact hstream hmode

/-- Settles O53: the walk's end that `exists_walksTo` finds. -/
theorem walkAlwaysEnds : Obligations.WalkAlwaysEnds := by
  intro s h hs
  obtain ⟨n, t, hn, hwalk, -⟩ := exists_walksTo h hs rfl
  exact ⟨n, t, hn, hwalk.ends, hwalk.done, hwalk.count, hwalk.during⟩

/-- Settles O27: one step is `encodeTile`, and the number of steps is what BITCNT lacks of the stream's end
(`exists_walksTo`). -/
theorem encodeTileStepWritesOneTile : Obligations.EncodeTileStepWritesOneTile := by
  refine ⟨fun s hs hm ht hcount => ?step, fun s h hs hm => ?walk⟩
  case step =>
    have hst := step_encodeTile hs hm ht
    have hmod := Nat.mod_eq_of_lt hcount
    have hframe := tileStep_enc_frame hm (step_tile hs ▸ hst)
    obtain ⟨hbitcnt, -⟩ := tileStep_bitcnt (step_tile hs ▸ hst)
    refine ⟨_, hst, by rw [hbitcnt, toNat_ofNat_lt hcount],
      fun a ha => (gmemAt_encodeTile s a).trans (gmemAt_encodeBitIntoGroup_mem ha),
      fun a ha => (gmemAt_encodeTile s a).trans (gmemAt_encodeBitIntoGroup_not_mem ha),
      fun hlast => encodeTile_ends (hmod.trans hlast), fun hmore => ?_, hframe⟩
    obtain ⟨hp, hcursor⟩ := encodeTile_advances ht (by rwa [hmod])
    exact ⟨hp.trans hs.1, hcursor⟩
  case walk =>
    obtain ⟨n, t, -, hwalk, hstream⟩ := exists_walksTo h hs rfl
    obtain ⟨herr, hend⟩ := hstream hm
    have hcount := hwalk.count
    obtain rfl : n = 1024 + s.len.toNat - s.bitcnt.toNat := by omega
    refine ⟨fun k hk => ?_, t, hwalk.ends, hwalk.done, herr⟩
    obtain ⟨u, hrun, hp, -⟩ := hwalk.during k (by omega)
    exact ⟨u, hrun, hp⟩

/-- What a failing ENCODE launch writes, check by check (R176). -/
theorem exec_encode_fails (h : exec .encode s = .next t) (hne : t.err ≠ 0#8) :
    (t = { s with err := t.err, phase := .done } ∧ (t.err = 5#8 ∨ t.err = 6#8)) ∨
    (t = { s with err := t.err, phase := .done, stride := t.stride, tiles := t.tiles } ∧ t.err = 1#8) := by
  cases h
  rcases encodeLaunch_cases s with ⟨-, e⟩ | ⟨-, -, e⟩ | ⟨-, -, -, e⟩ | ⟨-, -, -, _, _, e⟩ <;> rw [e] at hne ⊢
  · exact .inl ⟨rfl, .inr rfl⟩
  · exact .inl ⟨rfl, .inl rfl⟩
  · exact .inr ⟨rfl, rfl⟩
  · exact absurd rfl hne

/-- Settles O28: the launch leaves GMEM (`exec_encode_frame`), PayloadTooLarge never comes up (`exec_encode_fails`), and no
step of a started ENCODE raises an error (`step_sequencer_enc`). -/
theorem encodeFailsBeforeAnySample : Obligations.EncodeFailsBeforeAnySample := by
  refine ⟨fun s t h => by rw [exec_encode_frame h], fun s t h hne => ?_, fun s h hs hm => ?_⟩
  · exact (exec_encode_fails h hne).imp_right .inr
  · obtain ⟨t, hst, -⟩ := step_sequencer h hs
    exact ⟨t, hst, (step_sequencer_enc h hs hm hst).1⟩

/-! ### The phase machine (R174) -/

/-- A launch enters SCAN for ENCODE and DECODE only, with BITCNT at 0 (R176, R201, R220). -/
theorem launch_moves {w : Word} (h : launch w s = .next t) : t.phase = .done ∨
    (t.phase = .scan ∧ t.bitcnt = 0#32 ∧ (decode w = .ok .encode ∨ decode w = .ok .decode)) := by
  rcases launch_cases h with ⟨i, hd, he⟩ | rfl
  · rcases exec_phase i _ t he with hdone | ⟨hscan, hcount, hi⟩
    · exact .inl hdone
    · rw [hd]
      exact .inr ⟨hscan, hcount, hi.imp (congrArg _) (congrArg _)⟩
  · exact .inl rfl

/-- Every move of the phase machine: a reset, a launch, the end of a walk, or none. -/
theorem step_moves (h : step s = .next t) :
    ((∃ rest, s.script = .reset :: rest) ∧ t.phase = .idle) ∨
    (s.phase ≠ .scan ∧ ∃ v rest, s.script = .wr .cmd v :: rest ∧ (t.phase = .done ∨ (t.phase = .scan ∧ t.bitcnt = 0#32 ∧
      (decode (BitVec.ofNat 8 v) = .ok .encode ∨ decode (BitVec.ofNat 8 v) = .ok .decode)))) ∨
    (s.phase = .scan ∧ t.phase = .done ∧ t.bitcnt.toNat = (s.bitcnt.toNat + 1) % 2 ^ 32) ∨
    t.phase = s.phase := by
  rcases step_writers_of_readOnly h with ⟨rest, hs, rfl⟩ | ⟨hp, v, rest, hs, hl⟩ | ⟨hp, rest, ht⟩ | e
  · exact .inl ⟨⟨rest, hs⟩, State.resetEvent_phase _⟩
  · exact .inr (.inl ⟨hp, v, rest, hs, launch_moves hl⟩)
  · rcases tileStep_phase (s := { s with script := rest }) hp ht with hscan | hdone
    · exact .inr (.inr (.inr (hscan.trans hp.symm)))
    · exact .inr (.inr (.inl ⟨hp, hdone, by rw [(tileStep_bitcnt ht).1, BitVec.toNat_ofNat]⟩))
  · exact .inr (.inr (.inr (congrArg State.phase e :)))

/-- Settles O6: in each move of `step_moves` a clause is one of the move's facts, or its phases are not that move's. -/
theorem phaseMachineMoves : Obligations.PhaseMachineMoves := by
  intro s t h
  rcases step_moves h with ⟨hreset, ht⟩ | ⟨hp, v, rest, hs, ht | ⟨ht, hcount, hd⟩⟩ | ⟨hp, ht, hcount⟩ | ht
  case inl => simp [ht, hreset]
  case inr.inl.inl => simp [ht, hp, hs]
  case inr.inl.inr => simp [ht, hcount, hs, hd]
  case inr.inr.inl => simp [ht, hp, hcount]
  case inr.inr.inr => simp +contextual [ht]

end Sys2Proof.Machine
end

section
/-!
PROOFS. The Decoder (spec/44_decoder.md): DECODE's launch (R201: O32), its tile step (R203: O33), the end of the header pass
(R204: O34) and of the walk (R205: O35), its whole run from the launch to the `wait` after it (R206: O36), and the round trip
with ENCODE (R207: O37).
-/

namespace Sys2Proof.Machine

variable {s t u : State} {rest : List HostAction} {q l m n : Nat} {o : List Byte}

/-! ### The launch (R201) -/

theorem exec_decode_of_noChannels (h : s.channels.toNat = 0) : exec .decode s = .next (raise .badOperand s) := by
  rcases decodeLaunch_cases s with ⟨-, e⟩ | ⟨hch, -⟩ | ⟨hch, -⟩ | ⟨hch, -⟩
  · exact congrArg Host.Outcome.next e
  all_goals omega

theorem exec_decode_of_invalid (hch : 1 ≤ s.channels.toNat) (hv : ¬ ValidGroupSize s.groupSize.toNat) :
    exec .decode s = .next (raise .invalidGroupSize s) := by
  rcases decodeLaunch_cases s with ⟨hno, -⟩ | ⟨-, -, e⟩ | ⟨-, hv', -⟩ | ⟨-, hv', -⟩
  · exact absurd hch hno
  · exact congrArg Host.Outcome.next e
  all_goals exact absurd hv' hv

theorem exec_decode_of_tooSmall (hch : 1 ≤ s.channels.toNat) (hq : 1 ≤ q) (hg : s.groupSize.toNat = q * q)
    (hcap : s.capacityAt q < 1024) :
    exec .decode s = .next (raise .insufficientCapacity ((s.setStride q).setTiles (s.capacityAt q))) := by
  obtain ⟨hv, rfl⟩ := root_of_square hq hg
  rcases decodeLaunch_cases s with ⟨hno, -⟩ | ⟨-, hv', -⟩ | ⟨-, -, -, e⟩ | ⟨-, -, hfits, -⟩
  · exact absurd hch hno
  · exact absurd hv hv'
  · exact congrArg Host.Outcome.next e
  · exact absurd hcap (Nat.not_lt.2 hfits)

theorem exec_decode_of_starts (hf : s.DecodeStarts) : exec .decode s = .next (decodeStart
    ((s.setStride (isqrt s.groupSize.toNat)).setTiles (s.capacityAt (isqrt s.groupSize.toNat)))) := by
  rcases decodeLaunch_cases s with ⟨hno, -⟩ | ⟨-, hv, -⟩ | ⟨-, -, hcap, -⟩ | ⟨-, -, -, e⟩
  · exact absurd hf.channelsGe hno
  · exact absurd hf.groupSizeOk hv
  · exact absurd hf.fits (Nat.not_le.2 hcap)
  · exact congrArg Host.Outcome.next e

/-- Settles O32: the three failing checks are `decodeLaunch_cases`, and `decodeStart_launched` reads the started walk. -/
theorem decodeLaunchChecksThenStarts : Obligations.DecodeLaunchChecksThenStarts := by
  refine fun s => ⟨exec_decode_of_noChannels, fun hch hg => exec_decode_of_invalid hch (not_valid_of_no_square hg),
    fun q => exec_decode_of_tooSmall, fun q hch hq hg hfits => ?_⟩
  obtain ⟨hv, rfl⟩ := root_of_square hq hg
  have hf : s.DecodeStarts := ⟨hch, hv, hfits⟩
  obtain ⟨-, -, hstride, htiles⟩ := decodeStart_launched hf
  exact ⟨_, exec_decode_of_starts hf, hstride, htiles, rfl⟩

/-! ### The bit a tile step stores (R203) -/

theorem visited_eq (s : State) :
    s.visited = { s with hdr := s.visited.hdr, bbuf := s.visited.bbuf, bitcnt := s.visited.bitcnt } := by
  obtain ⟨h, b, e⟩ := visited_frame s
  rw [e]

theorem visited_bitcnt (s : State) : s.visited.bitcnt = BitVec.ofNat 32 (s.bitcnt.toNat + 1) := by
  obtain ⟨h, b, e⟩ := visited_frame s
  rw [e]

theorem visited_bitcnt_toNat (h : s.bitcnt.toNat + 1 < 2 ^ 32) : s.visited.bitcnt.toNat = s.bitcnt.toNat + 1 := by
  rw [visited_bitcnt, toNat_ofNat_lt h]

theorem visited_phase (s : State) : s.visited.phase = s.phase := by
  rw [visited_eq]

theorem hdrAt_visited (hb : s.bitcnt.toNat < 1024) {j : Nat} (hj : j < 1024) :
    s.visited.hdrAt j = if j = s.bitcnt.toNat then odd (s.grid s.row.toNat s.col.toNat 0) else s.hdrAt j := by
  rw [State.visited_header hb]
  exact getMsbD_setHdrBit _ _ _ _ hb hj

theorem bbufAt_visited (hb : 1024 ≤ s.bitcnt.toNat) (j : Nat) : s.visited.bbufAt j =
    if j = s.bitcnt.toNat - 1024 then odd (s.grid s.row.toNat s.col.toNat 0) else s.bbufAt j := by
  rw [State.visited_payload hb]
  exact Memory.read_write _ _ _ _ _

/-! ### One tile step (R203) -/

/-- The walk after a DECODE tile step has stored its bit and, if that was bit 1023, read the header (R203, R204). -/
def State.checked (s : State) : State :=
  if s.visited.bitcnt.toNat = 1024 then headerComplete s.visited else s.visited

theorem checked_cursor (s : State) : s.checked.row = s.row ∧ s.checked.col = s.col ∧ s.checked.width = s.width ∧
    s.checked.stride = s.stride := by
  unfold State.checked
  split
  · obtain ⟨_, _, _, _, _, e⟩ := headerComplete_frame s.visited
    rw [e, visited_eq]
    exact ⟨rfl, rfl, rfl, rfl⟩
  · rw [visited_eq]
    exact ⟨rfl, rfl, rfl, rfl⟩

/-- Only `HeaderComplete()` can have ended the walk before the end of the tile step is chosen. -/
theorem decodeTile_of_checked_done (hp : s.phase = .scan) (hd : s.checked.phase = .done) : decodeTile s = s.checked := by
  by_cases hc : s.visited.bitcnt.toNat = 1024
  · have e : s.checked = headerComplete s.visited := if_pos hc
    rw [e] at hd ⊢
    exact decodeTile_headerFails hc hd
  · have e : s.checked = s.visited := if_neg hc
    rw [e, visited_phase, hp] at hd
    exact nomatch hd

theorem decodeTile_of_checked_goesOn (hd : s.checked.phase ≠ .done) : decodeTile s = decodeNext s.checked := by
  by_cases hc : s.visited.bitcnt.toNat = 1024
  · have e : s.checked = headerComplete s.visited := if_pos hc
    rw [e] at hd ⊢
    exact decodeTile_headerOk hc hd
  · have e : s.checked = s.visited := if_neg hc
    rw [e]
    exact decodeTile_plain hc

/-- Settles O33: the two states between are `visited` and `checked`, and `decodeNext` is the end of the step. -/
theorem decodeTileStepCollectsOneBit : Obligations.DecodeTileStepCollectsOneBit := by
  intro s hs hm hi hcount ht
  have hbit := visited_bitcnt_toNat hcount
  refine ⟨s.visited, s.checked, decodeTile s, step_decodeTile hs hm hi, hbit,
    fun hb => ⟨by rw [State.visited_header hb], fun j => hdrAt_visited hb⟩,
    fun hb => ⟨by rw [State.visited_payload hb], bbufAt_visited hb⟩, visited_eq s, fun hc => if_pos (hbit.trans hc),
    fun hc => if_neg (hbit ▸ hc), decodeTile_of_checked_done hs.1,
    fun hd h1 h2 => (decodeTile_of_checked_goesOn hd).trans (decodeNext_last h1 h2), fun hd hmore => ?_⟩
  rw [decodeTile_of_checked_goesOn hd, decodeNext_more hmore]
  obtain ⟨hrow, hcol, hwidth, hstride⟩ := checked_cursor s
  obtain ⟨hright, hwrap⟩ := advance_of_tile ht hrow hcol hwidth hstride
  exact ⟨hright, hwrap, rfl⟩

/-! ### The end of the walk (R205) -/

theorem bbufAt_congr (hb : s.bbuf = t.bbuf) (he : s.epoch = t.epoch) : s.bbufAt = t.bbufAt := by
  funext j
  rw [State.bbufAt, State.bbufAt, hb, he]

section finalise

variable (s : State)

theorem finalise_bbufAt : (finalise s).bbufAt = s.bbufAt := bbufAt_congr rfl rfl

/-- Finalising takes no notice of the host (R205). -/
theorem finalise_script (rest : List HostAction) :
    finalise { s with script := rest } = { finalise s with script := rest } := rfl

theorem finalise_blen_toNat (h : s.len.toNat < 2 ^ 32) : (finalise s).blen.toNat = s.len.toNat := toNat_ofNat_lt h

theorem length_bitsToBytesFix_bitbuf (n : Nat) : (bitsToBytesFix (s.bitbuf n)).length = (n + 7) / 8 := by
  rw [length_bitsToBytesFix, State.length_bitbuf, ceil8]

theorem finalise_plen_toNat (h : s.len.toNat < 2 ^ 32) : (finalise s).plen.toNat = (s.len.toNat + 7) / 8 := by
  have e : (finalise s).plen = BitVec.ofNat 32 (bitsToBytesFix (s.bitbuf s.len.toNat)).length := rfl
  rw [e, length_bitsToBytesFix_bitbuf, toNat_ofNat_lt (by omega)]

theorem finalise_pbufAt (j : Nat) :
    (finalise s).pbufAt j = ((bitsToBytesFix (s.bitbuf s.len.toNat))[j]?).getD (s.pbufAt j) :=
  s.pbufAt_setPayload _ j

/-- The payload bytes of a finished DECODE as the value of the collected bits (R112, R205). -/
theorem finalise_pbufAt_value (j : Nat) : (finalise s).pbufAt j = if j < (s.len.toNat + 7) / 8
    then BitVec.ofNat 8 (streamValue s.len.toNat s.bbufAt / 2 ^ (8 * ((s.len.toNat + 7) / 8 - 1 - j)))
    else s.pbufAt j := by
  rw [finalise_pbufAt, bitsToBytesFix_bitbuf, getElem?_natToBytes]
  exact apply_ite (Option.getD · (s.pbufAt j)) _ _ _

theorem finalise_payload :
    (finalise s).payload ((s.len.toNat + 7) / 8) = bitsToBytesFix (s.bitbuf s.len.toNat) := by
  have hlen := length_bitsToBytesFix_bitbuf s s.len.toNat
  refine List.ext_getElem? fun j => ?_
  rw [State.getElem?_payload, finalise_pbufAt]
  by_cases hj : j < (s.len.toNat + 7) / 8
  · rw [if_pos hj, List.getElem?_eq_getElem (hlen ▸ hj), Option.getD_some]
  · rw [if_neg hj, List.getElem?_eq_none (hlen ▸ Nat.le_of_not_lt hj)]

/-- An empty payload writes no cell (R205). -/
theorem finalise_of_empty (h : s.len.toNat = 0) :
    finalise s = { s with blen := 0#32, plen := 0#32, phase := .done } := by
  have hnone : bitsToBytesFix (s.bitbuf 0) = [] := List.eq_nil_of_length_eq_zero (length_bitsToBytesFix_bitbuf s 0)
  rw [finalise_eq, h, hnone]
  rfl

end finalise

/-- The tile step that collects the last payload bit (R203, R205). -/
theorem decodeTile_of_lastBit (hcount : s.bitcnt.toNat + 1 < 2 ^ 32) (hb : 1024 ≤ s.bitcnt.toNat)
    (hl : s.bitcnt.toNat + 1 = 1024 + s.len.toNat) : decodeTile s = finalise s.visited := by
  have hbit := visited_bitcnt_toNat hcount
  have hlen : s.visited.len = s.len := by rw [visited_eq]
  rw [decodeTile_plain (by omega), decodeNext_last (by omega) (by rw [hbit, hlen, hl])]

/-- The cursor of a walk with the invariant, at a bit count that is known (R179). -/
theorem cursor_of_bitcnt (hinv : s.Inv) (hp : s.phase = .scan) (h : s.bitcnt.toNat = n) :
    (s.row.toNat, s.col.toNat) = s.tilePos n :=
  h ▸ (hinv.walk hp).cursor

/-! ### The end of the header pass (R204) -/

theorem headerComplete_of_none (hp : parseHeader s.hdrBits = none) : headerComplete s = raise .malformedHeader s := by
  rcases headerComplete_cases s with ⟨-, e⟩ | ⟨_, _, _, hp', -⟩ | ⟨_, _, _, hp', -⟩
  · exact e
  all_goals cases hp.symm.trans hp'

theorem headerComplete_of_tooLong (hp : parseHeader s.hdrBits = some (l, o, m)) (hl : s.tiles.toNat < 1024 + l) :
    headerComplete s = raise .insufficientCapacity (s.setParsed l o m) := by
  rcases headerComplete_cases s with ⟨hp', -⟩ | ⟨_, _, _, hp', -, e⟩ | ⟨_, _, _, hp', hl', -⟩
  · cases hp.symm.trans hp'
  · cases hp.symm.trans hp'
    exact e
  · cases hp.symm.trans hp'
    exact absurd hl (Nat.not_lt.2 hl')

theorem headerComplete_of_fits (hp : parseHeader s.hdrBits = some (l, o, m)) (hl : 1024 + l ≤ s.tiles.toNat) :
    headerComplete s = s.setParsed l o m := by
  rcases headerComplete_cases s with ⟨hp', -⟩ | ⟨_, _, _, hp', hl', -⟩ | ⟨_, _, _, hp', -, e⟩
  · cases hp.symm.trans hp'
  · cases hp.symm.trans hp'
    exact absurd hl' (Nat.not_lt.2 hl)
  · cases hp.symm.trans hp'
    exact e

/-- The registers LEN, OPT and OPTLEN hold what the parser answers (R134 to R136, R204). -/
structure State.HoldsParsed (t : State) (l : Nat) (o : List Byte) (m : Nat) : Prop where
  lenEq : t.len.toNat = l
  optEq : ∀ j, j < 64 → t.optByte j = o.getD j 0#8
  optlenEq : t.optlen.toNat = m

theorem State.HoldsParsed.congr (h : t.HoldsParsed l o m) (hlen : u.len = t.len) (hopt : u.opt = t.opt)
    (hoptlen : u.optlen = t.optlen) : u.HoldsParsed l o m := by
  refine ⟨hlen ▸ h.lenEq, fun j hj => ?_, hoptlen ▸ h.optlenEq⟩
  rw [← h.optEq j hj, State.optByte, State.optByte, hopt]

theorem setParsed_holdsParsed {h : List Bit} (hh : h.length = 1024) (hp : parseHeader h = some (l, o, m)) (s : State) :
    (s.setParsed l o m).HoldsParsed l o m := by
  obtain ⟨hl, ho, hm⟩ := parseHeader_eq_some hh hp
  exact ⟨toNat_ofNat_lt (hl.trans (by decide)), fun _ => optByte_getD ho rfl, toNat_ofNat_lt (hm.trans_lt (by decide))⟩

/-- The 1024 bits in HDR once bit 1023 is stored (R203). -/
theorem hdrBits_visited (hb : s.bitcnt.toNat = 1023) : s.visited.hdrBits =
    (List.range 1023).map s.hdrAt ++ [odd (s.grid s.row.toNat s.col.toNat 0)] := by
  have hbit := fun {j} => hdrAt_visited (s := s) (j := j) (by omega)
  have e : s.visited.hdrBits = (List.range (1023 + 1)).map s.visited.hdrAt := rfl
  rw [e, List.range_succ, List.map_append, List.map_singleton, hbit (by omega), if_pos hb.symm]
  have hold : (List.range 1023).map s.visited.hdrAt = (List.range 1023).map s.hdrAt := by
    refine List.map_congr_left fun j hj => ?_
    have hj := List.mem_range.1 hj
    rw [hbit (by omega), if_neg (by omega)]
  rw [hold]

theorem visited_eq_of_headerEnd (hb : s.bitcnt.toNat = 1023) :
    s.visited = { s with hdr := s.visited.hdr, bitcnt := 1024#32 } := by
  rw [State.visited_header (by omega), hb]

theorem decodeTile_of_malformed (hb : s.bitcnt.toNat = 1023) (hp : parseHeader s.visited.hdrBits = none) :
    decodeTile s = raise .malformedHeader s.visited := by
  have e := headerComplete_of_none hp
  rw [decodeTile_headerFails (by rw [visited_eq_of_headerEnd hb]; rfl) (by rw [e]; rfl), e]

theorem decodeTile_of_tooLong (hb : s.bitcnt.toNat = 1023) (hp : parseHeader s.visited.hdrBits = some (l, o, m))
    (hl : s.tiles.toNat < 1024 + l) :
    decodeTile s = raise .insufficientCapacity (s.visited.setParsed l o m) := by
  have e := headerComplete_of_tooLong hp (by rwa [visited_eq])
  rw [decodeTile_headerFails (by rw [visited_eq_of_headerEnd hb]; rfl) (by rw [e]; rfl), e]

theorem decodeTile_of_parsed (hs : s.phase = .scan) (hb : s.bitcnt.toNat = 1023)
    (hp : parseHeader s.visited.hdrBits = some (l, o, m)) (hl : 1024 + l ≤ s.tiles.toNat) :
    decodeTile s = decodeNext (s.visited.setParsed l o m) := by
  have e := headerComplete_of_fits hp (by rwa [visited_eq])
  have hphase : (s.visited.setParsed l o m).phase = .scan := (visited_phase s).trans hs
  rw [decodeTile_headerOk (by rw [visited_eq_of_headerEnd hb]; rfl) (by rw [e, hphase]; decide), e]

/-- A header that declares an empty payload ends the walk at once, any other sends it on (R203 to R205). -/
theorem decodeNext_of_parsed (hb : s.bitcnt.toNat = 1024) (hlen : s.len.toNat = l) :
    (l = 0 → decodeNext s = { s with blen := 0#32, plen := 0#32, phase := .done }) ∧
    (l ≠ 0 → decodeNext s = s.advance) := by
  refine ⟨fun hl => ?_, fun hl => decodeNext_more (by omega)⟩
  rw [decodeNext_last (by omega) (by omega), finalise_of_empty s (by omega)]

/-- The cursor's move of R173, in the registers' own arithmetic. -/
theorem advance_cursor (s : State) :
    (s.col.toNat + 2 * s.stride.toNat ≤ s.width.toNat → s.advance.row = s.row ∧
      s.advance.col = BitVec.ofNat 16 (s.col.toNat + s.stride.toNat)) ∧
    (s.width.toNat < s.col.toNat + 2 * s.stride.toNat →
      s.advance.row = BitVec.ofNat 16 (s.row.toNat + s.stride.toNat) ∧ s.advance.col = 0#16) := by
  rw [State.advance_row, State.advance_col]
  refine ⟨fun h => ?_, fun h => ?_⟩
  · rw [nextTile_right h]
    exact ⟨BitVec.ofNat_toNat .., rfl⟩
  · rw [nextTile_wrap (Nat.not_le.2 h)]
    exact ⟨rfl, rfl⟩

/-- Settles O34: `hdrBits_visited` is the header that the parser reads, and each of its answers has one end of the step. -/
theorem decodeHeaderCompletes : Obligations.DecodeHeaderCompletes := by
  intro s b h hs hm hi hb hbit hh
  have hst := step_decodeTile hs hm hi
  have hv := visited_eq_of_headerEnd hb
  obtain rfl : s.visited.hdrBits = h := by rw [hdrBits_visited hb, hh, hbit]
  refine ⟨fun hp => ?malformed, fun l o m hp hl => ?tooLong, fun l o m hp hl => ?fits,
    fun hinv => cursor_of_bitcnt hinv hs.1 hb⟩
  case malformed =>
    exact ⟨_, hst.trans (congrArg _ (decodeTile_of_malformed hb hp)), rfl, by rw [hv]; rfl⟩
  case tooLong =>
    obtain ⟨hlen, hopt, hoptlen⟩ := setParsed_holdsParsed s.visited.length_hdrBits hp s.visited
    exact ⟨_, hst.trans (congrArg _ (decodeTile_of_tooLong hb hp hl)), rfl, hlen, hopt, hoptlen, by rw [hv]; rfl⟩
  case fits =>
    obtain ⟨hlen, hopt, hoptlen⟩ := setParsed_holdsParsed s.visited.length_hdrBits hp s.visited
    obtain ⟨hempty, hmore⟩ :=
      decodeNext_of_parsed (s := s.visited.setParsed l o m) (by rw [hv]; rfl) hlen
    have e := hst.trans (congrArg _ (decodeTile_of_parsed hs.1 hb hp hl))
    by_cases hl0 : l = 0
    · rw [hempty hl0] at e
      exact ⟨_, e, rfl, hlen, hopt, hoptlen, fun _ => by rw [hv]; rfl, fun hne => absurd hl0 hne⟩
    · rw [hmore hl0] at e
      obtain ⟨hright, hwrap⟩ := advance_cursor (s.visited.setParsed l o m)
      refine ⟨_, e, rfl, hlen, hopt, hoptlen, fun h0 => absurd h0 hl0, fun _ => ?_⟩
      rw [hv] at hright hwrap ⊢
      exact ⟨hright, hwrap, rfl⟩

/-- Settles O35: `finalise_pbufAt_value` reads the payload bytes, and the step with LEN = 0 is O34's. -/
theorem decodeFinalisesPayload : Obligations.DecodeFinalisesPayload := by
  refine ⟨fun s hs hm hi hcount hb hl => ?payload, fun s o m hs hm hi hb htiles hp => ?empty⟩
  case payload =>
    have hlen : s.visited.len = s.len := by rw [visited_eq]
    have hpbuf := finalise_pbufAt_value s.visited
    have hblen := finalise_blen_toNat s.visited
    have hplen := finalise_plen_toNat s.visited
    rw [hlen] at hpbuf hblen hplen
    have e : step s = .next (finalise s.visited) :=
      (step_decodeTile hs hm hi).trans (congrArg _ (decodeTile_of_lastBit hcount hb hl))
    have hbit := visited_bitcnt_toNat hcount
    refine ⟨_, e, hbit, fun j => ?_, hblen (by omega), hplen (by omega), fun j hj => ?_,
      fun j hj => ?_, fun hinv => ?_, ?_⟩
    · rw [finalise_bbufAt, bbufAt_visited hb]
    · rw [hpbuf, if_pos hj, finalise_bbufAt, BitVec.toNat_ofNat]
    · rw [hpbuf, if_neg (Nat.not_lt.2 hj), visited_eq]
      rfl
    · rw [← cursor_of_bitcnt hinv hs.1 (n := 1023 + s.len.toNat) (by omega), visited_eq]
      rfl
    · rw [State.visited_payload hb]
      rfl
  case empty =>
    obtain ⟨-, -, hfits, hcursor⟩ := decodeHeaderCompletes s _ _ hs hm hi hb rfl rfl
    obtain ⟨t, hst, -, -, -, -, hempty, -⟩ := hfits 0 o m hp htiles
    rw [hempty rfl] at hst
    exact ⟨_, hst, rfl, rfl, rfl, rfl, rfl, rfl, rfl, rfl, rfl, hcursor⟩

/-! ### The whole of DECODE (R206) -/

/-- `cmd DECODE`, `wait` where the launch ends at once: the `wait` ends with it. -/
theorem run_decode_of_done (hp : s.phase ≠ .scan) (hs : s.script = runLines .decode ++ rest)
    (hx : exec .decode { s with script := .wait :: rest, cmd := 0x02#8 } = .next t) (hd : t.phase = .done) :
    run 2 s = .next { t with script := rest } := by
  have hwait : t.script = .wait :: rest := by rw [exec_decode_frame hx]
  exact run_two ((step_runLines .decode hp hs).trans hx) (step_wait_done hd hwait)

/-- The walk `w` at stride `q` that `cmd DECODE`, `wait` starts at `s` (R201). -/
structure DecodeWalk (s : State) (rest : List HostAction) (q : Nat) (w : State) : Prop where
  starts : step s = .next w
  launched : w.Launched
  moves : w.SequencerMoves
  strideEq : w.stride.toNat = q
  tilesEq : w.tiles.toNat = s.capacityAt q
  tileBits : ∀ a n, w.tileBits q a n = s.tileBits q a n
  tilePos : ∀ i, w.tilePos i = Machine.tilePos s.width.toNat q i
  frame : w = { s with
    script := .wait :: rest, cmd := 0x02#8, err := 0#8, phase := .scan, mode := .dec, stride := w.stride,
    tiles := w.tiles, bitcnt := 0#32, row := 0#16, col := 0#16 }

theorem exists_decodeWalk (hp : s.phase ≠ .scan) (hs : s.script = runLines .decode ++ rest) (hf : s.DecodeStarts)
    (hq : s.groupSize.toNat = q * q) : ∃ w, DecodeWalk s rest q w := by
  obtain ⟨w, hl, -, hmoves, hstep, hstride, htiles, hbits, hpos, hframe⟩ := decode_launched hp hs hf hq
  exact ⟨w, hstep, hl, hmoves, hstride, htiles, hbits, hpos, hframe⟩

/-- The walk of `w` with all collected that a header `x`, read as `(l, o, m)`, declares: BBUF holds `b`, and the cursor is
at the last tile (R203). -/
def State.collected (w : State) (x : BitVec 1024) (l : Nat) (o : List Byte) (m : Nat) (b : Memory Bit) : State :=
  { w with
    hdr := x, len := BitVec.ofNat 213 l, opt := optOfBytes o, optlen := BitVec.ofNat 7 m, bbuf := b,
    bitcnt := BitVec.ofNat 32 (1024 + l), row := BitVec.ofNat 16 (w.tilePos (1023 + l)).1,
    col := BitVec.ofNat 16 (w.tilePos (1023 + l)).2 }

/-- A DECODE that has read the header `(l, o, m)` and all `l` payload bits, and has only to finalise. The `wait` after it
counts as taken (R203 to R205). -/
structure DecodeCollected (s : State) (rest : List HostAction) (q l : Nat) (o : List Byte) (m : Nat) (v : State) :
    Prop where
  strideEq : v.stride.toNat = q
  tilesEq : v.tiles.toNat = s.capacityAt q
  header : v.hdrBits = s.tileBits q 0 1024
  parsed : v.HoldsParsed l o m
  payload : v.bitbuf l = s.tileBits q 1024 l
  otherBits : ∀ j, l ≤ j → v.bbufAt j = s.bbufAt j
  count : v.bitcnt.toNat = 1024 + l
  cursor : (v.row.toNat, v.col.toNat) = Machine.tilePos s.width.toNat q (1023 + l)
  frame : v = { s with
    script := rest, cmd := 0x02#8, err := 0#8, phase := .scan, mode := .dec, stride := v.stride, tiles := v.tiles,
    hdr := v.hdr, len := v.len, opt := v.opt, optlen := v.optlen, bbuf := v.bbuf, bitcnt := v.bitcnt, row := v.row,
    col := v.col }

namespace DecodeWalk

variable {w : State} (h : DecodeWalk s rest q w)

include h

theorem mode : w.mode = .dec := by
  rw [h.frame]

theorem script : w.script = .wait :: rest := by
  rw [h.frame]

theorem tileBits_stride (a n : Nat) : w.tileBits w.stride.toNat a n = s.tileBits q a n := by
  rw [h.strideEq, h.tileBits]

theorem atTile_cursor {i : Nat} (hi : i < s.capacityAt q) :
    ((w.atTile i).row.toNat, (w.atTile i).col.toNat) = Machine.tilePos s.width.toNat q i := by
  obtain ⟨-, hrow, hcol⟩ := h.launched.bounds (h.tilesEq ▸ hi)
  rw [← h.tilePos i]
  exact congrArg₂ Prod.mk (toNat_ofNat_lt hrow) (toNat_ofNat_lt hcol)

theorem header_lt : 1023 < s.capacityAt q := by
  have := h.launched.headerFits
  rw [h.tilesEq] at this
  omega

/-- The walk's tile steps between the launch and the `wait` after it. -/
theorem run_all (hrun : run n w = .next u) (hd : u.phase = .done) (hscript : u.script = w.script) :
    run (n + 2) s = .next { u with script := rest } :=
  run_sandwich h.starts hrun (step_wait_done hd (hscript.trans h.script))

/-- A walk whose header does not parse (R204). -/
theorem run_malformed (hp : parseHeader (s.tileBits q 0 1024) = none) :
    ∃ x, (w.withHdr x).hdrBits = s.tileBits q 0 1024 ∧ run 1026 s =
      .next { (w.withHdr x).atTile 1023 with bitcnt := 1024#32, err := 3#8, phase := .done, script := rest } := by
  rw [← h.tileBits_stride] at hp ⊢
  obtain ⟨x, hx, hrun⟩ := h.launched.header_malformed h.mode h.moves hp
  exact ⟨x, hx, h.run_all hrun rfl rfl⟩

/-- A walk whose header declares more than the grid holds (R204). -/
theorem run_tooLong (hp : parseHeader (s.tileBits q 0 1024) = some (l, o, m)) (hl : s.capacityAt q < 1024 + l) :
    ∃ x, (w.withHdr x).hdrBits = s.tileBits q 0 1024 ∧ run 1026 s =
      .next { (w.headed x l o m).atTile 1023 with bitcnt := 1024#32, err := 1#8, phase := .done, script := rest } := by
  rw [← h.tileBits_stride] at hp ⊢
  obtain ⟨x, hx, hrun⟩ := h.launched.header_tooLong h.mode h.moves hp (by rwa [h.tilesEq])
  exact ⟨x, hx, h.run_all hrun rfl rfl⟩

/-- A walk whose payload fits, up to its end: HDR holds `x` and BBUF holds `b` (R203). -/
theorem run_fits (hp : parseHeader (s.tileBits q 0 1024) = some (l, o, m)) (hl : 1024 + l ≤ s.capacityAt q) :
    ∃ x b, (w.withHdr x).hdrBits = s.tileBits q 0 1024 ∧
      (∀ i, i < l → State.bbufAt { w.headed x l o m with bbuf := b } i = w.tileBit q (1024 + i)) ∧
      (∀ i, l ≤ i → State.bbufAt { w.headed x l o m with bbuf := b } i = w.bbufAt i) ∧
      run (1024 + l) w = .next (finalise (w.collected x l o m b)) := by
  rw [← h.tileBits_stride] at hp ⊢
  by_cases hl0 : l = 0
  · subst hl0
    obtain ⟨x, hx, hrun⟩ := h.launched.header_empty h.mode h.moves hp
    exact ⟨x, w.bbuf, hx, fun i hi => absurd hi (Nat.not_lt_zero i), fun _ _ => rfl, hrun⟩
  · rw [← h.tilesEq] at hl
    obtain ⟨x, hx, hheader⟩ := h.launched.header_ok h.mode h.moves hp hl hl0
    have hlen : (w.headed x l o m).len.toNat = l :=
      (setParsed_holdsParsed (State.length_tileBits 0 1024) hp _).lenEq
    obtain ⟨b, hbits, hothers, hpayload⟩ := (h.launched.headed x l o m).payload_run_all h.mode h.moves
      (by rwa [hlen]) (by rwa [hlen])
    rw [hlen] at hbits hothers hpayload
    refine ⟨x, b, hx, fun i hi => (hbits i hi).trans ?_, hothers, (run_add_of_run hheader).trans hpayload⟩
    rw [← h.strideEq]
    rfl

/-- A walk whose payload fits ends by finalising what it has collected (R205). -/
theorem run_collected (hp : parseHeader (s.tileBits q 0 1024) = some (l, o, m)) (hl : 1024 + l ≤ s.capacityAt q) :
    ∃ v, DecodeCollected s rest q l o m v ∧ run (1024 + l + 2) s = .next (finalise v) := by
  obtain ⟨x, b, hx, hbits, hothers, hrun⟩ := h.run_fits hp hl
  have hend := h.run_all hrun rfl rfl
  rw [← finalise_script] at hend
  refine ⟨_, ?_, hend⟩
  have hcap := s.capacityAt_lt q
  have hparsed := setParsed_holdsParsed (State.length_tileBits 0 1024) hp (w.withHdr x)
  have hcells : State.bbufAt { w.collected x l o m b with script := rest } =
      State.bbufAt { w.headed x l o m with bbuf := b } := bbufAt_congr rfl rfl
  have hold : w.bbufAt = s.bbufAt := bbufAt_congr (by rw [h.frame]) (by rw [h.frame])
  have hcount : (BitVec.ofNat 32 (1024 + l)).toNat = 1024 + l := toNat_ofNat_lt (by omega)
  refine ⟨h.strideEq, h.tilesEq, (State.hdrBits_congr (t := w.withHdr x) rfl).trans hx, hparsed.congr rfl rfl rfl,
    ?payload, fun j hj => ?otherBits, hcount, h.atTile_cursor (by omega), ?frame⟩
  case payload =>
    rw [← h.tileBits, bitbuf_eq, hcells]
    exact List.map_congr_left fun i hi => hbits i (List.mem_range.1 hi)
  case otherBits => rw [← hold, ← hothers j hj, hcells]
  case frame =>
    rw [h.frame]
    rfl

end DecodeWalk

/-- Settles O36: the first three rows are the launch's (`exec_decode_of_…`), the others are how a started walk ends
(`DecodeWalk.run_malformed`, `run_tooLong`, `run_collected`). -/
theorem decodeRecoversStreamFromGrid : Obligations.DecodeRecoversStreamFromGrid := by
  refine fun s rest hp hs => ⟨fun hch => ?noChannels, fun hch hg => ?invalid, fun q hch hq hg hcap => ?tooSmall,
    fun q hf hg hpar => ?malformed, fun q l o m hf hg hpar hl => ?tooLong, fun q l o m hf hg hpar hl => ?fits⟩
  case noChannels =>
    exact run_decode_of_done hp hs
      (exec_decode_of_noChannels (s := { s with script := .wait :: rest, cmd := 0x02#8 }) hch) rfl
  case invalid =>
    exact run_decode_of_done hp hs (exec_decode_of_invalid (s := { s with script := .wait :: rest, cmd := 0x02#8 }) hch
      (not_valid_of_no_square hg)) rfl
  case tooSmall =>
    exact run_decode_of_done hp hs
      (exec_decode_of_tooSmall (s := { s with script := .wait :: rest, cmd := 0x02#8 }) hch hq hg hcap) rfl
  case malformed =>
    obtain ⟨w, hw⟩ := exists_decodeWalk hp hs hf hg
    obtain ⟨x, hx, hrun⟩ := hw.run_malformed hpar
    exact ⟨_, hrun, hw.strideEq, hw.tilesEq, (State.hdrBits_congr (t := w.withHdr x) rfl).trans hx,
      hw.atTile_cursor hw.header_lt, by rw [hw.frame]; rfl⟩
  case tooLong =>
    obtain ⟨w, hw⟩ := exists_decodeWalk hp hs hf hg
    obtain ⟨x, hx, hrun⟩ := hw.run_tooLong hpar hl
    obtain ⟨hlen, hopt, hoptlen⟩ := setParsed_holdsParsed (State.length_tileBits 0 1024) hpar (w.withHdr x)
    exact ⟨_, hrun, hw.strideEq, hw.tilesEq, (State.hdrBits_congr (t := w.withHdr x) rfl).trans hx, hlen, hopt, hoptlen,
      hw.atTile_cursor hw.header_lt, by rw [hw.frame]; rfl⟩
  case fits =>
    obtain ⟨w, hw⟩ := exists_decodeWalk hp hs hf hg
    obtain ⟨v, hv, hrun⟩ := hw.run_collected hpar hl
    obtain ⟨hlen, hopt, hoptlen⟩ := hv.parsed
    have hsmall : v.len.toNat < 2 ^ 32 := by
      have := s.capacityAt_lt q
      omega
    have hpbuf := finalise_pbufAt_value v
    have hblen := finalise_blen_toNat v hsmall
    have hplen := finalise_plen_toNat v hsmall
    have hpayload := finalise_payload v
    rw [hlen] at hpbuf hblen hplen hpayload
    rw [hv.payload] at hpayload
    refine ⟨finalise v, hrun, hv.strideEq, hv.tilesEq, (State.hdrBits_congr (t := v) rfl).trans hv.header, hlen, hopt,
      hoptlen, hblen, ?bits, hplen, hpayload, fun j hj => ?otherBytes, fun j hj => ?otherBits, hv.count, hv.cursor, ?frame⟩
    case bits => rw [bitbuf_eq, finalise_bbufAt, ← bitbuf_eq, hv.payload]
    case otherBytes =>
      rw [hpbuf, if_neg (Nat.not_lt.2 hj), hv.frame]
      rfl
    case otherBits => rw [finalise_bbufAt, hv.otherBits j hj]
    case frame =>
      rw [finalise_eq, hv.frame]

/-! ### The round trip (R207) -/

/-- The options string, from OPT byte by byte (R36). -/
theorem options_of_holdsParsed (ho : o.length = 64) (hm : m ≤ 64) (h : t.HoldsParsed l o m) : t.options = o.take m := by
  refine List.ext_getElem? fun j => ?_
  rw [State.options, h.optlenEq]
  by_cases hj : j < m
  · have hj' : j < o.length := by omega
    rw [List.getElem?_take_of_lt hj, List.getElem?_map, List.getElem?_range hj, Option.map_some, h.optEq j (by omega),
      List.getElem?_eq_getElem hj', List.getD_eq_getElem o 0#8 hj']
  · rw [List.getElem?_eq_none (by simp; omega), List.getElem?_eq_none (by simp; omega)]

/-- The anchor sample of a tile is a sample of the tile (R152). -/
theorem inTile_anchor (hq : 1 ≤ q) (hch : 1 ≤ s.channels.toNat) (i : Nat) : s.InTile q i
    (s.addr (Machine.tilePos s.width.toNat q i).1 (Machine.tilePos s.width.toNat q i).2 0) :=
  mem_tileAddrs.2 ⟨0, 0, 0, hq, hq, hch, rfl⟩

/-- A grid that shows the bits `bs` in its `n` tiles from tile `a` on. -/
theorem tileBits_eq {a : Nat} {bs : List Bit} (hlen : bs.length = n)
    (h : ∀ i, i < n → u.tileBit q (a + i) = bs.getD i false) : u.tileBits q a n = bs := by
  refine List.ext_getElem (by rw [State.length_tileBits, hlen]) fun i hi hi' => ?_
  simp only [State.tileBits, List.getElem_map, List.getElem_range]
  rw [h i (hlen ▸ hi'), List.getD_eq_getElem bs false hi']

/-- The full stream is the header, then the payload's bits (R175). -/
theorem fullStream_eq {h : List Bit} (hb : buildHeader (8 * s.plen.toNat) = some h) :
    s.fullStream = h ++ bytesToBits (s.payload s.plen.toNat) := by
  rw [State.fullStream, hb, Option.getD_some]

/-- A grid whose anchors show the full stream of `s` shows the header, then the payload (R200). -/
theorem tileBits_of_fullStream {h : List Bit} (hb : buildHeader (8 * s.plen.toNat) = some h)
    (hstream : ∀ i, i < 1024 + 8 * s.plen.toNat → u.tileBit q i = s.fullStream.getD i false) :
    u.tileBits q 0 1024 = h ∧ u.tileBits q 1024 (8 * s.plen.toNat) = bytesToBits (s.payload s.plen.toNat) := by
  have hheader := length_buildHeader hb
  have hpayload : (bytesToBits (s.payload s.plen.toNat)).length = 8 * s.plen.toNat := by
    rw [length_bytesToBits, State.length_payload]
  rw [fullStream_eq hb] at hstream
  refine ⟨tileBits_eq hheader fun i hi => ?_, tileBits_eq hpayload fun i hi => ?_⟩
  · rw [hstream _ (by omega), Nat.zero_add, List.getD_append _ _ _ _ (by omega)]
  · rw [hstream _ (by omega), List.getD_append_right _ _ _ _ (by omega), hheader, Nat.add_sub_cancel_left]

/-- DECODE of a grid whose anchors show the full stream of `s` gives back the payload of `s` (R139, R206). -/
theorem run_decode_of_fullStream (hp : u.phase ≠ .scan) (hs : u.script = runLines .decode ++ rest)
    (hf : u.DecodeStarts) (hq : u.groupSize.toNat = q * q) (hcap : 1024 + 8 * s.plen.toNat ≤ u.capacityAt q)
    (hstream : ∀ i, i < 1024 + 8 * s.plen.toNat → u.tileBit q i = s.fullStream.getD i false) :
    ∃ v, run (1024 + 8 * s.plen.toNat + 2) u = .next v ∧ v.phase = .done ∧ v.err = 0#8 ∧ v.plen = s.plen ∧
      v.payload v.plen.toNat = s.payload s.plen.toNat ∧ v.len.toNat = 8 * s.plen.toNat ∧
      v.options = Config.optPlaceholder := by
  have hb := buildHeader_of_lt (eight_plen_lt s)
  obtain ⟨hheader, hpayload⟩ := tileBits_of_fullStream hb hstream
  have hparse := parseHeader_buildHeader (eight_plen_lt s) hb
  rw [← hheader] at hparse
  obtain ⟨-, -, -, -, -, hfits⟩ := decodeRecoversStreamFromGrid u rest hp hs
  obtain ⟨v, hrun, -, -, -, hlen, hopt, hoptlen, -, -, hplen, hbytes, -, -, -, -, hframe⟩ :=
    hfits q _ _ _ hf hq hparse hcap
  have hbytesLen : (8 * s.plen.toNat + 7) / 8 = s.plen.toNat := ceil8_mul s.plen.toNat
  rw [hbytesLen] at hplen hbytes
  rw [hpayload, bitsToBytesFix_bytesToBits, ← hplen] at hbytes
  refine ⟨v, hrun, by rw [hframe], by rw [hframe], BitVec.eq_of_toNat_eq hplen, hbytes.trans (by rw [hplen]), hlen, ?_⟩
  rw [options_of_holdsParsed (length_optField _) length_optPlaceholder_le ⟨hlen, hopt, hoptlen⟩,
    take_optField_optPlaceholder]

/-- Settles O37: ENCODE leaves each stream bit in its tile's anchor (`HoldsStream`), and DECODE reads the anchors
(`run_decode_of_fullStream`). -/
theorem decodeRecoversEncodedPayload : Obligations.DecodeRecoversEncodedPayload := by
  intro s rest q hp hs hf hq
  obtain ⟨t, hrun, hinside, houtside, -, -, -, -, -, -, -, -, -, hframe⟩ :=
    ((encodeHidesStreamInGrid s rest hp hs).2 q hf hq).2
  have hgrid : HoldsStream s q (1024 + 8 * s.plen.toNat) t := ⟨hinside, houtside⟩
  obtain ⟨ht1, ht2, ht3, ht4⟩ : t.height = s.height ∧ t.width = s.width ∧ t.channels = s.channels ∧
      t.groupSize = s.groupSize := by
    rw [hframe]
    exact ⟨rfl, rfl, rfl, rfl⟩
  obtain ⟨hroot, hq1⟩ := root_of_groupSize hf.groupSizeOk hq
  refine ⟨t, hrun, by rw [hframe], by rw [hframe], fun u rest' hp' hs' hheight hwidth hchannels hgroup hanchor => ?_⟩
  rw [ht1] at hheight
  rw [ht2] at hwidth
  rw [ht3] at hchannels
  rw [ht4] at hgroup
  have hcap : u.capacityAt q = s.capacityAt q := by rw [State.capacityAt, State.capacityAt, hheight, hwidth]
  have hfits := hf.fits
  rw [hroot, ← hcap] at hfits
  have hstarts : u.DecodeStarts := by
    refine ⟨hchannels ▸ hf.channelsGe, hgroup ▸ hf.groupSizeOk, ?_⟩
    rw [hgroup, hroot]
    omega
  refine run_decode_of_fullStream hp' hs' hstarts (hgroup ▸ hq) hfits fun i hi => ?_
  rw [← hgrid.odd_gmemAt hi (inTile_anchor hq1 hf.channelsGe i)]
  refine (congrArg odd (hanchor i hi)).trans ?_
  rw [State.grid, State.addr, State.addr, hwidth, ht2, ht3]

end Sys2Proof.Machine
end

section
/-!
PROOFS. The system commands (spec/45_system_commands.md): the launch on a write to CMD (R220: O5), and NOP (R221: O11).
-/

namespace Sys2Proof.Machine

/-! ### A launch does not look at PHASE (R220) -/

/-- The group write of PUT_BIT does not look at PHASE (R153), and the end of its launch overwrites it. -/
theorem succeed_setParityAt_phase (b : Bit) (as : List Nat) (s : State) (p : Phase) :
    succeed (setParityAt b as { s with phase := p }) = succeed (setParityAt b as s) := by
  induction as generalizing s with
  | nil => rfl
  | cons a as ih => exact ih (s.setGmem a (setParity (s.gmemAt a) b))

theorem putBit_phase (f : Bit) (s : State) (p : Phase) : putBit f { s with phase := p } = putBit f s := by
  have hgroup (q : Nat) :
      succeed (encodeBitIntoGroup s.row.toNat s.col.toNat q f (State.setStride { s with phase := p } q)) =
        succeed (encodeBitIntoGroup s.row.toNat s.col.toNat q f (s.setStride q)) :=
    succeed_setParityAt_phase f (tileAddrs s.width.toNat s.channels.toNat s.row.toNat s.col.toNat q) (s.setStride q) p
  simp only [putBit]
  rw [hgroup]
  rfl

/-- No launch looks at PHASE, and every one overwrites it: only PUT_BIT's recursion over its tile needs a proof. -/
theorem exec_of_phase (i : Instr) (s : State) (p : Phase) : exec i { s with phase := p } = exec i s := by
  cases i
  case putBit f => exact congrArg Host.Outcome.next (putBit_phase f s p)
  all_goals rfl

/-! ### A write to CMD at rest (R220) -/

/-- The launch of a legal word (R220). -/
theorem launch_of_ok {w : Word} {i : Instr} (h : decode w = .ok i) (s : State) :
    launch w s = exec i { s with cmd := w } := by
  rw [launch, h]

/-- Settles O5: the step is a launch (`step_launch`), which ends as `exec_ends` says and does not look at PHASE. -/
theorem cmdWriteLaunchesDecodedCommand : Obligations.CmdWriteLaunchesDecodedCommand := by
  refine ⟨fun s v rest i hp hs hd => ?_, fun s v rest e hp hs hd => ?_, fun i s t h => ?_, fun i s => ?_⟩
  · rw [step_launch hp hs, launch_of_ok hd]
  · exact (step_launch hp hs).trans (launch_of_error hd _)
  · rcases exec_ends h with ⟨hdone, -⟩ | ⟨hscan, herr, hi⟩
    · exact .inl hdone
    · exact .inr ⟨hscan, herr, hi.imp And.left And.left⟩
  · exact (exec_of_phase i s .idle).trans (exec_of_phase i s .done).symm

/-! ### NOP (R221) -/

/-- Settles O11: NOP is `succeed` and nothing else. -/
theorem nopClearsErrAndEnds : Obligations.NopClearsErrAndEnds := fun _ => rfl

end Sys2Proof.Machine
end

section
/-!
PROOFS. Errors (spec/60_exceptions.md): which command can end with which code (R230, R231: O8), and what taking an error
writes and leaves (R232: O9).
-/

namespace Sys2Proof.Machine

variable {s t : State} {i : Instr} {e : ErrKind}

/-! ### The launches (R231) -/

/-- The error kinds a launch can end with: the table of R231, but for ENCODE's PayloadTooLarge, which R176 says is
unreachable. -/
def errorsOf : Instr → List ErrKind
  | .nop => []
  | .encode => [.insufficientCapacity, .invalidGroupSize, .badOperand]
  | .decode => [.insufficientCapacity, .invalidGroupSize, .badOperand]
  | .hdrBuild => [.payloadTooLarge]
  | .hdrParse => [.malformedHeader]
  | .putBit _ => [.invalidGroupSize, .badOperand]
  | .getBit => [.badOperand]
  | .bytes2bits => [.badOperand]
  | .bits2bytes true => []
  | .bits2bytes false => [.malformedBitstring]

/-- ERR of `t` holds 0 or the code of an error that a launch of `i` can end with. -/
def ErrTabled (i : Instr) (t : State) : Prop := t.err = 0#8 ∨ ∃ e ∈ errorsOf i, t.err = e.code

theorem ErrTabled.of_raise (he : e ∈ errorsOf i := by simp [errorsOf]) : ErrTabled i (raise e s) := .inr ⟨e, he, rfl⟩

theorem ErrTabled.of_succeed : ErrTabled i (succeed s) := .inl rfl

/-- A launch ends without an error or with one of its command's. -/
theorem exec_errTabled (h : exec i s = .next t) : ErrTabled i t := by
  cases i <;> cases h
  case nop => exact .of_succeed
  case encode =>
    rcases encodeLaunch_cases s with ⟨-, h⟩ | ⟨-, -, h⟩ | ⟨-, -, -, h⟩ | ⟨-, -, -, _, -, h⟩ <;> rw [h]
    exacts [.of_raise, .of_raise, .of_raise, .inl rfl]
  case decode =>
    rcases decodeLaunch_cases s with ⟨-, h⟩ | ⟨-, -, h⟩ | ⟨-, -, -, h⟩ | ⟨-, -, -, h⟩ <;> rw [h]
    exacts [.of_raise, .of_raise, .of_raise, .inl rfl]
  case hdrBuild =>
    rcases hdrBuild_cases s with ⟨-, h⟩ | ⟨-, _, -, h⟩ <;> rw [h]
    exacts [.of_raise, .of_succeed]
  case hdrParse =>
    rcases hdrParse_cases s with ⟨-, h⟩ | ⟨_, _, _, -, h⟩ <;> rw [h]
    exacts [.of_raise, .of_succeed]
  case putBit f =>
    rcases putBit_cases s f with ⟨-, h⟩ | ⟨-, -, h⟩ | ⟨-, -, -, h⟩ | ⟨-, -, -, h⟩ <;> rw [h]
    exacts [.of_raise, .of_raise, .of_raise, .of_succeed]
  case getBit =>
    rcases getBit_cases s with ⟨-, h⟩ | ⟨-, h⟩ <;> rw [h]
    exacts [.of_raise, .of_succeed]
  case bytes2bits =>
    rcases bytes2bits_cases s with ⟨-, h⟩ | ⟨-, h⟩ <;> rw [h]
    exacts [.of_raise, .of_succeed]
  case bits2bytes f =>
    cases f
    case true => exact .of_succeed
    case false =>
      rcases bits2bytes_min_cases s with ⟨-, h⟩ | ⟨-, h⟩ <;> rw [h]
      exacts [.of_raise, .of_succeed]

/-- A state in which every command that has the error `e` ends with it, made from the reset state: a grid without pixels for
InsufficientCapacity, the empty bitstring, a header of zero bytes, a length of more than 64 digits, a group size of 0, and
for BadOperand no channels and more payload than BBUF holds. IllegalCommand is no command's error. -/
def failing : ErrKind → State
  | .insufficientCapacity => { State.reset with channels := 1#8 }
  | .malformedBitstring => State.reset
  | .malformedHeader => { State.reset with hdr := BitVec.replicate 128 0x00#8 }
  | .payloadTooLarge => { State.reset with len := BitVec.allOnes 213 }
  | .invalidGroupSize => { State.reset with channels := 1#8, groupSize := 0#32 }
  | .badOperand => { State.reset with plen := BitVec.allOnes 32 }
  | .illegalCommand => State.reset

/-- A header with a byte below the digits in its length field does not parse (R134). -/
theorem parseHeader_hdrBits_eq_none {j : Nat} (hj : j < 64) (h : (s.hdrByte j).toNat < 0x30) :
    parseHeader s.hdrBits = none := by
  refine s.parseHeader_hdrBits.trans (if_neg fun hd => ?_)
  have := ((lengthField_all_isDigit_iff s).1 hd j hj).1
  omega

/-- In a header of 128 equal bytes each byte is that one (R130). -/
theorem hdrByte_of_replicate {b : Byte} (h : s.hdr = b.replicate 128) {j : Nat} (hj : j < 128) : s.hdrByte j = b := by
  refine BitVec.eq_of_getLsbD_eq fun k hk => ?_
  have hbit : (1016 - 8 * j + k) % 8 = k := by omega
  have hin : 1016 - 8 * j + k < 1024 := by omega
  rw [State.hdrByte, h, BitVec.getLsbD_extractLsb', BitVec.getLsbD_replicate, hbit]
  simp [hk, hin]

/-- Each of a command's errors is the end of some launch of it, one from the error's `failing` state. -/
theorem exec_failing (he : e ∈ errorsOf i) : ∃ s, exec i (failing e) = .next (raise e s) := by
  cases i <;> simp only [errorsOf, List.mem_cons, List.not_mem_nil, or_false] at he
  case encode =>
    rcases he with rfl | rfl | rfl
    · exact ⟨_, exec_encode_of_tooSmall (q := 1) (by decide) (by decide) (by decide) (by decide)⟩
    · exact ⟨_, exec_encode_of_invalid (by decide) (by decide)⟩
    · exact ⟨_, exec_encode_of_noChannels rfl⟩
  case decode =>
    rcases he with rfl | rfl | rfl
    · exact ⟨_, exec_decode_of_tooSmall (q := 1) (by decide) (by decide) (by decide) (by decide)⟩
    · exact ⟨_, exec_decode_of_invalid (by decide) (by decide)⟩
    · exact ⟨_, exec_decode_of_noChannels rfl⟩
  case hdrBuild =>
    subst he
    exact ⟨_, exec_hdrBuild_of_ge (by decide)⟩
  case hdrParse =>
    subst he
    exact ⟨_, exec_hdrParse_of_none (parseHeader_hdrBits_eq_none (j := 0) (by decide)
      (by rw [hdrByte_of_replicate rfl (by decide)]; decide))⟩
  case putBit f =>
    rcases he with rfl | rfl
    · exact ⟨_, exec_putBit_of_invalid (by decide) (by decide)⟩
    · exact ⟨_, exec_putBit_of_noChannels rfl⟩
  case getBit =>
    subst he
    exact ⟨_, exec_getBit_of_outside (by decide)⟩
  case bytes2bits =>
    subst he
    exact ⟨_, congrArg Host.Outcome.next (if_pos (by decide))⟩
  case bits2bytes f =>
    cases f <;> simp only [List.mem_cons, List.not_mem_nil, or_false] at he
    subst he
    exact ⟨_, exec_bits2bytes_min_of_empty rfl⟩

/-! ### The codes (R230) -/

theorem exec_err_mem (h : exec i s = .next t) : t.err.toNat ∈ 0 :: (errorsOf i).map fun e => e.code.toNat := by
  rcases exec_errTabled h with h0 | ⟨e, he, h0⟩ <;> rw [h0]
  · exact List.mem_cons_self
  · exact List.mem_cons_of_mem _ (List.mem_map_of_mem he)

theorem exists_exec_err {n : Nat} (hn : n ∈ (errorsOf i).map fun e => e.code.toNat) :
    ∃ s t, exec i s = .next t ∧ t.err.toNat = n := by
  obtain ⟨e, he, rfl⟩ := List.mem_map.1 hn
  obtain ⟨s, h⟩ := exec_failing he
  exact ⟨failing e, raise e s, h, rfl⟩

/-! ### The tile steps (R203, R204) -/

theorem decodeNext_err (s : State) : (decodeNext s).err = s.err := by
  obtain ⟨_, _, _, _, _, _, h⟩ := decodeNext_frame s
  rw [h]

/-- The DECODE tile step that completes the header (R204). -/
theorem decodeTile_err_of_headerEnd (hp : s.phase = .scan) (hb : s.bitcnt.toNat = 1023) :
    (decodeTile s).err = s.err ∨ (decodeTile s).err = 1#8 ∨ (decodeTile s).err = 3#8 := by
  cases h : parseHeader s.visited.hdrBits with
  | none =>
    rw [decodeTile_of_malformed hb h]
    exact .inr (.inr rfl)
  | some p =>
    obtain ⟨l, o, m⟩ := p
    by_cases hl : s.tiles.toNat < 1024 + l
    · rw [decodeTile_of_tooLong hb h hl]
      exact .inr (.inl rfl)
    · rw [decodeTile_of_parsed hp hb h (Nat.le_of_not_lt hl), decodeNext_err, visited_eq_of_headerEnd hb]
      exact .inl rfl

theorem tileStep_err (hp : s.phase = .scan) (h : tileStep s = .next t) :
    t.err = s.err ∨ (s.mode = .dec ∧ s.bitcnt.toNat = 1023 ∧ (t.err = 1#8 ∨ t.err = 3#8)) := by
  refine Classical.or_iff_not_imp_left.2 fun hne => ?_
  obtain ⟨hm, hb⟩ := tileStep_changes_err h hne
  obtain ⟨-, rfl⟩ := (tileStep_next h).resolve_left fun he => nomatch hm.symm.trans he.1
  exact ⟨hm, hb, (decodeTile_err_of_headerEnd hp hb).resolve_left hne⟩

/-- A DECODE walk before tile 1023, the last of its 32 by 32 grid, with the byte `b` all over HDR. -/
def headerEnd (b : Byte) : State :=
  { State.reset with
    phase := .scan, mode := .dec, height := 32#16, width := 32#16, channels := 1#8, tiles := 1024#32,
    row := 31#16, col := 31#16, bitcnt := 1023#32, hdr := b.replicate 128 }

theorem step_headerEnd (b : Byte) : step (headerEnd b) = .next (decodeTile (headerEnd b)) :=
  step_decodeTile ⟨rfl, .inl rfl⟩ rfl (by decide : 31 < 32 ∧ 31 < 32 ∧ 0 < 1)

/-- Storing the last header bit leaves all header bytes but the last (R130, R203). -/
theorem hdrByte_visited (hb : s.bitcnt.toNat = 1023) {j : Nat} (hj : j < 127) : s.visited.hdrByte j = s.hdrByte j := by
  refine BitVec.eq_of_getLsbD_eq fun k hk => ?_
  have hbit := hdrAt_visited (s := s) (j := 1023 - (1016 - 8 * j + k)) (by omega) (by omega)
  have hpos : 1024 - 1 - (1023 - (1016 - 8 * j + k)) = 1016 - 8 * j + k := by omega
  have hin : 1023 - (1016 - 8 * j + k) < 1024 := by omega
  rw [if_neg (by omega), State.hdrAt, State.hdrAt, BitVec.getMsbD_eq_getLsbD, BitVec.getMsbD_eq_getLsbD, hpos] at hbit
  simpa [State.hdrByte, BitVec.getLsbD_extractLsb', hk, hin] using hbit

theorem headerEnd_hdrByte (b : Byte) {j : Nat} (hj : j < 127) : (headerEnd b).visited.hdrByte j = b :=
  (hdrByte_visited rfl hj).trans (hdrByte_of_replicate rfl (by omega))

/-- A field with a digit other than 0 in it spells a number other than 0 (R134). -/
theorem decimalAt_pos {a n j : Nat} (hj : j < n) (h : 0x30 < (s.hdrByte (a + j)).toNat) : 0 < s.decimalAt a n :=
  (Nat.mul_pos (Nat.sub_pos_of_lt h) (Nat.pow_pos (by decide))).trans_le
    (List.le_sum_of_mem (List.mem_map.2 ⟨j, List.mem_range.2 hj, rfl⟩))

theorem err_decodeTile_headerEnd_of_low {b : Byte} (h : b.toNat < 0x30) : (decodeTile (headerEnd b)).err = 3#8 := by
  have hbyte : ((headerEnd b).visited.hdrByte 0).toNat < 0x30 := by rwa [headerEnd_hdrByte b (by decide)]
  rw [decodeTile_of_malformed rfl (parseHeader_hdrBits_eq_none (by decide) hbyte)]
  rfl

/-- 64 times the same digit, but for 0, declares more than the 0 payload bits that 1024 tiles leave room for. -/
theorem err_decodeTile_headerEnd_of_digit {b : Byte} (h1 : 0x30 < b.toNat) (h2 : b.toNat ≤ 0x39) :
    (decodeTile (headerEnd b)).err = 1#8 := by
  have hdigits := (lengthField_all_isDigit_iff (headerEnd b).visited).2 fun j hj => by
    rw [headerEnd_hdrByte b (by omega)]
    exact ⟨h1.le, h2⟩
  have hlen : 0 < (headerEnd b).visited.decimalAt 0 64 :=
    decimalAt_pos (j := 0) (by decide) (by rwa [headerEnd_hdrByte b (by decide)])
  rw [decodeTile_of_tooLong rfl ((State.parseHeader_hdrBits _).trans (if_pos hdigits)) (Nat.lt_add_of_pos_right hlen)]
  rfl

/-- Settles O8: the launches' codes are `errorsOf`, each of which `failing` reaches; among the tile steps only the header's
end writes ERR, and `headerEnd` reaches both of its errors. -/
theorem errorCodesPerCommand : Obligations.ErrorCodesPerCommand := by
  refine ⟨fun i s t h => ?codes, fun s t hs h => tileStep_err hs.1 (step_tile hs ▸ h), fun _ => exists_exec_err (i := .encode),
    fun _ => exists_exec_err (i := .decode), fun e he => ?tileStep, exists_exec_err (i := .hdrBuild) (by decide),
    exists_exec_err (i := .hdrParse) (by decide), fun f _ => exists_exec_err (i := .putBit f),
    exists_exec_err (i := .getBit) (by decide), exists_exec_err (i := .bytes2bits) (by decide),
    exists_exec_err (i := .bits2bytes false) (by decide), fun w e s h => ⟨_, launch_of_error h s, rfl⟩⟩
  case codes =>
    have hmem := exec_err_mem h
    cases i
    case bits2bytes f => cases f <;> exact hmem
    all_goals exact hmem
  case tileStep =>
    simp only [List.mem_cons, List.not_mem_nil, or_false] at he
    rcases he with rfl | rfl
    · exact ⟨_, _, ⟨rfl, .inl rfl⟩, rfl, rfl, step_headerEnd 0x31#8, congrArg BitVec.toNat
        (err_decodeTile_headerEnd_of_digit (by decide) (by decide))⟩
    · exact ⟨_, _, ⟨rfl, .inl rfl⟩, rfl, rfl, step_headerEnd 0x00#8, congrArg BitVec.toNat
        (err_decodeTile_headerEnd_of_low (by decide))⟩

/-! ### Taking an error (R232) -/

/-- A PUT_BIT that fails does so before its tile is written (R157). -/
theorem exec_putBit_gmem_of_err {f : Bit} (h : exec (.putBit f) s = .next t) (hne : t.err ≠ 0#8) : t.gmem = s.gmem := by
  cases h
  rcases putBit_cases s f with ⟨-, h⟩ | ⟨-, -, h⟩ | ⟨-, -, -, h⟩ | ⟨-, -, -, h⟩ <;> rw [h] at hne ⊢
  case inr.inr.inr => exact absurd rfl hne
  all_goals rfl

/-- Settles O9: `raise` writes two fields, ENCODE's launch never writes GMEM, and PUT_BIT only once its checks have passed. -/
theorem raiseWritesErrAndPhaseOnly : Obligations.RaiseWritesErrAndPhaseOnly :=
  ⟨fun _ => ⟨rfl, rfl, rfl, rfl, rfl, rfl, rfl⟩, fun _ _ h _ => by rw [exec_encode_frame h],
    fun _ _ _ => exec_putBit_gmem_of_err⟩

end Sys2Proof.Machine
end

section
/-!
PROOFS. Reset (spec/70_reset_and_hazards.md): what it sets in any phase (R42, R260: O47), and what it keeps of the grid of a
walk that it ends (R263: O54).
-/

namespace Sys2Proof.Machine

variable {s : State} {rest : List HostAction} {k : Nat}

/-! ### Registers (R42) -/

/-- The reset event comes through in every phase (R260). -/
theorem step_reset (hs : s.script = .reset :: rest) : step s = .next (State.resetEvent { s with script := rest }) := by
  by_cases hp : s.phase = .scan
  · exact step_hostAccessInScan hp hs
  · exact step_hostAccess hp hs

theorem State.resetEvent_status (s : State) : s.resetEvent.status = 0x00#8 := by
  rw [State.status, State.resetEvent_mode, State.resetEvent_phase]
  rfl

/-- Settles O47: the step is the reset event, and the state laws say what it leaves in each register. -/
theorem resetSetsRegisters : Obligations.ResetSetsRegisters := by
  intro s rest hs
  refine ⟨_, step_reset hs, ?_⟩
  simp [State.resetEvent_status]

/-! ### The grid of a walk (R263) -/

/-- A reset during a walk ends it, and the grid stays as the walk has left it (R263). -/
theorem reset_ends_walk (hp : s.phase = .scan) (hs : s.script = .reset :: rest) :
    ∃ t, step s = .next t ∧ t.phase = .idle ∧ t.bitcnt = 0#32 ∧ ∀ a, a < s.gridSize → t.gmemAt a = s.gmemAt a :=
  ⟨_, step_reset hs, State.resetEvent_phase _, State.resetEvent_bitcnt _,
    fun _ => State.gmemAt_resetEvent (s := { s with script := rest }) hp⟩

/-- The tiles of the walk have grid cells only (R63, R172). -/
theorem lt_gridSize_of_inTile {q i a : Nat} (hi : i < s.capacityAt q) (ha : s.InTile q i a) : a < s.gridSize :=
  tileAddrs_lt (tilePos_inGrid hi).1 (tilePos_inGrid hi).2 ha

/-- During the walk its first `k` tiles hold the stream as far as it has got (R178, R180), and the shape is the launch's. -/
theorem EncodeWalk.run_holdsStream {w : State} (h : EncodeWalk s rest w) (hk : k < 1024 + 8 * s.plen.toNat) :
    ∃ u, run k w = .next u ∧ u.phase = .scan ∧ u.bitcnt.toNat = k ∧ u.gridSize = s.gridSize ∧
      HoldsStream s (isqrt s.groupSize.toNat) k u := by
  obtain ⟨u, hrun, hscan, hcount⟩ := h.run_scan hk
  obtain ⟨u', hrun', hu⟩ := h.launched.encode_run h.mode h.moves h.len_le (h.len_toNat ▸ hk)
  cases hrun.symm.trans hrun'
  refine ⟨u, hrun, hscan, hcount, ?_, h.holdsStream hk.le hu.wrote⟩
  rw [hu.frame, h.started.frame]
  rfl

/-- Settles O54: a reset in SCAN is `reset_ends_walk`, and the grid it keeps is the one of `EncodeWalk.run_holdsStream`, whose
tiles are all inside. -/
theorem resetDuringWalkKeepsGrid : Obligations.ResetDuringWalkKeepsGrid := by
  refine ⟨fun s rest => reset_ends_walk, fun s rest host q k hp hs hf hq hk => ?_⟩
  obtain ⟨rfl, -⟩ := root_of_groupSize hf.groupSizeOk hq
  obtain ⟨w, hstep, hw⟩ := exists_encodeWalk hp hs hf
  obtain ⟨u, hrun, hscan, hcount, hsize, hgrid⟩ := hw.run_holdsStream hk
  obtain ⟨t, hreset, hidle, hzero, hkept⟩ := reset_ends_walk (s := { u with script := .reset :: host }) hscan rfl
  have hcells : ∀ a, a < s.gridSize → t.gmemAt a = u.gmemAt a := fun a ha => hkept a (hsize.symm ▸ ha)
  refine ⟨u, t, (run_succ_of_step hstep).trans hrun, hscan, hcount, hreset, hidle, hzero, fun i hi a ha => ?written,
    fun a ha hout => (hcells a ha).trans (hgrid.outside a hout)⟩
  case written =>
    have hcap : i < s.capacityAt (isqrt s.groupSize.toNat) := (hi.trans hk).trans_le hf.fits
    rw [hcells a (lt_gridSize_of_inTile hcap ha), hgrid.inside i hi a ha]

end Sys2Proof.Machine
end
